-- ==== Sys2Proof/Word.lean ====
section
/-! DEFINITION. The types of values the block computes with (00_scope.md R7, R8): bytes, 32-bit register words, bit strings. -/

namespace Sys2Proof

/-- R8: an 8-bit unsigned value. -/
abbrev Byte := BitVec 8

/-- R5 (REG_W, FREQ_W): the width of a host register, of a frequency counter and of a stream pointer. -/
abbrev Word := BitVec 32

/-- R8: a finite string of bits, the first bit of the stream first; `true` is 1. -/
abbrev Bits := List Bool

/-- R8: a finite string of bytes, index 0 first. -/
abbrev Bytes := List Byte

end Sys2Proof
end

