-- ==== Sys2Proof/Syntax.lean ====
section
/-! DEFINITION. The command words of 30_encoding.md R90–R92: one constructor per row of spec/opcode_table.json. Bits 31:4 of a
command word carry nothing (R90), so no constructor holds them; a row that stands for several opcodes holds the opcode. -/

namespace Sys2Proof

/-- R91: what a write to CMD can ask for. -/
inductive Instr where
  /-- OP = 0x0 (R235). -/
  | nop
  /-- OP = 0x1 (R236). -/
  | compress
  /-- OP = 0x2 (R237). -/
  | decompress
  /-- OP = 0x3 (R238). -/
  | reserved3
  /-- OP = 0x4 to 0x7 (R238). -/
  | reserved4to7 (op : BitVec 4)
  /-- OP = 0x8 to 0xF (R238). -/
  | reserved8toF (op : BitVec 4)
  deriving DecidableEq, Repr

end Sys2Proof
end

