-- ==== Sys2Proof/WellFormed.lean ====
section
/-! DEFINITION. Which terms of `Instr` are instructions: the opcode a reserved row holds lies in that row of R91. -/

namespace Sys2Proof

/-- R91, R92: the opcode of a reserved command is one of the row's own. -/
def Instr.wellFormed : Instr → Bool
  | .nop => true
  | .compress => true
  | .decompress => true
  | .reserved3 => true
  | .reserved4to7 op => decide (4 ≤ op.toNat) && decide (op.toNat ≤ 7)
  | .reserved8toF op => decide (8 ≤ op.toNat)

end Sys2Proof
end

