-- ==== Sys2Proof/Decode.lean ====
section
/-! DEFINITION. The decoder of command words (R90–R92), total on every 32-bit word, and the encoder. -/

namespace Sys2Proof

/-- R90: the field OP = word[3:0]; bits 31:4 are ignored. -/
def opField (w : Word) : BitVec 4 :=
  w.extractLsb' 0 4

/-- R91: the command an opcode selects. -/
def decodeOp (op : BitVec 4) : Instr :=
  if op = 0#4 then .nop
  else if op = 1#4 then .compress
  else if op = 2#4 then .decompress
  else if op = 3#4 then .reserved3
  else if op.toNat < 8 then .reserved4to7 op
  else .reserved8toF op

/-- R90: every word decodes, by its OP field alone. -/
def decode (w : Word) : Instr :=
  decodeOp (opField w)

/-- R91: the opcode of a command. -/
def Instr.op : Instr → BitVec 4
  | .nop => 0#4
  | .compress => 1#4
  | .decompress => 2#4
  | .reserved3 => 3#4
  | .reserved4to7 op => op
  | .reserved8toF op => op

/-- R90: the command word with the given opcode and the given ignored bits 31:4. -/
def encodeWith (ignored : BitVec 28) (i : Instr) : Word :=
  ignored ++ i.op

/-- R90: the command word with bits 31:4 zero. -/
def encode (i : Instr) : Word :=
  encodeWith 0#28 i

/-- The name spec/opcode_table.json gives a command's row. -/
def Instr.mnemonic : Instr → String
  | .nop => "NOP"
  | .compress => "COMPRESS"
  | .decompress => "DECOMPRESS"
  | .reserved3 => "RESERVED_3"
  | .reserved4to7 _ => "RESERVED_4_7"
  | .reserved8toF _ => "RESERVED_8_F"

/-- A row of spec/opcode_table.json: the words `w` with `w &&& mask = pattern`. -/
structure OpcodeRow where
  mnemonic : String
  mask : Word
  pattern : Word
  deriving DecidableEq, Repr

/-- spec/opcode_table.json, R91: the six rows. -/
def opcodeTable : List OpcodeRow :=
  [⟨"NOP", 0x0000000F#32, 0x00000000#32⟩,
   ⟨"COMPRESS", 0x0000000F#32, 0x00000001#32⟩,
   ⟨"DECOMPRESS", 0x0000000F#32, 0x00000002#32⟩,
   ⟨"RESERVED_3", 0x0000000F#32, 0x00000003#32⟩,
   ⟨"RESERVED_4_7", 0x0000000C#32, 0x00000004#32⟩,
   ⟨"RESERVED_8_F", 0x00000008#32, 0x00000008#32⟩]

/-- The instruction the decoder reads from a table row's word: a command is one 32-bit word (R90), so a row's bits are the low
bits of that word and the word's other bits are 0; a row longer than a word is no instruction of this block. -/
def decodeTableWord (nbits w : Nat) : Option Instr :=
  if nbits ≤ 32 then some (decode (BitVec.ofNat 32 w)) else none

end Sys2Proof
end

