-- ==== Sys2Proof/Config.lean ====
section
/-! DEFINITION. What an implementation fixes (the OPEN parameters of R5) and the free values: constants with no body,
so that no proof can rest on what they are. A draw takes the next number of the counter `State.draws`. -/

namespace Sys2Proof

/-- R5, D6: the OPEN source capacity less one, so that SRC_MAX is from 1 to 2^32 − 1 (log 1). -/
opaque Config.srcMaxPred : Fin 4294967295

/-- R5, D6: the OPEN sink capacity less one, so that DST_MAX is from 1 to 2^32 − 1 (log 1). -/
opaque Config.dstMaxPred : Fin 4294967295

/-- R302, V1: the byte at an index of SRC that nothing has written since power-on (log 2). -/
opaque Config.srcPowerOn : Nat → Byte

/-- R302, R279, R301, V1, V2, V5: the byte at an index of DST that nothing has written since the draw of the given number:
power-on is number 0, each error completion and each reset while busy takes a number of its own (log 2). -/
opaque Config.dstUnspecified : Nat → Nat → Byte

/-- R72, R307, V3: what one host read of DST returns from a command's acceptance until the host has read STATUS with DONE = 1 (log 3,
log 22). -/
opaque Config.freeBusyRead : Nat → Byte

/-- R305, V4: the CODE field a command completes with when the host wrote SRC while it ran (log 7). -/
opaque Config.freeErrcode : Nat → BitVec 4

/-- R305, V4: the DST_LEN such a command completes with (log 7). -/
opaque Config.freeDstLen : Nat → Word

/-- R305, V4: the header bits of HDR such a command completes with (log 7). -/
opaque Config.freeHdr : Nat → BitVec 16

/-- R308, V7: how many host accesses come before the engine's next step, a finite number the spec does not bound (log 5). -/
opaque Config.freeStall : Nat → Nat

end Sys2Proof
end

