-- ==== Sys2Proof/Machine/State.lean ====
section
/-! DEFINITION. The state of the block as plain data: everything 10_state.md gives the machine, the host's pending accesses,
and the model's own counters; the reasons a step can stop; the state after power-on and reset. -/

namespace Sys2Proof.Machine

/-- R8 (the type `Tree`), R36: a node of the node store together with the nodes its references reach. A leaf has a value and a frequency, an
internal node a frequency and exactly two children; its value is the marker, written when it is serialized (log 6). -/
inductive HuffTree where
  | leaf (value : Byte) (freq : Word)
  | node (freq : Word) (left right : HuffTree)
  deriving DecidableEq, Repr, Inhabited

/-- R22: the values of the engine's sequencer. -/
inductive Phase where
  | idle
  | cFreq | cBuild | cCodes | cPrefix | cTree | cPack | cPatch
  | dHdr | dTree | dUnpack
  | xBad
  deriving DecidableEq, Repr

/-- R271: the error kinds a command can end in. -/
inductive CmdError where
  | sourceUnreadable
  | sinkUnwritable
  | corruptTree
  | degenerateAlphabet
  | corruptPayload
  | badCommand
  deriving DecidableEq, Repr

/-- R23: a register number. -/
abbrev RegNum := Fin 16

/-- R103, R104, R300, D36: one item of the host's script. The first seven are single accesses; the last three stand for the
pseudo-instructions whose expansion depends on what is read. -/
inductive HostItem where
  /-- write a register -/
  | wreg (r : RegNum) (v : Word)
  /-- read a register -/
  | rreg (r : RegNum)
  /-- write a byte of SRC -/
  | wsrc (i : Nat) (b : Byte)
  /-- read a byte of SRC -/
  | rsrc (i : Nat)
  /-- read a byte of DST -/
  | rdst (i : Nat)
  /-- write a byte of DST, which the block ignores (D36) -/
  | wdst (i : Nat) (b : Byte)
  /-- assert the reset input (R300) -/
  | rst
  /-- R104 `wait_done`: read STATUS until DONE = 1 -/
  | waitDone
  /-- R104 `copy_dst_to_src` -/
  | copyDstToSrc
  /-- one byte of `copy_dst_to_src`: read DST[i], then write it to SRC[i] -/
  | copyByte (i : Nat)
  deriving DecidableEq, Repr

/-- R40, R39: a byte memory: the bytes that have a determined value, by strictly rising index. -/
abbrev Memory := List Host.Cell

/-- R5: the OPEN parameters of the chip. Each is nonzero (State.paramsOk); a width of 32 bits bounds them by 2^32 − 1. -/
structure Params where
  srcMax : Word
  dstMax : Word
  deriving DecidableEq, Repr

/-- R25: the stored flags of STATUS. BUSY is not among them: it is 1 exactly when the phase is not IDLE (R22). -/
structure Status where
  done : Bool
  err : Bool
  drop : Bool
  deriving DecidableEq, Repr

/-- R33: what the engine captures when it accepts a command. -/
structure Latch where
  op : BitVec 4
  srcLen : Word
  degen : Bool
  deriving DecidableEq, Repr

/-- R21, R34–R38: the engine's datapath registers and internal structures; none is host-visible. -/
structure Engine where
  /-- R34 FREQ[0..255] -/
  freq : List Word
  /-- R35 Q, entry 0 next to be extracted -/
  queue : List HuffTree
  /-- R134, R174: the built or parsed tree -/
  root : Option HuffTree
  /-- R37 CODE[0..255], `none` for absent -/
  code : List (Option Bits)
  /-- R38: the internal nodes on the path of the descent, the innermost first; `none` while its left subtree is being read,
  the left subtree once that is complete. -/
  stack : List (Option HuffTree)
  /-- R21 ACC -/
  acc : BitVec 8
  /-- R21 NACC, 0 to 8 -/
  nacc : BitVec 4
  /-- R21 BITIDX -/
  bitIdx : BitVec 3
  /-- R21 CUR -/
  cur : Option HuffTree
  /-- R204 mid: the cursor is inside a code -/
  mid : Bool
  /-- R204 byte: the payload byte being read -/
  inByte : Byte
  /-- R21 BUDGET -/
  budget : BitVec 13
  /-- R21 RD_PTR -/
  rdPtr : Word
  /-- R21 WR_PTR -/
  wrPtr : Word
  /-- R21 BITS_LEFT -/
  bitsLeft : BitVec 35
  /-- R232, R233: the garbage count g of the running command -/
  garbage : BitVec 3
  /-- R232, R233: the tree_size ts of the running command -/
  treeSize : BitVec 13
  deriving DecidableEq, Repr

/-- The machine (R42), with the structures R42 lets a model leave out and the model's own fields at the end. -/
structure State where
  /-- R5: the chip's parameters; no step writes them (log 1). -/
  params : Params
  /-- R25 STATUS: DONE, ERR, DROP -/
  status : Status
  /-- R26 ERRCODE.CODE -/
  errcode : BitVec 4
  /-- R27 SRC_LEN -/
  srcLen : Word
  /-- R28 DST_LEN -/
  dstLen : Word
  /-- R29 HDR[15:0]: GARBAGE in 15:13, TREE_SIZE in 12:0 -/
  hdr : BitVec 16
  /-- R30 CFG.DEGEN -/
  degen : Bool
  /-- R22: the sequencer -/
  phase : Phase
  /-- R33: L_OP, L_SRC_LEN, L_DEGEN -/
  latch : Latch
  /-- R21, R34–R38 -/
  eng : Engine
  /-- R39 SRC -/
  src : Memory
  /-- R40 DST -/
  dst : Memory
  /-- R42, R282: the sticky host-protocol fault -/
  fault : Bool
  /-- R72, R73: a command has been accepted and the host has not read STATUS with DONE = 1 since. Until it does, a host read of DST
  returns an unspecified byte (log 22). -/
  unread : Bool
  /-- The model's: which draw the undetermined bytes of DST hold (log 2). -/
  dstGen : Nat
  /-- The model's: the number of the next free value (log 3). -/
  draws : Nat
  /-- The model's: how many host accesses still come before the engine's next step (log 5). -/
  stall : Nat
  /-- The model's: the host has written SRC while the present command runs (R305, log 7). -/
  tainted : Bool
  /-- The model's: the host's pending accesses, oldest first (log 8). -/
  host : List HostItem
  /-- The model's: the value the last host read returned (log 8). -/
  rdata : Word
  deriving DecidableEq, Repr

/-- Why the machine stops. No command reaches any of these (stated in the obligations): they are the places the spec
calls internal faults or "never read". Stopping there is safe. -/
inductive Fault where
  /-- R132, C8, U1: PqExtractMin on an empty queue. Raised by phase C_BUILD; safe. -/
  | emptyQueue
  /-- R137: the code of a byte value that has none is looked up. Raised by phase C_PACK; safe. -/
  | absentCode
  /-- R204 and the source's §9: the cursor has no children to descend to. Raised by phase D_UNPACK; safe. -/
  | noChild
  deriving DecidableEq, Repr

/-- Why the machine has no meaning for an instruction. -/
inductive Refusal where
  /-- Raised by an arm of `exec` whose instruction has no meaning yet; safe. No arm of this model raises it. -/
  | notModelled (mnemonic : String)
  deriving DecidableEq, Repr

/-- The engine's registers and structures after reset. R300 leaves them unspecified and unread; the values here are named
in log 4 (DESIGN CHOICE). -/
def Engine.reset : Engine where
  freq := List.replicate 256 0#32
  queue := []
  root := none
  code := List.replicate 256 none
  stack := []
  acc := 0#8
  nacc := 0#4
  bitIdx := 0#3
  cur := none
  mid := false
  inByte := 0#8
  budget := 0#13
  rdPtr := 0#32
  wrPtr := 0#32
  bitsLeft := 0#35
  garbage := 0#3
  treeSize := 0#13

/-- R300, R302: the machine after power-on and reset. Every register is 0, the phase is IDLE, no byte of SRC or DST is
determined, the sticky fault is false, and the host has done nothing yet. -/
def State.reset : State where
  params := { srcMax := BitVec.ofNat 32 (Config.srcMaxPred.val + 1), dstMax := BitVec.ofNat 32 (Config.dstMaxPred.val + 1) }
  status := { done := false, err := false, drop := false }
  errcode := 0#4
  srcLen := 0#32
  dstLen := 0#32
  hdr := 0#16
  degen := false
  phase := .idle
  latch := { op := 0#4, srcLen := 0#32, degen := false }
  eng := Engine.reset
  src := []
  dst := []
  fault := false
  unread := false
  dstGen := 0
  draws := 1
  stall := 0
  tainted := false
  host := []
  rdata := 0#32

end Sys2Proof.Machine
end

