-- ==== Sys2Proof/Machine/Operands.lean ====
section
/-! DEFINITION. The constants, fields and operand forms of the container (30_encoding.md R95–R101, 43_container_codec.md R230,
R231) and of the register port (10_state.md R23). -/

namespace Sys2Proof.Machine

/-- R5, R99: the byte that stands for an internal node in the tree stream. -/
def mark : Byte := 0x2A#8

/-- R5, R99, G1: the escape byte. -/
def esc : Byte := 0x5C#8

/-- R95, G2: container byte 0. -/
def magic0 : Byte := 0x41#8

/-- R95, G2: container byte 1. -/
def magic1 : Byte := 0x42#8

/-- D19: the placeholder for both header bytes until the back-patch. -/
def placeholder : Byte := 0x00#8

/-- R5 (CONTAINER_PREFIX), C1: magic and header together. -/
def containerPrefix : Nat := 4

/-- R5 (DEC_STACK), R38: the entries the deserializer's stack has room for. -/
def decStack : Nat := 4095

/-- R96, R230: `(g << 13) | ts`. -/
def headerPack (g : BitVec 3) (ts : BitVec 13) : BitVec 16 :=
  (g.setWidth 16 <<< 13) ||| ts.setWidth 16

/-- R96: container byte 2, H[15:8]. -/
def headerHigh (h : BitVec 16) : Byte :=
  h.extractLsb' 8 8

/-- R96: container byte 3, H[7:0]. -/
def headerLow (h : BitVec 16) : Byte :=
  h.extractLsb' 0 8

/-- R97: the header of container bytes 2 and 3. -/
def headerOfBytes (b2 b3 : Byte) : BitVec 16 :=
  (b2.setWidth 16 <<< 8) ||| b3.setWidth 16

/-- R96: H[15:13]. -/
def headerGarbage (h : BitVec 16) : BitVec 3 :=
  h.extractLsb' 13 3

/-- R96: H[12:0]. -/
def headerTreeSize (h : BitVec 16) : BitVec 13 :=
  h.extractLsb' 0 13

/-- R231: the garbage count and tree size in container bytes 2 and 3. -/
def headerUnpack (b2 b3 : Byte) : BitVec 3 × BitVec 13 :=
  (headerGarbage (headerOfBytes b2 b3), headerTreeSize (headerOfBytes b2 b3))

/-- R61: bit `k` of a payload byte in stream order, `byte[7 − k]`. -/
def streamBit (b : Byte) (k : Nat) : Bool :=
  b.getLsbD (7 - k)

/-- R61: the eight bits of a payload byte in stream order. -/
def streamBits (b : Byte) : Bits :=
  (List.range 8).map (streamBit b)

/-- R200: `((acc << 1) | bit)[7:0]`. -/
def shiftIn (acc : Byte) (bit : Bool) : Byte :=
  (acc <<< 1) ||| (BitVec.ofBool bit).setWidth 8

/-- R61: up to eight bits of the stream as a byte, the first in the highest of the places used. -/
def byteOfBits (bits : Bits) : Byte :=
  bits.foldl shiftIn 0#8

/-- R201: `(8 − (T mod 8)) mod 8`. -/
def garbageCount (t : Nat) : Nat :=
  (8 - t % 8) % 8

/-- R23: register numbers. -/
def regCmd : RegNum := 0
def regStatus : RegNum := 1
def regErrcode : RegNum := 2
def regSrcLen : RegNum := 3
def regDstLen : RegNum := 4
def regHdr : RegNum := 5
def regCfg : RegNum := 6

/-- R271: the value of ERRCODE.CODE for an error. -/
def CmdError.code : CmdError → BitVec 4
  | .sourceUnreadable => 1#4
  | .sinkUnwritable => 2#4
  | .corruptTree => 3#4
  | .degenerateAlphabet => 4#4
  | .corruptPayload => 5#4
  | .badCommand => 6#4

end Sys2Proof.Machine
end

