-- ==== Sys2Proof/Machine/Flags.lean ====
section
/-! DEFINITION. The flags of STATUS (10_state.md R25, R32): BUSY, DONE, ERR and DROP, the word a read of STATUS gives, and what
acceptance, a dropped command and completion do to them. -/

namespace Sys2Proof.Machine

/-- R22, R25: STATUS.BUSY is 1 exactly when the phase is not IDLE. -/
def State.busy (s : State) : Bool :=
  s.phase != .idle

/-- R25: the value a read of STATUS returns; bits 31:4 read as 0. -/
def statusWord (busy : Bool) (f : Status) : Word :=
  0#28 ++ BitVec.ofBool f.drop ++ BitVec.ofBool f.err ++ BitVec.ofBool f.done ++ BitVec.ofBool busy

/-- R281: the output port `done`. -/
def State.donePort (s : State) : Bool :=
  s.status.done

/-- R234: acceptance clears DONE, ERR and DROP. -/
def Status.accepted : Status :=
  { done := false, err := false, drop := false }

/-- R304: a command written while one runs sets DROP and nothing else. -/
def Status.dropped (f : Status) : Status :=
  { f with drop := true }

/-- R239: completion sets DONE, sets ERR exactly when an error was raised, and keeps DROP. -/
def Status.completed (f : Status) (err : Bool) : Status :=
  { f with done := true, err := err }

end Sys2Proof.Machine
end

