-- ==== Sys2Proof/Machine/Ops.lean ====
section
/-! DEFINITION. The named operations over the memories and registers: reading and writing SRC and DST (20_memory.md R64–R70), the
register port (10_state.md R23–R31), acceptance (43_container_codec.md R234), raising an error and completing
(60_exceptions.md R270, R279; 43_container_codec.md R239), and reset (70_reset_and_hazards.md R300–R302). -/

namespace Sys2Proof.Machine

/-! ### Byte memories -/

/-- What an unlisted index of SRC or DST holds: no determined value (R302); the accessors below give a free value for it (log 2). -/
def Memory.unlisted : Option Byte :=
  none

/-- The determined byte at an index. -/
def Memory.lookup : Memory → Nat → Option Byte
  | [], _ => Memory.unlisted
  | (a, b) :: m, i => if a = i then some b else Memory.lookup m i

/-- Stores a byte, keeping the indices strictly rising. -/
def Memory.store : Memory → Nat → Byte → Memory
  | [], i, v => [(i, v)]
  | (a, b) :: m, i, v =>
    if i < a then (i, v) :: (a, b) :: m
    else if i = a then (i, v) :: m
    else (a, b) :: Memory.store m i v

/-- The canonical form: indices strictly rising. A listed byte is a determined value and an unlisted one is not, so no entry
can equal what an unlisted index holds. -/
abbrev Memory.wf (m : Memory) : Prop :=
  m.Pairwise (fun x y => x.1 < y.1)

/-- Every listed index is below the capacity (R39, R40). -/
abbrev Memory.below (m : Memory) (cap : Nat) : Prop :=
  ∀ c ∈ m, c.1 < cap

/-- R9 SrcRead, R39: the byte SRC holds at an index; a free value where nothing has written it since power-on (R302). -/
def State.srcRead (s : State) (i : Nat) : Byte :=
  (Memory.lookup s.src i).getD (Config.srcPowerOn i)

/-- R40: the byte DST holds at an index; a free value where it is unspecified (R302, R279, R301). -/
def State.dstRead (s : State) (i : Nat) : Byte :=
  (Memory.lookup s.dst i).getD (Config.dstUnspecified s.dstGen i)

/-- R42: SRC[0..n) as a byte string. -/
def State.srcBytes (s : State) (n : Nat) : Bytes :=
  (List.range n).map s.srcRead

/-- R33: the running command's input, SRC[0..L_SRC_LEN). -/
def State.input (s : State) : Bytes :=
  s.srcBytes s.latch.srcLen.toNat

/-- R279, R301: every byte of DST becomes unspecified: a fresh draw. -/
def State.redrawDst (s : State) : State :=
  { s with dst := [], dstGen := s.draws, draws := s.draws + 1 }

/-- R308: a fresh number of host accesses before the engine's next step. -/
def State.drawStall (s : State) : State :=
  { s with stall := Config.freeStall s.draws, draws := s.draws + 1 }

/-! ### The engine's accesses -/

/-- Why a phase stops: an error of the command (R270), or an internal fault no command reaches. -/
inductive Stop where
  | raise (e : CmdError)
  | internal (f : Fault)
  deriving DecidableEq, Repr

/-- R69: DstWrite(i, v). -/
def dstWrite (i : Nat) (v : Byte) (s : State) : Except Stop State :=
  if i < s.params.dstMax.toNat then .ok { s with dst := Memory.store s.dst i v }
  else .error (.raise .sinkUnwritable)

/-- R22, R69: DstWrite at WR_PTR, which then advances by one. -/
def dstPut (v : Byte) (s : State) : Except Stop State := do
  let s ← dstWrite s.eng.wrPtr.toNat v s
  return { s with eng := { s.eng with wrPtr := s.eng.wrPtr + 1 } }

/-- R69: DstWrite of a byte string, in order, at WR_PTR. -/
def dstPutAll : Bytes → State → Except Stop State
  | [], s => .ok s
  | v :: vs, s => do
    let s ← dstPut v s
    dstPutAll vs s

/-- R22, R68: the byte at RD_PTR. -/
def srcAtRdPtr (s : State) : Byte :=
  s.srcRead s.eng.rdPtr.toNat

/-- R22: RD_PTR advances by one. -/
def advanceRdPtr (s : State) : State :=
  { s with eng := { s.eng with rdPtr := s.eng.rdPtr + 1 } }

/-- R22: the sequencer enters a phase. -/
def State.enter (s : State) (p : Phase) : State :=
  { s with phase := p }

/-! ### Acceptance and completion -/

/-- R234: an idle block accepts opcode `op` and enters phase `first`, with the queue empty (R35, R43; that acceptance is where
it is emptied is a DESIGN CHOICE, log 23) and the command's DONE read still owed (R72). The phase X_BAD goes straight to
completion (R22, R238), so no host access comes before it; before any other first phase comes a number the spec does not bound
(R308). -/
def accept (op : BitVec 4) (first : Phase) (s : State) : State :=
  let s := { s with
    latch := { op := op, srcLen := s.srcLen, degen := s.degen }
    status := Status.accepted
    errcode := 0#4
    dstLen := 0#32
    hdr := 0#16
    phase := first
    eng := { s.eng with queue := [] }
    unread := true
    tainted := false }
  if first = .xBad then { s with stall := 0 } else s.drawStall

/-- R234, R304: a nonzero opcode written to CMD is dropped while a command runs, and accepted otherwise. -/
def startCommand (op : BitVec 4) (first : Phase) (s : State) : State :=
  if s.busy then { s with status := s.status.dropped } else accept op first s

/-- R239: success with result length `len` and header `h`; DST already holds the result. The latched operands and the unseen engine
structures keep their values; after completion the spec gives them none (DESIGN CHOICE, log 21 and log 10). -/
def completeOk (len : Word) (h : BitVec 16) (s : State) : State :=
  { s with
    dstLen := len
    hdr := h
    errcode := 0#4
    status := s.status.completed false
    phase := .idle }

/-- R239, R279: completion with error `e`. DST keeps its bytes for BadCommand and becomes unspecified for every other error.
The latched operands and the unseen engine structures keep their values (DESIGN CHOICE, log 21 and log 10). -/
def completeError (e : CmdError) (s : State) : State :=
  let s := { s with
    errcode := e.code
    dstLen := 0#32
    hdr := 0#16
    status := s.status.completed true
    phase := .idle }
  if e = .badCommand then s else s.redrawDst

/-- R305, V4: completion of a command during which the host wrote SRC. ERRCODE, DST_LEN, HDR and every byte of DST are draws, and
ERR says whether the drawn code is an error (R26, R239, log 7). The latched operands and the unseen engine structures keep their
values (DESIGN CHOICE, log 21 and log 10). -/
def completeTainted (s : State) : State :=
  let code := Config.freeErrcode s.draws
  { s with
    errcode := code
    dstLen := Config.freeDstLen s.draws
    hdr := Config.freeHdr s.draws
    status := s.status.completed (code != 0#4)
    phase := .idle
    tainted := false
    draws := s.draws + 1 }.redrawDst

/-! ### Reset -/

/-- R300–R302: the reset input. Every register takes its reset value and the phase becomes IDLE; SRC and the sticky fault keep
their values; DST keeps its bytes unless a command was running, which makes them unspecified. The host's pending accesses and the
value it last read are not the block's and stay; and reset is no synchronisation point (R73), so a DONE read still owed stays owed
(log 22). -/
def resetSignal (s : State) : State :=
  let t := { State.reset with
    params := s.params
    src := s.src
    dst := s.dst
    dstGen := s.dstGen
    fault := s.fault
    unread := s.unread
    draws := s.draws
    host := s.host
    rdata := s.rdata }
  if s.busy then t.redrawDst else t

/-! ### The register port -/

/-- R23–R31: the value a host read of a register returns. CMD and the reserved numbers read as 0. -/
def State.regRead (s : State) (r : RegNum) : Word :=
  if r = regStatus then statusWord s.busy s.status
  else if r = regErrcode then s.errcode.setWidth 32
  else if r = regSrcLen then s.srcLen
  else if r = regDstLen then s.dstLen
  else if r = regHdr then s.hdr.setWidth 32
  else if r = regCfg then (BitVec.ofBool s.degen).setWidth 32
  else 0#32

/-- R23–R31, R306: a host write of a register other than CMD. Only SRC_LEN and CFG[0] are writable. -/
def State.regWrite (s : State) (r : RegNum) (v : Word) : State :=
  if r = regSrcLen then { s with srcLen := v }
  else if r = regCfg then { s with degen := v.getLsbD 0 }
  else s

end Sys2Proof.Machine
end

