-- ==== Sys2Proof/Machine/Commands.lean ====
section
/-! DEFINITION. What a write of each command word to CMD does (43_container_codec.md R234–R238). The rest of an accepted command's
effect is the engine's (Machine/Engine.lean). -/

namespace Sys2Proof.Machine

/-- R235 NOP: no effect of any kind, busy or not. -/
def execNop (s : State) : Host.Outcome State Fault Refusal :=
  .next s

/-- R236, R234 COMPRESS. -/
def execCompress (s : State) : Host.Outcome State Fault Refusal :=
  .next (startCommand 1#4 .cFreq s)

/-- R237, R234 DECOMPRESS. -/
def execDecompress (s : State) : Host.Outcome State Fault Refusal :=
  .next (startCommand 2#4 .dHdr s)

/-- R238, R234: opcode 3. -/
def execReserved3 (s : State) : Host.Outcome State Fault Refusal :=
  .next (startCommand 3#4 .xBad s)

/-- R238, R234: opcodes 4 to 7. -/
def execReserved4to7 (op : BitVec 4) (s : State) : Host.Outcome State Fault Refusal :=
  .next (startCommand op .xBad s)

/-- R238, R234: opcodes 8 to 15. -/
def execReserved8toF (op : BitVec 4) (s : State) : Host.Outcome State Fault Refusal :=
  .next (startCommand op .xBad s)

end Sys2Proof.Machine
end

