-- ==== Sys2Proof/Machine/Dispatch.lean ====
section
/-! DEFINITION. The dispatch: one arm per constructor of Instr. -/

namespace Sys2Proof.Machine

def exec (i : Instr) (s : State) : Host.Outcome State Fault Refusal :=
  match i with
  | .nop => Sys2Proof.Machine.execNop s
  | .compress => Sys2Proof.Machine.execCompress s
  | .decompress => Sys2Proof.Machine.execDecompress s
  | .reserved3 => Sys2Proof.Machine.execReserved3 s
  | .reserved4to7 op => Sys2Proof.Machine.execReserved4to7 op s
  | .reserved8toF op => Sys2Proof.Machine.execReserved8toF op s

end Sys2Proof.Machine
end

