-- ==== Sys2Proof/Machine/TreeBuilder.lean ====
section
/-! DEFINITION. Frequency table, priority queue, tree builder and code book (40_tree_builder.md R130–R138), as pure functions. -/

namespace Sys2Proof.Machine

/-- R8: the frequency of a node. -/
def HuffTree.freq : HuffTree → Word
  | .leaf _ f => f
  | .node f _ _ => f

/-- R134, R233: the tree is a single leaf. -/
def isSingleLeaf : Option HuffTree → Bool
  | some (.leaf _ _) => true
  | _ => false

/-- R34: every counter zero. -/
def freqZero : List Word :=
  List.replicate 256 0#32

/-- R130: `FREQ[b] <- FREQ[b] + 1`. -/
def freqBump (freq : List Word) (b : Byte) : List Word :=
  freq.modify b.toNat (· + 1#32)

/-- R130 FreqCount. -/
def freqCount (src : Bytes) : List Word :=
  src.foldl freqBump freqZero

/-- R131 PqInsert: immediately before the first entry whose frequency is greater or equal. -/
def pqInsert : List HuffTree → HuffTree → List HuffTree
  | [], n => [n]
  | t :: q, n => if n.freq ≤ t.freq then n :: t :: q else t :: pqInsert q n

/-- R132 PqExtractMin; `none` on an empty queue. -/
def pqExtractMin : List HuffTree → Option (HuffTree × List HuffTree)
  | [] => none
  | n :: q => some (n, q)

/-- R133: one value of the fill. -/
def pqFillStep (freq : List Word) (q : List HuffTree) (v : Nat) : List HuffTree :=
  if freq.getD v 0#32 = 0#32 then q else pqInsert q (.leaf (BitVec.ofNat 8 v) (freq.getD v 0#32))

/-- R133 PqFill: a leaf for each byte value present, inserted in ascending order of value (D8). -/
def pqFill (freq : List Word) : List HuffTree :=
  (List.range 256).foldl (pqFillStep freq) []

/-- R134: one merge; the first node extracted becomes the left child. -/
def mergeTwo (q : List HuffTree) : Option (List HuffTree) := do
  let (a, q) ← pqExtractMin q
  let (b, q) ← pqExtractMin q
  return pqInsert q (.node (a.freq + b.freq) a b)

/-- R134: the loop, with a bound on its number of merges. -/
def mergeLoop : Nat → List HuffTree → Option (List HuffTree)
  | 0, q => some q
  | n + 1, q => if q.length ≤ 1 then some q else (mergeTwo q).bind (mergeLoop n)

/-- R134 TreeBuild, leaving the queue; the loop merges once less than the queue has entries. `none` only for an extraction
from an empty queue (R132). -/
def treeBuild (q : List HuffTree) : Option (List HuffTree) :=
  mergeLoop q.length q

/-- R137 Walk: appends 0 to the path on the left and 1 on the right, and records the path at each leaf. -/
def codeWalk : HuffTree → Bits → List (Option Bits) → List (Option Bits)
  | .leaf v _, path, code => code.set v.toNat (some path)
  | .node _ l r, path, code => codeWalk r (path ++ [true]) (codeWalk l (path ++ [false]) code)

/-- R137: every entry absent. -/
def codeAbsent : List (Option Bits) :=
  List.replicate 256 none

/-- R137 CodeBook; a single leaf gets the code "0" (R138). -/
def codeBook : Option HuffTree → List (Option Bits)
  | none => codeAbsent
  | some (.leaf v _) => codeAbsent.set v.toNat (some [false])
  | some (.node f l r) => codeWalk (.node f l r) [] codeAbsent

/-- R137: the code of a byte value. -/
def codeOf (code : List (Option Bits)) (b : Byte) : Option Bits :=
  code.getD b.toNat none

/-- R130, R133, R134: the tree of an input. -/
def treeOf (src : Bytes) : Option HuffTree :=
  ((treeBuild (pqFill (freqCount src))).getD []).head?

end Sys2Proof.Machine
end

