-- ==== Sys2Proof/Machine/TreeSerializer.lean ====
section
/-! DEFINITION. The tree serializer and deserializer (41_tree_serializer.md R170–R176): the functions on byte strings, and the
engine's deserializer with its stack, budget and read pointer. -/

namespace Sys2Proof.Machine

/-- R170 Ser. -/
def serTree : HuffTree → Bytes
  | .leaf v _ => if v = mark ∨ v = esc then [esc, v] else [v]
  | .node _ l r => mark :: (serTree l ++ serTree r)

/-- R170 Serialize. -/
def serialize : Option HuffTree → Bytes
  | none => []
  | some t => serTree t

/-- R173 DeserNode on the bytes the budget still covers: the budget is their number. A node takes at least one byte, so a depth
bound equal to the number of bytes is never what stops the descent. `none` is CorruptTree. -/
def deserNode : Nat → Bytes → Option (HuffTree × Bytes)
  | 0, _ => none
  | _ + 1, [] => none
  | n + 1, b :: rest =>
    if b = esc then
      match rest with
      | [] => none
      | v :: rest => some (.leaf v 0#32, rest)
    else if b = mark then do
      let (l, rest) ← deserNode n rest
      let (r, rest) ← deserNode n rest
      return (.node 0#32 l r, rest)
    else some (.leaf b 0#32, rest)

/-- R174, D13: the tree of a descent that used the whole budget. -/
def wholeTree : Option (HuffTree × Bytes) → Option (Option HuffTree)
  | some (t, []) => some (some t)
  | _ => none

/-- R174 DeserializeTree on the tree field; `none` is CorruptTree. -/
def deserializeTree (field : Bytes) : Option (Option HuffTree) :=
  if field = [] then some none else wholeTree (deserNode field.length field)

/-! ### The engine's deserializer -/

/-- R38: a complete subtree goes to the innermost node that waits for one: as its left subtree, or as its right, which completes
that node in turn. With no node waiting it is the whole tree. -/
def attach : HuffTree → List (Option HuffTree) → Option HuffTree × List (Option HuffTree)
  | t, [] => (some t, [])
  | t, none :: st => (none, some t :: st)
  | t, some l :: st => attach (.node 0#32 l t) st

/-- R173: a leaf has been read. -/
def deserLeaf (v : Byte) (s : State) : State :=
  { s with eng := { s.eng with
      root := (attach (.leaf v 0#32) s.eng.stack).1
      stack := (attach (.leaf v 0#32) s.eng.stack).2 } }

/-- R173, R38: an internal node's marker has been read. With the stack full the tree cannot be completed inside a tree field of at most
8191 bytes (R175), so CorruptTree is raised at once (DEDUCED, log 24). -/
def deserMark (s : State) : Except Stop State :=
  if s.eng.stack.length < decStack then .ok { s with eng := { s.eng with stack := none :: s.eng.stack } }
  else .error (.raise .corruptTree)

/-- R173: takes the next byte of the tree field out of the budget. -/
def treeByte (s : State) : Except Stop (Byte × State) :=
  if s.eng.budget = 0#13 then .error (.raise .corruptTree)
  else .ok (srcAtRdPtr s,
    { s with eng := { s.eng with rdPtr := s.eng.rdPtr + 1, budget := s.eng.budget - 1 } })

/-- R173: reads the head of one node. -/
def deserHead (s : State) : Except Stop State := do
  let (b, s) ← treeByte s
  if b = esc then
    let (v, s) ← treeByte s
    return deserLeaf v s
  else if b = mark then deserMark s
  else return deserLeaf b s

/-- R173: reads heads until the tree is complete. Every head takes a byte of the budget, so with the budget as bound the bound is
reached only when the budget is exhausted. -/
def deserLoop : Nat → State → Except Stop State
  | 0, _ => .error (.raise .corruptTree)
  | n + 1, s => do
    let s ← deserHead s
    if s.eng.root.isSome then return s else deserLoop n s

end Sys2Proof.Machine
end

