-- ==== Sys2Proof/Machine/BitPacker.lean ====
section
/-! DEFINITION. The bit packer and bit unpacker (42_bit_packer.md R200–R208): the payload as a function of bit strings (R101, R204),
and the engine's loops over ACC, NACC, BITIDX, CUR and BITS_LEFT. -/

namespace Sys2Proof.Machine

/-! ### On bit strings -/

/-- R101, R137: the codes of the input bytes, concatenated in input order. -/
def codeBits (code : List (Option Bits)) (src : Bytes) : Bits :=
  src.flatMap (fun b => (codeOf code b).getD [])

/-- R101: a bit string packed MSB first, the last byte padded with zero bits in its low places. -/
def packBytes : Bits → Bytes
  | b0 :: b1 :: b2 :: b3 :: b4 :: b5 :: b6 :: b7 :: rest => byteOfBits [b0, b1, b2, b3, b4, b5, b6, b7] :: packBytes rest
  | [] => []
  | bits => [byteOfBits (bits ++ List.replicate (8 - bits.length) false)]

/-- R61: the bits of a payload in stream order. -/
def payloadBits (payload : Bytes) : Bits :=
  payload.flatMap streamBits

/-- R204 from a cursor with children `l` and `r`, in the tree with root children `rootL` and `rootR`: the bytes emitted and whether
the bits run out inside a code. -/
def unpackBits (rootL rootR : HuffTree) : HuffTree → HuffTree → Bool → Bits → Bytes × Bool
  | _, _, mid, [] => ([], mid)
  | l, r, _, bit :: bits =>
    match (if bit then r else l) with
    | .leaf v _ => (v :: (unpackBits rootL rootR rootL rootR false bits).1, (unpackBits rootL rootR rootL rootR false bits).2)
    | .node _ l' r' => unpackBits rootL rootR l' r' true bits

/-! ### The engine's packer -/

/-- R200: one code bit into the accumulator; the eighth flushes it. -/
def packBit (bit : Bool) (s : State) : Except Stop State :=
  let acc := shiftIn s.eng.acc bit
  let nacc := s.eng.nacc + 1
  if nacc = 8#4 then do
    let s ← dstPut acc s
    return { s with eng := { s.eng with acc := 0#8, nacc := 0#4 } }
  else .ok { s with eng := { s.eng with acc := acc, nacc := nacc } }

/-- R200: the bits of a code, first bit first. -/
def packCode : Bits → State → Except Stop State
  | [], s => .ok s
  | bit :: bits, s => do
    let s ← packBit bit s
    packCode bits s

/-- R200: the next input byte's code. An absent code is never read (R137). -/
def packByte (s : State) : Except Stop State :=
  match codeOf s.eng.code (srcAtRdPtr s) with
  | none => .error (.internal .absentCode)
  | some bits => packCode bits (advanceRdPtr s)

/-- R200: the next `n` input bytes, in order. -/
def packLoop : Nat → State → Except Stop State
  | 0, s => .ok s
  | n + 1, s => do
    let s ← packByte s
    packLoop n s

/-- R200: flushes 1 to 7 bits left over, shifted up, and sets the garbage count. -/
def packFlush (s : State) : Except Stop State :=
  if s.eng.nacc = 0#4 then .ok { s with eng := { s.eng with garbage := 0#3 } }
  else do
    let s' ← dstPut (s.eng.acc <<< (8 - s.eng.nacc.toNat)) s
    return { s' with eng := { s'.eng with garbage := BitVec.ofNat 3 (8 - s.eng.nacc.toNat) } }

/-! ### The engine's unpacker -/

/-- R203: `8·P − g` payload bits, or `none` when the payload is shorter than its padding. -/
def unpackBitCount (f g ts : Nat) : Option Nat :=
  if 8 * (f - containerPrefix - ts) < g then none else some (8 * (f - containerPrefix - ts) - g)

/-- R9, R207: emit(v). -/
def emit (v : Byte) (s : State) : Except Stop State :=
  dstPut v s

/-- R204: loads the next payload byte at each eighth bit. -/
def loadPayloadByte (s : State) : State :=
  if s.eng.bitIdx = 0#3 then
    { s with eng := { s.eng with inByte := srcAtRdPtr s, rdPtr := s.eng.rdPtr + 1 } }
  else s

/-- R204: takes the next payload bit. -/
def payloadBit (s : State) : Bool × State :=
  let s := loadPayloadByte s
  (streamBit s.eng.inByte s.eng.bitIdx.toNat,
    { s with eng := { s.eng with bitIdx := s.eng.bitIdx + 1, bitsLeft := s.eng.bitsLeft - 1 } })

/-- R204: moves the cursor down by one bit; a leaf is emitted and the cursor goes back to the root. -/
def descend (bit : Bool) (s : State) : Except Stop State :=
  match s.eng.cur with
  | some (.node _ l r) =>
    match (if bit then r else l) with
    | .leaf v _ => do
      let s ← emit v s
      return { s with eng := { s.eng with cur := s.eng.root, mid := false } }
    | .node f l' r' => .ok { s with eng := { s.eng with cur := some (.node f l' r'), mid := true } }
  | _ => .error (.internal .noChild)

/-- R204: `n` payload bits through the tree. -/
def unpackLoop : Nat → State → Except Stop State
  | 0, s => .ok s
  | n + 1, s => do
    let s ← descend (payloadBit s).1 (payloadBit s).2
    unpackLoop n s

/-- R205: the leaf once per payload bit, whatever the bit. -/
def emitLoop (v : Byte) : Nat → State → Except Stop State
  | 0, s => .ok s
  | n + 1, s => do
    let s ← emit v s
    emitLoop v n { s with eng := { s.eng with bitsLeft := s.eng.bitsLeft - 1 } }

end Sys2Proof.Machine
end

