-- ==== Sys2Proof/Machine/ContainerCodec.lean ====
section
/-! DEFINITION. COMPRESS and DECOMPRESS as pure functions of the input bytes, the policy and the capacities (43_container_codec.md
R236, R237; the checks in the order of 60_exceptions.md R278). The engine's phases are in Machine/Engine.lean. -/

namespace Sys2Proof.Machine

/-- R236: the payload bits of an input. -/
def inputBits (src : Bytes) : Bits :=
  codeBits (codeBook (treeOf src)) src

/-- R232, R236: the header COMPRESS writes. -/
def containerHeader (src : Bytes) : BitVec 16 :=
  headerPack (BitVec.ofNat 3 (garbageCount (inputBits src).length)) (BitVec.ofNat 13 (serialize (treeOf src)).length)

/-- R236: the container `C`. -/
def container (src : Bytes) : Bytes :=
  [magic0, magic1, headerHigh (containerHeader src), headerLow (containerHeader src)]
    ++ serialize (treeOf src) ++ packBytes (inputBits src)

/-- R236 Compress: the container and its header, or the error. -/
def compressBytes (src : Bytes) (degen : Bool) (srcMax dstMax : Nat) : Except CmdError (Bytes × BitVec 16) :=
  if srcMax < src.length then .error .sourceUnreadable
  else if isSingleLeaf (treeOf src) && degen then .error .degenerateAlphabet
  else if dstMax < (container src).length then .error .sinkUnwritable
  else .ok (container src, containerHeader src)

/-- R207: the outcome once the output and the state of the cursor are known. -/
def unpackOutcome (dstMax : Nat) (out : Bytes) (mid : Bool) : Except CmdError Bytes :=
  if dstMax < out.length then .error .sinkUnwritable
  else if mid then .error .corruptPayload
  else .ok out

/-- R204–R207: the payload `bits` decoded with the tree `root`. -/
def unpackTree (root : Option HuffTree) (bits : Bits) (dstMax : Nat) : Except CmdError Bytes :=
  match root with
  | none => if bits = [] then .ok [] else .error .corruptTree
  | some (.leaf v _) => unpackOutcome dstMax (List.replicate bits.length v) false
  | some (.node _ l r) => unpackOutcome dstMax (unpackBits l r l r false bits).1 (unpackBits l r l r false bits).2

/-- R233 D_TREE and D_UNPACK on a container whose header is `h`. -/
def decodeBody (src : Bytes) (h : BitVec 16) (degen : Bool) (dstMax : Nat) : Except CmdError (Bytes × BitVec 16) :=
  let g := (headerGarbage h).toNat
  let ts := (headerTreeSize h).toNat
  match deserializeTree ((src.drop containerPrefix).take ts) with
  | none => .error .corruptTree
  | some root =>
    if isSingleLeaf root && degen then .error .degenerateAlphabet
    else
      match unpackBitCount src.length g ts with
      | none => .error .corruptPayload
      | some n =>
        match unpackTree root ((payloadBits (src.drop (containerPrefix + ts))).take n) dstMax with
        | .error e => .error e
        | .ok out => .ok (out, h)

/-- R237 DECOMPRESS: the decoded bytes and the header read, or the error. -/
def decompressBytes (src : Bytes) (degen : Bool) (srcMax dstMax : Nat) : Except CmdError (Bytes × BitVec 16) :=
  if srcMax < src.length then .error .sourceUnreadable
  else if src.length < containerPrefix then .error .sourceUnreadable
  else
    let h := headerOfBytes (src.getD 2 0#8) (src.getD 3 0#8)
    if src.length < containerPrefix + (headerTreeSize h).toNat then .error .corruptTree
    else decodeBody src h degen dstMax

end Sys2Proof.Machine
end

