-- ==== Sys2Proof/Machine/Engine.lean ====
section
/-! DEFINITION. The engine: the phases of COMPRESS (43_container_codec.md R232), of DECOMPRESS (R233) and of a reserved opcode
(R238), one engine step a phase, over the datapath registers and internal structures of 10_state.md R21, R34–R38. -/

namespace Sys2Proof.Machine

/-- R270: `raise e` when a check fails. -/
def check (ok : Bool) (e : CmdError) (s : State) : Except Stop State :=
  if ok then .ok s else .error (.raise e)

/-- R130: counts the byte at RD_PTR. -/
def countByte (s : State) : State :=
  advanceRdPtr { s with eng := { s.eng with freq := freqBump s.eng.freq (srcAtRdPtr s) } }

/-- R130: counts the next `n` bytes. -/
def countLoop : Nat → State → State
  | 0, s => s
  | n + 1, s => countLoop n (countByte s)

/-- R236, R272, R130: the capacity check, the frequency pass, and the read pointer back at 0. -/
def phaseCFreq (s : State) : Except Stop State := do
  let s ← check (decide (s.latch.srcLen ≤ s.params.srcMax)) .sourceUnreadable s
  let s := countLoop s.latch.srcLen.toNat { s with eng := { s.eng with freq := freqZero, rdPtr := 0#32 } }
  return { s with eng := { s.eng with rdPtr := 0#32 } }.enter .cBuild

/-- R133, R134, R136: the queue, the tree, and the single-symbol check. -/
def phaseCBuild (s : State) : Except Stop State :=
  match treeBuild (pqFill s.eng.freq) with
  | none => .error (.internal .emptyQueue)
  | some q => do
    let s := { s with eng := { s.eng with queue := q, root := q.head? } }
    let s ← check (!(isSingleLeaf s.eng.root && s.latch.degen)) .degenerateAlphabet s
    return s.enter .cCodes

/-- R137, R138: the code book. -/
def phaseCCodes (s : State) : Except Stop State :=
  .ok ({ s with eng := { s.eng with code := codeBook s.eng.root } }.enter .cPrefix)

/-- R232: the magic and the placeholder header. -/
def phaseCPrefix (s : State) : Except Stop State := do
  let s ← dstPutAll [magic0, magic1, placeholder, placeholder] { s with eng := { s.eng with wrPtr := 0#32 } }
  return s.enter .cTree

/-- R170, R171: the tree stream; its length is tree_size. -/
def phaseCTree (s : State) : Except Stop State := do
  let stream := serialize s.eng.root
  let s ← dstPutAll stream s
  return { s with eng := { s.eng with treeSize := BitVec.ofNat 13 stream.length } }.enter .cPack

/-- R200: the payload and the garbage count. -/
def phaseCPack (s : State) : Except Stop State := do
  let s ← packLoop s.latch.srcLen.toNat { s with eng := { s.eng with acc := 0#8, nacc := 0#4, rdPtr := 0#32 } }
  let s ← packFlush s
  return s.enter .cPatch

/-- R232, R239: the header back-patch, which leaves WR_PTR alone, and success with the container's length. -/
def phaseCPatch (s : State) : Except Stop State := do
  let h := headerPack s.eng.garbage s.eng.treeSize
  let s ← dstWrite 2 (headerHigh h) s
  let s ← dstWrite 3 (headerLow h) s
  return completeOk s.eng.wrPtr h s

/-- R231, R233, R274: the header, and the check that its tree field lies inside the container. -/
def takeHeader (g : BitVec 3) (ts : BitVec 13) (s : State) : Except Stop State := do
  let s ← check (decide (containerPrefix + ts.toNat ≤ s.latch.srcLen.toNat)) .corruptTree s
  return { s with eng := { s.eng with garbage := g, treeSize := ts, budget := ts, rdPtr := BitVec.ofNat 32 containerPrefix } }.enter .dTree

/-- R237, R233, R272: the length checks, then the header. -/
def phaseDHdr (s : State) : Except Stop State := do
  let s ← check (decide (s.latch.srcLen ≤ s.params.srcMax)) .sourceUnreadable s
  let s ← check (decide (containerPrefix ≤ s.latch.srcLen.toNat)) .sourceUnreadable s
  takeHeader (headerUnpack (s.srcRead 2) (s.srcRead 3)).1 (headerUnpack (s.srcRead 2) (s.srcRead 3)).2 s

/-- R174: the tree field; an empty field is the empty tree, and a tree that ends before its budget is corrupt. -/
def readTree (s : State) : Except Stop State :=
  let s := { s with eng := { s.eng with root := none, stack := [] } }
  if s.eng.treeSize = 0#13 then .ok s
  else do
    let s ← deserLoop s.eng.treeSize.toNat s
    check (decide (s.eng.budget = 0#13)) .corruptTree s

/-- R174, R233: the tree and the single-symbol check. -/
def phaseDTree (s : State) : Except Stop State := do
  let s ← readTree s
  let s ← check (!(isSingleLeaf s.eng.root && s.latch.degen)) .degenerateAlphabet s
  return s.enter .dUnpack

/-- R203: the payload bit count, with the unpacker's registers at the payload's start. -/
def startUnpack (s : State) : Except Stop State :=
  match unpackBitCount s.latch.srcLen.toNat s.eng.garbage.toNat s.eng.treeSize.toNat with
  | none => .error (.raise .corruptPayload)
  | some n => .ok { s with eng := { s.eng with
      bitsLeft := BitVec.ofNat 35 n
      bitIdx := 0#3
      cur := s.eng.root
      mid := false
      rdPtr := BitVec.ofNat 32 (containerPrefix + s.eng.treeSize.toNat)
      wrPtr := 0#32 } }

/-- R204–R206: the payload through the tree. -/
def unpackPayload (s : State) : Except Stop State :=
  match s.eng.root with
  | none => check (decide (s.eng.bitsLeft = 0#35)) .corruptTree s
  | some (.leaf v _) => emitLoop v s.eng.bitsLeft.toNat s
  | some (.node _ _ _) => unpackLoop s.eng.bitsLeft.toNat s

/-- R203–R207, R239: the payload, the cut-short check, and success with the decoded length. -/
def phaseDUnpack (s : State) : Except Stop State := do
  let s ← startUnpack s
  let s ← unpackPayload s
  let s ← check (!s.eng.mid) .corruptPayload s
  return completeOk s.eng.wrPtr (headerPack s.eng.garbage s.eng.treeSize) s

/-- R22, R232, R233, R238: what the engine does in each phase. -/
def runPhase (s : State) : Except Stop State :=
  match s.phase with
  | .idle => .ok s
  | .cFreq => phaseCFreq s
  | .cBuild => phaseCBuild s
  | .cCodes => phaseCCodes s
  | .cPrefix => phaseCPrefix s
  | .cTree => phaseCTree s
  | .cPack => phaseCPack s
  | .cPatch => phaseCPatch s
  | .dHdr => phaseDHdr s
  | .dTree => phaseDTree s
  | .dUnpack => phaseDUnpack s
  | .xBad => .error (.raise .badCommand)

/-- One step of the engine. A phase that ends well goes on to the next after a fresh number of host accesses (R308); a raised
error goes to error completion (R270, R279); a command during which SRC was written completes with draws (R305). -/
def engineStep (s : State) : Host.Outcome State Fault Refusal :=
  if s.tainted then .next (completeTainted s)
  else
    match runPhase s with
    | .ok s' => .next (if s'.busy then s'.drawStall else s')
    | .error (.raise e) => .next (completeError e s)
    | .error (.internal f) => .fault f

/-- `n` engine steps in a row, with no host access between them. -/
def engineRun : Nat → State → Host.Outcome State Fault Refusal
  | 0, s => .next s
  | n + 1, s =>
    match engineStep s with
    | .next s' => engineRun n s'
    | .fault f => .fault f
    | .refused r => .refused r

end Sys2Proof.Machine
end

