-- ==== Sys2Proof/Machine/HostPort.lean ====
section
/-! DEFINITION. The host's accesses (30_encoding.md R103, R104; 20_memory.md R64–R70; 70_reset_and_hazards.md R300–R307), the
pseudo-instructions, and who moves next. -/

namespace Sys2Proof.Machine

/-- R9, R66, R234: a host write of a command word to CMD runs the command it decodes to. -/
def writeCmd (w : Word) (s : State) : Host.Outcome State Fault Refusal :=
  exec (decode w) s

/-- R23, R66: a host write of a register. -/
def hostWriteReg (r : RegNum) (v : Word) (s : State) : Host.Outcome State Fault Refusal :=
  if r = regCmd then writeCmd v s else .next (s.regWrite r v)

/-- R39, R70, R282, R305: a host write of SRC[i]. Beyond the capacity it is ignored, in every state. While a command runs it is a
host-protocol violation: the byte is stored, the sticky fault is set, and the command's results become draws. -/
def hostWriteSrc (i : Nat) (b : Byte) (s : State) : State :=
  if i < s.params.srcMax.toNat then
    { s with src := Memory.store s.src i b, fault := s.fault || s.busy, tainted := s.tainted || s.busy }
  else s

/-- R23, R66: a host read of a register, which has no side effect on a register or a buffer. A read of STATUS with DONE = 1 is the
synchronisation point of R72 and R73: from it on the host's reads of DST see the command's result. -/
def hostReadReg (r : RegNum) (s : State) : State :=
  { s with rdata := s.regRead r, unread := s.unread && !(r == regStatus && s.status.done) }

/-- R39, R70: a host read of SRC[i]; beyond the capacity it returns 0x00. -/
def hostReadSrc (i : Nat) (s : State) : State :=
  { s with rdata := if i < s.params.srcMax.toNat then (s.srcRead i).setWidth 32 else 0#32 }

/-- R40, R70, R72, R307: a host read of DST[i]; beyond the capacity it returns 0x00, and from a command's acceptance until the host
has read STATUS with DONE = 1 an unspecified byte, drawn anew at each read (R72 item 3; R307 says so for BUSY = 1
alone: DEDUCED, log 22). -/
def hostReadDst (i : Nat) (s : State) : State :=
  if i < s.params.dstMax.toNat then
    if s.busy || s.unread then { s with rdata := (Config.freeBusyRead s.draws).setWidth 32, draws := s.draws + 1 }
    else { s with rdata := (s.dstRead i).setWidth 32 }
  else { s with rdata := 0#32 }

/-- R70, D36: a host write of DST is ignored. -/
def hostWriteDst (_i : Nat) (_b : Byte) (s : State) : State :=
  s

/-- Puts items before the host's other pending ones. -/
def State.hostFirst (s : State) (items : List HostItem) : State :=
  { s with host := items ++ s.host }

/-- R104 `wait_done`: reads STATUS, and does so again while DONE = 0. -/
def hostWaitDone (s : State) : State :=
  let t := hostReadReg regStatus s
  if t.rdata.getLsbD 1 then t else t.hostFirst [.waitDone]

/-- R104 `copy_dst_to_src`: reads DST_LEN as n; a copy of each byte below n and a write of n to SRC_LEN follow. -/
def hostCopy (s : State) : State :=
  let t := hostReadReg regDstLen s
  t.hostFirst ((List.range t.rdata.toNat).map .copyByte ++ [.wreg regSrcLen t.rdata])

/-- R104: reads DST[i] as v; a write of v to SRC[i] follows. -/
def hostCopyByte (i : Nat) (s : State) : State :=
  let t := hostReadDst i s
  t.hostFirst [.wsrc i (t.rdata.setWidth 8)]

/-- R103, R104, R300: one item of the host's script. -/
def hostAccess (a : HostItem) (s : State) : Host.Outcome State Fault Refusal :=
  match a with
  | .wreg r v => hostWriteReg r v s
  | .rreg r => .next (hostReadReg r s)
  | .wsrc i b => .next (hostWriteSrc i b s)
  | .rsrc i => .next (hostReadSrc i s)
  | .rdst i => .next (hostReadDst i s)
  | .wdst i b => .next (hostWriteDst i b s)
  | .rst => .next (resetSignal s)
  | .waitDone => .next (hostWaitDone s)
  | .copyDstToSrc => .next (hostCopy s)
  | .copyByte i => .next (hostCopyByte i s)

/-! ### Scripts -/

/-- R104 `compress`, `decompress`, `nop`. -/
def scriptCompress : List HostItem := [.wreg regCmd 1#32]
def scriptDecompress : List HostItem := [.wreg regCmd 2#32]
def scriptNop : List HostItem := [.wreg regCmd 0#32]

/-- R104 `load_src`. -/
def scriptLoadSrc (bytes : Bytes) : List HostItem :=
  (List.range bytes.length).map (fun i => HostItem.wsrc i (bytes.getD i 0#8))
    ++ [.wreg regSrcLen (BitVec.ofNat 32 bytes.length)]

/-! ### Who moves next -/

/-- R308, P5: the engine moves while a command runs once the drawn number of host accesses has gone by, and at once when the host
has nothing to do. -/
def State.engineTurn (s : State) : Bool :=
  s.busy && (s.host.isEmpty || s.stall == 0)

/-- The host's next item is taken off its script; while a command runs, one host access less comes before the engine's step. -/
def State.takeItem (s : State) (rest : List HostItem) : State :=
  { s with host := rest, stall := s.stall - 1 }

/-- R20, R239, R300: one step of the block: the engine's, or the host's next access, or nothing when the block waits for a command
and the host is silent. -/
def blockStep (s : State) : Host.Outcome State Fault Refusal :=
  if s.engineTurn then engineStep s
  else
    match s.host with
    | [] => .next s
    | a :: rest => hostAccess a (s.takeItem rest)

/-- The host's next access is a write of the command word `w` to CMD, and it comes before the engine's next step. -/
def State.withCommand (s : State) (w : Word) : State :=
  { s with host := .wreg regCmd w :: s.host, stall := if s.busy then max s.stall 1 else s.stall }

end Sys2Proof.Machine
end

