-- ==== Sys2Proof/Machine/Step.lean ====
section
/-! DEFINITION. The step of the machine, and the placing of a command where the next step takes it. -/

namespace Sys2Proof.Machine

/-- One step: the engine's, or the host's next access (Machine/HostPort.lean). -/
def step (s : State) : Host.Outcome State Fault Refusal :=
  blockStep s

/-- The block fetches no instruction (R9, R22): a command reaches it as the host's write to CMD, so the word goes to the head of the
host's pending accesses (log 8). A command is one 32-bit word; `nbits` only says how many of its low bits the table fixes. -/
def State.withFetchWord (s : State) (_nbits w : Nat) : State :=
  s.withCommand (BitVec.ofNat 32 w)

end Sys2Proof.Machine
end

