-- ==== Sys2Proof/Safety.lean ====
section
/-! DEFINITION. The terms claims are stated in: what trees and queues hold, the result a command owes the host, and the invariants
of the machine. -/

namespace Sys2Proof.Machine

/-! ### Trees and queues -/

/-- The leaf values of a tree, left to right. -/
def HuffTree.values : HuffTree → Bytes
  | .leaf v _ => [v]
  | .node _ l r => l.values ++ r.values

/-- The number of internal nodes of a tree. -/
def HuffTree.internals : HuffTree → Nat
  | .leaf _ _ => 0
  | .node _ l r => l.internals + r.internals + 1

/-- The depth of the deepest leaf. -/
def HuffTree.height : HuffTree → Nat
  | .leaf _ _ => 0
  | .node _ l r => max l.height r.height + 1

/-- R135, R36: every internal node's frequency is the exact sum of its children's, and every leaf's is given by `count`. -/
def HuffTree.weighted (count : Byte → Nat) : HuffTree → Prop
  | .leaf v f => f.toNat = count v
  | .node f l r => f.toNat = l.freq.toNat + r.freq.toNat ∧ l.weighted count ∧ r.weighted count

/-- R176: the tree as it is parsed back, with frequency 0 everywhere. -/
def HuffTree.unweighted : HuffTree → HuffTree
  | .leaf v _ => .leaf v 0#32
  | .node _ l r => .node 0#32 l.unweighted r.unweighted

/-- R137: the path `c` from the root of a tree ends at a leaf of value `v`; 0 goes left and 1 goes right. -/
def HuffTree.leadsTo : HuffTree → Bits → Byte → Prop
  | .leaf v _, c, b => c = [] ∧ b = v
  | .node _ _ _, [], _ => False
  | .node _ l r, bit :: c, b => if bit then r.leadsTo c b else l.leadsTo c b

/-- R132: a queue in ascending order of frequency. -/
def pqSorted (q : List HuffTree) : Prop :=
  q.Pairwise (fun a b => a.freq ≤ b.freq)

/-- R98: the byte string is the stream of one node, the tree it stands for. -/
inductive TreeStream : Bytes → HuffTree → Prop where
  /-- `MARK node node` -/
  | node {l r : Bytes} {tl tr : HuffTree} (hl : TreeStream l tl) (hr : TreeStream r tr) :
      TreeStream (mark :: (l ++ r)) (.node 0#32 tl tr)
  /-- `ESC b`, for any byte -/
  | escaped (b : Byte) : TreeStream [esc, b] (.leaf b 0#32)
  /-- `b`, for a byte that is neither MARK nor ESC -/
  | plain (b : Byte) (hm : b ≠ mark) (he : b ≠ esc) : TreeStream [b] (.leaf b 0#32)

/-- R100: the number of leaves whose value is 0x2A or 0x5C. -/
def HuffTree.escaped (t : HuffTree) : Nat :=
  t.values.countP (fun v => v = mark ∨ v = esc)

/-! ### Checks -/

/-- R278: the error of the first check that fails, in the order of the list. -/
def firstError (checks : List (Bool × CmdError)) : Option CmdError :=
  (checks.find? Prod.fst).map Prod.snd

/-- The error of a result, if it is one. -/
def errorOf {α : Type} : Except CmdError α → Option CmdError
  | .error e => some e
  | .ok _ => none

/-- R136: exactly one distinct byte value. -/
def oneSymbol (src : Bytes) : Bool :=
  src.dedup.length == 1

/-- R204–R206: the bytes a payload decodes to, and whether it ends inside a code. -/
def decodePayload : Option HuffTree → Bits → Bytes × Bool
  | none, _ => ([], false)
  | some (.leaf v _), bits => (List.replicate bits.length v, false)
  | some (.node _ l r), bits => unpackBits l r l r false bits

/-! ### Buffers -/

/-- DST[0..n) as a byte string. -/
def State.dstBytes (s : State) (n : Nat) : Bytes :=
  (List.range n).map s.dstRead

/-- DST holds the determined bytes `bytes` from index 0 on. -/
def State.dstHolds (s : State) (bytes : Bytes) : Prop :=
  ∀ i < bytes.length, Memory.lookup s.dst i = bytes[i]?

/-! ### What a command owes the host -/

/-- R236–R238: the result of the running command as a function of the latched operands, SRC and the capacities. -/
def State.commandResult (s : State) : Except CmdError (Bytes × BitVec 16) :=
  if s.latch.op = 1#4 then compressBytes s.input s.latch.degen s.params.srcMax.toNat s.params.dstMax.toNat
  else if s.latch.op = 2#4 then decompressBytes s.input s.latch.degen s.params.srcMax.toNat s.params.dstMax.toNat
  else .error .badCommand

/-- R239, R279: the idle state `t` shows the result `r` of a command that ran from the state `s`. -/
structure ShowsResult (s t : State) (r : Except CmdError (Bytes × BitVec 16)) : Prop where
  idle : t.phase = .idle
  done : t.status.done = true
  drop : t.status.drop = s.status.drop
  /-- R72: the DONE read that the command's acceptance made owed is still owed. -/
  unread : t.unread = s.unread
  ok : ∀ out h, r = .ok (out, h) →
    t.status.err = false ∧ t.errcode = 0#4 ∧ t.dstLen.toNat = out.length ∧ t.hdr = h ∧
      t.dstBytes out.length = out ∧ (∀ i, out.length ≤ i → t.dstRead i = s.dstRead i)
  error : ∀ e, r = .error e →
    t.status.err = true ∧ t.errcode = e.code ∧ t.dstLen = 0#32 ∧ t.hdr = 0#16 ∧
      (e = .badCommand → t.dst = s.dst ∧ t.dstGen = s.dstGen) ∧
      (e ≠ .badCommand → t.dst = [] ∧ s.draws ≤ t.dstGen)

/-- R239: what neither a command nor its completion changes. -/
structure KeepsHostSide (s t : State) : Prop where
  params : t.params = s.params
  src : t.src = s.src
  srcLen : t.srcLen = s.srcLen
  degen : t.degen = s.degen
  fault : t.fault = s.fault
  host : t.host = s.host
  rdata : t.rdata = s.rdata

/-! ### Invariants -/

/-- R22, R234: the phase belongs to the latched opcode. -/
def phaseOfOp (p : Phase) (op : BitVec 4) : Prop :=
  match p with
  | .idle => True
  | .cFreq | .cBuild | .cCodes | .cPrefix | .cTree | .cPack | .cPatch => op = 1#4
  | .dHdr | .dTree | .dUnpack => op = 2#4
  | .xBad => 3 ≤ op.toNat

/-- R234: the phase an accepted opcode enters. -/
def firstPhase (op : BitVec 4) : Phase :=
  if op = 1#4 then .cFreq else if op = 2#4 then .dHdr else .xBad

/-- What holds of the registers, flags and memories in every state that follows reset. -/
structure State.Inv (s : State) : Prop where
  /-- R5: both capacities are at least 1. -/
  params : s.params.srcMax ≠ 0#32 ∧ s.params.dstMax ≠ 0#32
  /-- SRC and DST are in canonical form and inside their capacities (R39, R40). -/
  srcWf : Memory.wf s.src
  srcBelow : Memory.below s.src s.params.srcMax.toNat
  dstWf : Memory.wf s.dst
  dstBelow : Memory.below s.dst s.params.dstMax.toNat
  /-- R25: BUSY and DONE are never both 1. -/
  busyNotDone : s.busy = true → s.status.done = false
  /-- R25, R26, R28, R29: without DONE, and so while BUSY, ERR, ERRCODE, DST_LEN and HDR are 0. -/
  notDone : s.status.done = false → s.status.err = false ∧ s.errcode = 0#4 ∧ s.dstLen = 0#32 ∧ s.hdr = 0#16
  /-- R25, R26: ERR says whether ERRCODE is an error. -/
  errCode : s.status.err = true ↔ s.errcode ≠ 0#4
  /-- R28, R29: after an error DST_LEN and HDR are 0, unless the host broke its duty (R282). -/
  errEmpty : s.fault = false → s.status.err = true → s.dstLen = 0#32 ∧ s.hdr = 0#16
  /-- R271: codes 7 to 15 are never produced, unless the host broke its duty. -/
  codeRange : s.fault = false → s.errcode.toNat ≤ 6
  /-- R25: DROP is 1 only while a command runs or after it. -/
  drop : s.status.drop = true → s.busy = true ∨ s.status.done = true
  /-- R305: a command's results are in doubt only while it runs, and the sticky fault records it. -/
  tainted : s.tainted = true → s.busy = true ∧ s.fault = true
  /-- R72: while a command runs the host has not read STATUS with DONE = 1. -/
  unread : s.busy = true → s.unread = true
  /-- The model's: the bytes of DST that are unspecified come from a draw already taken. -/
  dstGen : s.dstGen < s.draws
  /-- R34, R37: the tables have an entry for every byte value. -/
  freq : s.eng.freq.length = 256
  code : s.eng.code.length = 256
  /-- R22, R234. -/
  op : phaseOfOp s.phase s.latch.op

/-- R232: what COMPRESS has established once it is past the frequency pass and the single-symbol check. -/
structure CompressGoing (s : State) : Prop where
  fitsSrc : s.latch.srcLen ≤ s.params.srcMax
  severalSymbols : (isSingleLeaf (treeOf s.input) && s.latch.degen) = false

/-- R232: the sink so far: `bytes` from index 0, WR_PTR behind them. -/
structure SinkAt (s : State) (bytes : Bytes) : Prop where
  holds : s.dstHolds bytes
  wrPtr : s.eng.wrPtr.toNat = bytes.length
  room : bytes.length ≤ s.params.dstMax.toNat

/-- D19: the first four container bytes until the back-patch. -/
def placeholderPrefix : Bytes :=
  [magic0, magic1, placeholder, placeholder]

/-- R232, R233: what the internal structures hold at the start of each phase, as long as the host has not written SRC while the
command runs. -/
def State.DataInv (s : State) : Prop :=
  s.tainted = false →
    match s.phase with
    | .idle | .dHdr | .xBad => True
    | .cFreq => s.eng.queue = []
    | .cBuild => s.latch.srcLen ≤ s.params.srcMax ∧ s.eng.freq = freqCount s.input
    | .cCodes => CompressGoing s ∧ s.eng.root = treeOf s.input
    | .cPrefix => CompressGoing s ∧ s.eng.root = treeOf s.input ∧ s.eng.code = codeBook (treeOf s.input)
    | .cTree => CompressGoing s ∧ s.eng.root = treeOf s.input ∧ s.eng.code = codeBook (treeOf s.input) ∧
        SinkAt s placeholderPrefix
    | .cPack => CompressGoing s ∧ s.eng.code = codeBook (treeOf s.input) ∧
        s.eng.treeSize = BitVec.ofNat 13 (serialize (treeOf s.input)).length ∧
        SinkAt s (placeholderPrefix ++ serialize (treeOf s.input))
    | .cPatch => CompressGoing s ∧
        s.eng.treeSize = BitVec.ofNat 13 (serialize (treeOf s.input)).length ∧
        s.eng.garbage = BitVec.ofNat 3 (garbageCount (inputBits s.input).length) ∧
        SinkAt s (placeholderPrefix ++ serialize (treeOf s.input) ++ packBytes (inputBits s.input))
    | .dTree => s.latch.srcLen ≤ s.params.srcMax ∧ containerPrefix + s.eng.treeSize.toNat ≤ s.latch.srcLen.toNat ∧
        headerPack s.eng.garbage s.eng.treeSize = headerOfBytes (s.srcRead 2) (s.srcRead 3) ∧
        s.eng.budget = s.eng.treeSize ∧ s.eng.rdPtr.toNat = containerPrefix
    | .dUnpack => s.latch.srcLen ≤ s.params.srcMax ∧ containerPrefix + s.eng.treeSize.toNat ≤ s.latch.srcLen.toNat ∧
        headerPack s.eng.garbage s.eng.treeSize = headerOfBytes (s.srcRead 2) (s.srcRead 3) ∧
        deserializeTree ((s.input.drop containerPrefix).take s.eng.treeSize.toNat) = some s.eng.root ∧
        (isSingleLeaf s.eng.root && s.latch.degen) = false

/-- R232, R233, R238: the phases that are left, the present one included. -/
def Phase.left : Phase → Nat
  | .idle => 0
  | .cFreq => 7
  | .cBuild => 6
  | .cCodes => 5
  | .cPrefix => 4
  | .cTree => 3
  | .cPack => 2
  | .cPatch => 1
  | .dHdr => 3
  | .dTree => 2
  | .dUnpack => 1
  | .xBad => 1

/-- R22, R232, R233: the phase that follows when a phase ends well. -/
def Phase.next : Phase → Phase
  | .idle => .idle
  | .cFreq => .cBuild
  | .cBuild => .cCodes
  | .cCodes => .cPrefix
  | .cPrefix => .cTree
  | .cTree => .cPack
  | .cPack => .cPatch
  | .cPatch => .idle
  | .dHdr => .dTree
  | .dTree => .dUnpack
  | .dUnpack => .idle
  | .xBad => .idle

end Sys2Proof.Machine
end

