-- ==== Sys2Proof/Certificates/Slice0/Obligations.lean ====
section
/-! DEFINITION. The obligations: what the provers are to show of the model, each from the rules of spec/ its docstring names. -/

open Sys2Proof Sys2Proof.Machine

/-! ### Command words -/

/-- R91, R92, spec/opcode_table.json: command words written out by hand and the commands they stand for, ignored bits set among
them. -/
def Obligations.TableRowWordsDecode : Prop :=
  decode 0x00000000#32 = .nop ∧ decode 0xFFFFFFF0#32 = .nop ∧
  decode 0x00000001#32 = .compress ∧ decode 0xABCDEF01#32 = .compress ∧
  decode 0x00000002#32 = .decompress ∧ decode 0x80000002#32 = .decompress ∧
  decode 0x00000003#32 = .reserved3 ∧ decode 0x00000013#32 = .reserved3 ∧
  decode 0x00000004#32 = .reserved4to7 4#4 ∧ decode 0x00000007#32 = .reserved4to7 7#4 ∧
  decode 0x00000008#32 = .reserved8toF 8#4 ∧ decode 0xFFFFFFFF#32 = .reserved8toF 15#4

/-- R91, spec/opcode_table.json: a word decodes to a command of a row exactly when it carries that row's mask and pattern. -/
def Obligations.DecoderAgreesWithOpcodeTable : Prop :=
  ∀ (w : Word) (row : OpcodeRow), row ∈ opcodeTable → (w &&& row.mask = row.pattern ↔ (decode w).mnemonic = row.mnemonic)

/-- R90–R92: every word decodes to a well-formed command, and bits 31:4 select nothing: each well-formed command comes back from its
encoding with any such bits, and each word is the encoding of its command with its own such bits. -/
def Obligations.DecodeEncodeRoundTrip : Prop :=
  (∀ (i : Instr) (ignored : BitVec 28), i.wellFormed = true → decode (encodeWith ignored i) = i) ∧
  (∀ w : Word, (decode w).wellFormed = true ∧ encodeWith (w.extractLsb' 4 28) (decode w) = w) ∧
  (∀ (w : Word) (ignored : BitVec 28), decode (ignored ++ w.extractLsb' 0 4) = decode w)

/-! ### Commands -/

/-- R235: NOP changes nothing, whether a command runs or not, and whatever bits 31:4 of its word hold. -/
def Obligations.NopHasNoEffect : Prop :=
  (∀ s : State, exec .nop s = .next s) ∧
  (∀ (w : Word) (s : State), w.extractLsb' 0 4 = 0#4 → hostAccess (.wreg 0 w) s = .next s)

/-- R234: what a host write of a word to CMD does, in its three cases. The model's own counters `stall` and `draws` are left open (log
3, log 5); that acceptance empties the queue (R35) is log 23, and that it makes a DONE read owed (R72) is log 22. -/
def Obligations.CommandAcceptance : Prop :=
  ∀ (w : Word) (s : State),
    (w.extractLsb' 0 4 = 0#4 → hostAccess (.wreg 0 w) s = .next s) ∧
    (w.extractLsb' 0 4 ≠ 0#4 → s.busy = true →
      hostAccess (.wreg 0 w) s = .next { s with status := { s.status with drop := true } }) ∧
    (w.extractLsb' 0 4 ≠ 0#4 → s.busy = false →
      ∃ t, hostAccess (.wreg 0 w) s = .next t ∧ t.busy = true ∧
        t = { s with
          latch := { op := w.extractLsb' 0 4, srcLen := s.srcLen, degen := s.degen }
          status := { done := false, err := false, drop := false }
          errcode := 0#4
          dstLen := 0#32
          hdr := 0#16
          phase := if w.extractLsb' 0 4 = 1#4 then .cFreq else if w.extractLsb' 0 4 = 2#4 then .dHdr else .xBad
          eng := { s.eng with queue := [] }
          unread := true
          tainted := false
          stall := t.stall
          draws := t.draws })

/-- R33, R234, R236–R238: every command but NOP, given to an idle block, is accepted: it latches its operands, clears the result
registers and leaves the rest of the machine as it was, but that the queue is emptied (R35, log 23) and a DONE read is owed (R72, log
22). -/
def Obligations.EveryCommandStarts : Prop :=
  ∀ (i : Instr) (s : State), i.wellFormed = true → i ≠ .nop → s.busy = false →
    ∃ t, exec i s = .next t ∧ t.busy = true ∧ t.regRead 1 = 1#32 ∧ t.regRead 2 = 0#32 ∧ t.regRead 4 = 0#32 ∧ t.regRead 5 = 0#32 ∧
      t = { s with
        latch := { op := i.op, srcLen := s.srcLen, degen := s.degen }
        status := { done := false, err := false, drop := false }
        errcode := 0#4
        dstLen := 0#32
        hdr := 0#16
        phase := firstPhase i.op
        eng := { s.eng with queue := [] }
        unread := true
        tainted := false
        stall := t.stall
        draws := t.draws }

/-- R22, R238, R277: a reserved opcode given to an idle block is accepted, and the very next step completes it with BadCommand:
DST and SRC are untouched. That no host access comes between is read from R22 and R238 (DEDUCED, log 13). The model's choices, not
R238's: the emptied queue (log 23), the latch keeping its operands after completion (log 21), the unseen datapath keeping its
values (log 10); the DONE read owed is log 22. -/
def Obligations.ReservedOpcodeCompletes : Prop :=
  ∀ (i : Instr) (s : State), i.wellFormed = true → 3 ≤ i.op.toNat → s.busy = false →
    ∃ t u, exec i s = .next t ∧ step t = .next u ∧
      u = { s with
        latch := { op := i.op, srcLen := s.srcLen, degen := s.degen }
        status := { done := true, err := true, drop := false }
        errcode := 6#4
        dstLen := 0#32
        hdr := 0#16
        phase := .idle
        eng := { s.eng with queue := [] }
        unread := true
        tainted := false
        stall := u.stall }

/-- R304: while a command runs, every command but NOP only sets DROP, and NOP does not even that; the running command owes the same
result as before. -/
def Obligations.BusyCommandIsDropped : Prop :=
  ∀ (i : Instr) (s : State), i.wellFormed = true → s.busy = true →
    ∃ t, exec i s = .next t ∧ t.commandResult = s.commandResult ∧
      t.regRead 1 = (if i = .nop then s.regRead 1 else s.regRead 1 ||| 8#32) ∧
      t = { s with status := { s.status with drop := if i = .nop then s.status.drop else true } }

/-- R236, with R232 and R239: COMPRESS given to an idle block is accepted, and the engine brings it to completion in its seven
phases (that one engine step runs one phase is the model's choice, log 9) with the result of the pure function: the checks in
their order, then the container of magic, header, tree stream and payload. -/
def Obligations.CompressResult : Prop :=
  ∀ s : State, s.Inv → s.busy = false →
    ∃ t u, exec .compress s = .next t ∧ engineRun 7 t = .next u ∧ KeepsHostSide s u ∧
      ShowsResult t u
        (let src := s.srcBytes s.srcLen.toNat
         let bits := codeBits (codeBook (treeOf src)) src
         let stream := serialize (treeOf src)
         let h := headerPack (BitVec.ofNat 3 (garbageCount bits.length)) (BitVec.ofNat 13 stream.length)
         let c := [0x41#8, 0x42#8, h.extractLsb' 8 8, h.extractLsb' 0 8] ++ stream ++ packBytes bits
         if s.params.srcMax.toNat < src.length then .error .sourceUnreadable
         else if oneSymbol src && s.degen then .error .degenerateAlphabet
         else if s.params.dstMax.toNat < c.length then .error .sinkUnwritable
         else .ok (c, h))

/-- R237, with R233, R239, R207 and R278: DECOMPRESS given to an idle block is accepted, and the engine brings it to completion in its
three phases (that one engine step runs one phase is the model's choice, log 9) with the error of the first check that fails, or else
with the bytes the payload's 8 (F − 4 − ts) − g bits decode to and the header of bytes 2 and 3. -/
def Obligations.DecompressResult : Prop :=
  ∀ s : State, s.Inv → s.busy = false →
    ∃ t u, exec .decompress s = .next t ∧ engineRun 3 t = .next u ∧ KeepsHostSide s u ∧
      ShowsResult t u
        (let src := s.srcBytes s.srcLen.toNat
         let h := headerOfBytes (src.getD 2 0#8) (src.getD 3 0#8)
         let g := (h.extractLsb' 13 3).toNat
         let ts := (h.extractLsb' 0 13).toNat
         let field := deserializeTree ((src.drop 4).take ts)
         let root := field.getD none
         let nbits := 8 * (src.length - 4 - ts) - g
         let decoded := decodePayload root ((payloadBits (src.drop (4 + ts))).take nbits)
         if s.params.srcMax.toNat < src.length then .error .sourceUnreadable
         else if src.length < 4 then .error .sourceUnreadable
         else if src.length < 4 + ts then .error .corruptTree
         else if field = none then .error .corruptTree
         else if isSingleLeaf root && s.degen then .error .degenerateAlphabet
         else if 8 * (src.length - 4 - ts) < g then .error .corruptPayload
         else if ts = 0 ∧ 0 < nbits then .error .corruptTree
         else if s.params.dstMax.toNat < decoded.1.length then .error .sinkUnwritable
         else if decoded.2 = true then .error .corruptPayload
         else .ok (decoded.1, h))

/-- R239: the engine step (one phase, the model's choice, log 9) that ends an undoubted command shows the host the result the
command owes: on success DST[0..len) holds it and the rest of DST is unchanged, on an error the registers say so; SRC, SRC_LEN and
CFG are unchanged. That the latch keeps its operands after completion is the model's choice (log 21). -/
def Obligations.CompletionShowsResult : Prop :=
  ∀ s t : State, s.Inv → s.DataInv → s.tainted = false → s.busy = true → engineStep s = .next t → t.busy = false →
    ShowsResult s t s.commandResult ∧ KeepsHostSide s t ∧ t.latch = s.latch

/-- R279, R271: an error raised by a phase completes the command, in the same engine step (one phase, the model's choice, log 9),
whatever the state: STATUS, ERRCODE, DST_LEN and HDR say so, every byte of DST becomes a draw of its own (but for BadCommand,
which leaves DST alone), and the rest is unchanged, the engine's unseen datapath left open (log 10). That the latch is among what
is unchanged is the model's choice (log 21). -/
def Obligations.ErrorCompletion : Prop :=
  ∀ (s : State) (e : CmdError), s.tainted = false → runPhase s = .error (.raise e) →
    ∃ t, engineStep s = .next t ∧
      t = { s with
        eng := t.eng
        status := { s.status with done := true, err := true }
        errcode := match e with
          | .sourceUnreadable => 1#4
          | .sinkUnwritable => 2#4
          | .corruptTree => 3#4
          | .degenerateAlphabet => 4#4
          | .corruptPayload => 5#4
          | .badCommand => 6#4
        dstLen := 0#32
        hdr := 0#16
        phase := .idle
        dst := if e = .badCommand then s.dst else []
        dstGen := if e = .badCommand then s.dstGen else s.draws
        draws := if e = .badCommand then s.draws else s.draws + 1 }

/-- R278: the error of each command is that of the first check that fails, the checks in the rule's order. -/
def Obligations.ErrorPriority : Prop :=
  (∀ (src : Bytes) (degen : Bool) (srcMax dstMax : Nat), srcMax < 2 ^ 32 →
    errorOf (compressBytes src degen srcMax dstMax) =
      firstError
        [(decide (srcMax < src.length), .sourceUnreadable),
         (oneSymbol src && degen, .degenerateAlphabet),
         (decide (dstMax < (container src).length), .sinkUnwritable)]) ∧
  (∀ (src : Bytes) (degen : Bool) (srcMax dstMax : Nat),
    errorOf (decompressBytes src degen srcMax dstMax) =
      let h := headerOfBytes (src.getD 2 0#8) (src.getD 3 0#8)
      let g := (h.extractLsb' 13 3).toNat
      let ts := (h.extractLsb' 0 13).toNat
      let root := deserializeTree ((src.drop 4).take ts)
      let nbits := 8 * (src.length - 4 - ts) - g
      let decoded := decodePayload (root.getD none) ((payloadBits (src.drop (4 + ts))).take nbits)
      firstError
        [(decide (srcMax < src.length), .sourceUnreadable),
         (decide (src.length < 4), .sourceUnreadable),
         (decide (src.length < 4 + ts), .corruptTree),
         (root.isNone, .corruptTree),
         (isSingleLeaf (root.getD none) && degen, .degenerateAlphabet),
         (decide (8 * (src.length - 4 - ts) < g), .corruptPayload),
         (decide (ts = 0 ∧ 0 < nbits), .corruptTree),
         (decide (dstMax < decoded.1.length), .sinkUnwritable),
         (decoded.2, .corruptPayload)]) ∧
  (∀ s : State, 3 ≤ s.latch.op.toNat → s.commandResult = .error .badCommand)

/-- R22, R232, R233, R238: one engine step (one phase, the model's choice, log 9) of an undoubted command goes to the phase that
follows in the command's order, or, when a check has failed, to IDLE with ERR set. -/
def Obligations.EnginePhaseOrder : Prop :=
  ∀ s t : State, s.Inv → s.DataInv → s.tainted = false → engineStep s = .next t →
    t.phase = s.phase.next ∨ (t.phase = .idle ∧ t.status.err = true)

/-- R33, R72, R304, R306, R307: no host access but a reset touches a running command: its phase, its latched operands, the engine's
structures, DST and the result registers stay, and unless the access put the result in doubt, so do SRC and the result owed. -/
def Obligations.RunningCommandUndisturbed : Prop :=
  ∀ (a : HostItem) (s t : State), s.busy = true → a ≠ .rst → hostAccess a s = .next t →
    t.phase = s.phase ∧ t.latch = s.latch ∧ t.eng = s.eng ∧ t.params = s.params ∧ t.dst = s.dst ∧ t.dstGen = s.dstGen ∧
    t.errcode = s.errcode ∧ t.dstLen = s.dstLen ∧ t.hdr = s.hdr ∧ t.status.done = s.status.done ∧ t.status.err = s.status.err ∧
    t.stall = s.stall ∧ (t.tainted = false → t.src = s.src ∧ t.commandResult = s.commandResult)

/-- R308: a running command ends after a finite number of steps of the block, whatever the host does meanwhile; and unless the host
resets the block, it ends with DONE set. How many host accesses come before an engine step is the model's free value (log 5). -/
def Obligations.CommandCompletes : Prop :=
  ∀ s : State, s.Inv → s.DataInv → s.busy = true →
    ∃ n t, Host.Core.run core n s = .next t ∧ State.busy t = false ∧ (HostItem.rst ∉ s.host → State.donePort t = true)

/-- R305, R282: a host write of SRC inside its capacity while a command runs stores its byte and sets the sticky fault; the
command's next engine step then completes it with draws for ERRCODE, DST_LEN, HDR and every byte of DST. The model's choices: that
the draws take these places and ERR follows the drawn code (log 7), that one engine step does it (log 9), and that the unseen
datapath (log 10) and the latch (log 21) keep their values. -/
def Obligations.SourceWriteWhileBusy : Prop :=
  (∀ (s : State) (i : Nat) (b : Byte), Memory.wf s.src → s.busy = true → i < s.params.srcMax.toNat →
    ∃ t, hostAccess (.wsrc i b) s = .next t ∧ t = { s with src := t.src, fault := true, tainted := true } ∧
      t.srcRead i = b ∧ ∀ j, j ≠ i → t.srcRead j = s.srcRead j) ∧
  (∀ s : State, s.tainted = true →
    ∃ t, engineStep s = .next t ∧
      t = { s with
        status := { s.status with done := true, err := Config.freeErrcode s.draws != 0#4 }
        errcode := Config.freeErrcode s.draws
        dstLen := Config.freeDstLen s.draws
        hdr := Config.freeHdr s.draws
        phase := .idle
        dst := []
        dstGen := s.draws + 1
        draws := s.draws + 2
        tainted := false })

/-- R282: no step clears the sticky fault bit, and only a host write of SRC while a command runs sets it. That a write beyond the
capacity sets nothing is read from R70 (DEDUCED, log 12). -/
def Obligations.FaultIsSticky : Prop :=
  ∀ s t : State, s.Inv → s.DataInv → step s = .next t →
    (s.fault = true → t.fault = true) ∧
    (s.fault = false → t.fault = true →
      s.busy = true ∧ ∃ i b rest, s.host = .wsrc i b :: rest ∧ i < s.params.srcMax.toNat)

/-- R241: while a command runs no other begins, and it ends only in completion, by the engine's own step, or by a step that takes the
host's reset. -/
def Obligations.OnlyResetCancels : Prop :=
  ∀ s t : State, s.Inv → s.DataInv → s.busy = true → step s = .next t →
    (t.busy = true → t.latch = s.latch) ∧
    (t.busy = false → (s.engineTurn = true ∧ t.status.done = true) ∨ (s.engineTurn = false ∧ ∃ rest, s.host = .rst :: rest))

/-! ### Host accesses -/

/-- R23–R31, R66, R281: a register read returns the register and changes no register and no byte of a buffer; what each register reads
as; the output port `done`. A read of STATUS with DONE = 1 is the DONE read of R72 (the model's field `unread`, log 22). -/
def Obligations.RegisterReads : Prop :=
  ∀ s : State,
    (∀ r, (r ≠ 1 ∨ s.status.done = false) → hostAccess (.rreg r) s = .next { s with rdata := s.regRead r }) ∧
    (s.status.done = true → hostAccess (.rreg 1) s = .next { s with rdata := s.regRead 1, unread := false }) ∧
    s.regRead 0 = 0#32 ∧
    ((s.regRead 1).getLsbD 0 = true ↔ s.phase ≠ .idle) ∧
    (s.regRead 1).getLsbD 1 = s.status.done ∧ (s.regRead 1).getLsbD 2 = s.status.err ∧ (s.regRead 1).getLsbD 3 = s.status.drop ∧
    (∀ k, 4 ≤ k → (s.regRead 1).getLsbD k = false) ∧
    s.regRead 2 = s.errcode.setWidth 32 ∧ s.regRead 3 = s.srcLen ∧ s.regRead 4 = s.dstLen ∧ s.regRead 5 = s.hdr.setWidth 32 ∧
    s.regRead 6 = (if s.degen then 1#32 else 0#32) ∧
    (∀ r, 7 ≤ r → s.regRead r = 0#32) ∧
    s.donePort = (s.regRead 1).getLsbD 1

/-- R25–R31, R306: a host write changes SRC_LEN whole and CFG in bit 0, whether a command runs or not; a write of any register but
these and CMD changes nothing. -/
def Obligations.RegisterWrites : Prop :=
  ∀ (s : State) (v : Word),
    (∃ t, hostAccess (.wreg 3 v) s = .next t ∧ t = { s with srcLen := v } ∧ t.regRead 3 = v) ∧
    (∃ t, hostAccess (.wreg 6 v) s = .next t ∧ t = { s with degen := v.getLsbD 0 } ∧ t.regRead 6 = v &&& 1#32) ∧
    (∀ r, r ≠ 0 → r ≠ 3 → r ≠ 6 → hostAccess (.wreg r v) s = .next s)

/-- R39, R70: the host's port of SRC with no command running, and beyond its capacity at all times. -/
def Obligations.SourcePort : Prop :=
  ∀ (s : State) (i : Nat), Memory.wf s.src →
    (i < s.params.srcMax.toNat → hostAccess (.rsrc i) s = .next { s with rdata := (s.srcRead i).setWidth 32 }) ∧
    (s.params.srcMax.toNat ≤ i → hostAccess (.rsrc i) s = .next { s with rdata := 0#32 }) ∧
    (∀ b, s.params.srcMax.toNat ≤ i → hostAccess (.wsrc i b) s = .next s) ∧
    (∀ b, i < s.params.srcMax.toNat → s.busy = false →
      ∃ t, hostAccess (.wsrc i b) s = .next t ∧ t = { s with src := t.src } ∧ t.srcRead i = b ∧
        ∀ j, j ≠ i → t.srcRead j = s.srcRead j)

/-- R40, R70, R72, R73, R307: the host's port of DST. From a command's acceptance until the host has read STATUS with DONE = 1 a read
returns a free value, a new one each time; R72 item 3 says so for that whole time, R307 for BUSY = 1, and the model follows R72
(log 22). Only that read of STATUS ends the time. -/
def Obligations.SinkPort : Prop :=
  (∀ (s : State) (i : Nat),
    (s.params.dstMax.toNat ≤ i → hostAccess (.rdst i) s = .next { s with rdata := 0#32 }) ∧
    (i < s.params.dstMax.toNat → s.busy = false → s.unread = false →
      hostAccess (.rdst i) s = .next { s with rdata := (s.dstRead i).setWidth 32 }) ∧
    (i < s.params.dstMax.toNat → (s.busy = true ∨ s.unread = true) →
      hostAccess (.rdst i) s = .next { s with rdata := (Config.freeBusyRead s.draws).setWidth 32, draws := s.draws + 1 }) ∧
    (∀ b, hostAccess (.wdst i b) s = .next s)) ∧
  (∀ s t : State, s.Inv → s.DataInv → step s = .next t → s.unread = true → t.unread = false →
    s.engineTurn = false ∧ s.status.done = true ∧ ∃ rest, s.host = .rreg 1 :: rest ∨ s.host = .waitDone :: rest)

/-- R69: the engine's write of a sink byte stores it below the capacity, leaving every other byte, and raises SinkUnwritable at the
capacity and beyond. -/
def Obligations.EngineSinkWrite : Prop :=
  ∀ (s : State) (i : Nat) (v : Byte), Memory.wf s.dst →
    (i < s.params.dstMax.toNat →
      ∃ t, dstWrite i v s = .ok t ∧ t = { s with dst := t.dst } ∧ Memory.wf t.dst ∧ t.dstRead i = v ∧
        ∀ j, j ≠ i → t.dstRead j = s.dstRead j) ∧
    (s.params.dstMax.toNat ≤ i → dstWrite i v s = .error (.raise .sinkUnwritable))

/-- R301, R300, R302: the reset input makes every register read 0 and the phase IDLE, and leaves SRC and the sticky fault; DST keeps
its bytes when no command ran, and becomes a draw of its own when one did. -/
def Obligations.ResetSignal : Prop :=
  ∀ s : State, ∃ t, hostAccess .rst s = .next t ∧
    (∀ r, t.regRead r = 0#32) ∧ t.phase = .idle ∧ t.donePort = false ∧
    t.params = s.params ∧ t.src = s.src ∧ t.fault = s.fault ∧
    (s.busy = false → t.dst = s.dst ∧ t.dstGen = s.dstGen) ∧
    (s.busy = true → t.dst = [] ∧ t.dstGen = s.draws)

/-- R300, R302, R5: after power-on and reset every register reads 0, the block is idle, the sticky fault is false, no byte of SRC or
DST is determined, and both capacities are at least 1. -/
def Obligations.PowerOnState : Prop :=
  (∀ r, State.reset.regRead r = 0#32) ∧ State.reset.phase = .idle ∧ State.reset.fault = false ∧
  (∀ i, Memory.lookup State.reset.src i = none) ∧ (∀ i, Memory.lookup State.reset.dst i = none) ∧
  1 ≤ State.reset.params.srcMax.toNat ∧ 1 ≤ State.reset.params.dstMax.toNat

/-- R9, R20, R66: a step is the engine's when it is the engine's turn, and otherwise the host's next access; a write to CMD runs the
command its word decodes to, and so does the word `withFetchWord` places. With nothing to do the block waits. That the
host's script stands in the state, and how many host accesses come before an engine step, are the model's choice (log 5, log 8). -/
def Obligations.StepRunsCommand : Prop :=
  (∀ (s : State) (w : Word) (rest : List HostItem), s.host = .wreg 0 w :: rest → s.engineTurn = false →
    step s = exec (decode w) (s.takeItem rest)) ∧
  (∀ (s : State) (a : HostItem) (rest : List HostItem), s.host = a :: rest → s.engineTurn = false →
    step s = hostAccess a (s.takeItem rest)) ∧
  (∀ s : State, s.engineTurn = true → step s = engineStep s) ∧
  (∀ s : State, s.host = [] → s.busy = false → step s = .next s) ∧
  (∀ (s : State) (n w : Nat),
    step (s.withFetchWord n w) = exec (decode (BitVec.ofNat 32 w)) ((s.withFetchWord n w).takeItem s.host))

/-! ### Invariants -/

/-- R25, R26, R28, R29, R39, R40, R22, R232, R233: every step keeps the invariants of the registers and memories and those of the
engine's structures. -/
def Obligations.InvariantKept : Prop :=
  ∀ s t : State, s.Inv → s.DataInv → step s = .next t → t.Inv ∧ t.DataInv

/-- R300, R302: the invariants hold after reset. -/
def Obligations.InvariantAtReset : Prop :=
  State.reset.Inv ∧ State.reset.DataInv

/-- R132, R137, R204: no step from a state with the invariants stops: the places the spec calls internal faults are never reached.
-/
def Obligations.StepNeverStops : Prop :=
  ∀ s : State, s.Inv → s.DataInv → ∃ t, step s = .next t

/-- R25, R26, R28, R29, R271: what the registers read as, in every state with the invariants: BUSY and DONE never both 1, ERR only with
DONE, ERRCODE, DST_LEN and HDR 0 while a command runs, ERR exactly with a nonzero code (after a host write of SRC while busy that is
the model's choice, DEDUCED, log 7); and while the sticky fault is false, no code above 6, and DST_LEN and HDR 0 after an error. -/
def Obligations.StatusRegisterInvariants : Prop :=
  ∀ s : State, s.Inv →
    ((s.regRead 1).getLsbD 0 && (s.regRead 1).getLsbD 1) = false ∧
    ((s.regRead 1).getLsbD 2 = true → (s.regRead 1).getLsbD 1 = true) ∧
    ((s.regRead 1).getLsbD 0 = true → s.regRead 2 = 0#32 ∧ s.regRead 4 = 0#32 ∧ s.regRead 5 = 0#32) ∧
    ((s.regRead 1).getLsbD 2 = true ↔ s.regRead 2 ≠ 0#32) ∧
    (s.fault = false → (s.regRead 2).toNat ≤ 6) ∧
    (s.fault = false → s.regRead 2 ≠ 0#32 → s.regRead 4 = 0#32 ∧ s.regRead 5 = 0#32)

/-! ### Tree builder -/

/-- R130: each counter is the number of times its byte value occurs, the counters sum to the input's length, and the phase C_FREQ, one
engine step (the model's choice, log 9), leaves them in FREQ with the read pointer back at 0. -/
def Obligations.FrequencyTable : Prop :=
  (∀ src : Bytes, src.length < 2 ^ 32 →
    (freqCount src).length = 256 ∧
    (∀ b : Byte, ((freqCount src).getD b.toNat 0#32).toNat = src.count b) ∧
    ((freqCount src).map BitVec.toNat).sum = src.length) ∧
  (∀ s : State, s.Inv → s.tainted = false → s.phase = .cFreq → s.latch.srcLen ≤ s.params.srcMax →
    ∃ t, engineStep s = .next t ∧ t.phase = .cBuild ∧ t.eng.freq = freqCount (s.srcBytes s.latch.srcLen.toNat) ∧ t.eng.rdPtr = 0#32)

/-- R131, R132: insertion goes immediately before the first entry whose frequency is greater or equal and keeps the queue in
order; extraction takes entry 0, which has the least frequency, and has no answer on an empty queue, which building a tree never
asks for. -/
def Obligations.QueueOrder : Prop :=
  (∀ (q : List HuffTree) (n : HuffTree),
    pqInsert q n = q.takeWhile (fun t => decide (t.freq < n.freq)) ++ n :: q.dropWhile (fun t => decide (t.freq < n.freq))) ∧
  (∀ (q : List HuffTree) (n : HuffTree), pqSorted q → pqSorted (pqInsert q n)) ∧
  (∀ (q : List HuffTree) (n : HuffTree), pqExtractMin (n :: q) = some (n, q)) ∧
  (∀ (q : List HuffTree) (n : HuffTree), pqSorted (n :: q) → pqSorted q ∧ ∀ t ∈ q, n.freq ≤ t.freq) ∧
  pqExtractMin [] = none ∧
  (∀ q : List HuffTree, treeBuild q ≠ none)

/-- R133: the fill holds one leaf for each byte value whose counter is positive, with that counter, in ascending order of frequency
and, among equal frequencies, descending order of byte value. -/
def Obligations.QueueFill : Prop :=
  ∀ freq : List Word, freq.length = 256 →
    (∀ t : HuffTree, t ∈ pqFill freq ↔ ∃ v : Byte, freq.getD v.toNat 0#32 ≠ 0#32 ∧ t = .leaf v (freq.getD v.toNat 0#32)) ∧
    (pqFill freq).Pairwise (fun a b => ∃ v w f g, a = HuffTree.leaf v f ∧ b = HuffTree.leaf w g ∧ (f < g ∨ (f = g ∧ w < v)))

/-- R134: the loop, merge by merge: the two least entries become the left and the right child of a node that goes back into the
queue; one entry is the tree, none is no tree; and a queue of k leaves takes k − 1 merges. -/
def Obligations.TreeBuildMerges : Prop :=
  treeBuild [] = some [] ∧
  (∀ t : HuffTree, treeBuild [t] = some [t]) ∧
  (∀ (a b : HuffTree) (q : List HuffTree), treeBuild (a :: b :: q) = treeBuild (pqInsert q (.node (a.freq + b.freq) a b))) ∧
  (∀ q : List HuffTree, q ≠ [] → (∀ t ∈ q, t.internals = 0) → ∃ t, treeBuild q = some [t] ∧ t.internals = q.length - 1)

/-- R135: the tree of an input: each byte value present is at exactly one leaf, each leaf's frequency is its value's count, each
internal node's is the exact sum of its children's, and the root's is the input's length. -/
def Obligations.TreeInvariants : Prop :=
  ∀ (src : Bytes) (t : HuffTree), src.length < 2 ^ 32 → treeOf src = some t →
    t.values.Nodup ∧ (∀ b, b ∈ t.values ↔ b ∈ src) ∧ t.weighted (fun b => src.count b) ∧ t.freq.toNat = src.length

/-- R136, R138: the empty input has no tree and gives the container 41 42 00 00; an input of one byte value has a one-leaf tree, the
code "0" and so a payload of one 0 bit per byte under UNARY, and is DegenerateAlphabet under ERROR. -/
def Obligations.DegenerateTrees : Prop :=
  treeOf [] = none ∧
  (∀ (degen : Bool) (srcMax dstMax : Nat), 4 ≤ dstMax →
    compressBytes [] degen srcMax dstMax = .ok ([0x41#8, 0x42#8, 0x00#8, 0x00#8], 0x0000#16)) ∧
  (∀ (v : Byte) (n : Nat), 0 < n → n < 2 ^ 32 →
    treeOf (List.replicate n v) = some (.leaf v (BitVec.ofNat 32 n)) ∧
    codeOf (codeBook (treeOf (List.replicate n v))) v = some [false] ∧
    inputBits (List.replicate n v) = List.replicate n false ∧
    (∀ srcMax dstMax : Nat, n ≤ srcMax → compressBytes (List.replicate n v) true srcMax dstMax = .error .degenerateAlphabet))

/-- R137: in the book of a tree with distinct leaf values, the code of a byte value is the path to its leaf, 0 for left and 1 for
right, and a value at no leaf has none; a single leaf has the code "0" (R138). Each byte of an input has a code in its book. -/
def Obligations.CodeBookPaths : Prop :=
  (∀ (f : Word) (l r : HuffTree) (b : Byte) (c : Bits), (HuffTree.node f l r).values.Nodup →
    (codeOf (codeBook (some (.node f l r))) b = some c ↔ (HuffTree.node f l r).leadsTo c b)) ∧
  (∀ (v b : Byte) (f : Word) (c : Bits), codeOf (codeBook (some (.leaf v f))) b = some c ↔ b = v ∧ c = [false]) ∧
  (∀ b : Byte, codeOf (codeBook none) b = none) ∧
  (∀ (src : Bytes) (b : Byte), src.length < 2 ^ 32 → ((codeOf (codeBook (treeOf src)) b).isSome = true ↔ b ∈ src))

/-- R139: with k ≥ 2 leaves, the codes lead to their leaves, are 1 to k − 1 ≤ 255 bits long, and none is a prefix of another. -/
def Obligations.CodesPrefixFree : Prop :=
  ∀ t : HuffTree, t.values.Nodup → 2 ≤ t.values.length →
    (∀ (b : Byte) (c : Bits), codeOf (codeBook (some t)) b = some c →
      t.leadsTo c b ∧ 1 ≤ c.length ∧ c.length ≤ t.values.length - 1 ∧ t.values.length - 1 ≤ 255) ∧
    (∀ (a b : Byte) (c d : Bits), codeOf (codeBook (some t)) a = some c → codeOf (codeBook (some t)) b = some d → a ≠ b →
      ¬ c <+: d)

/-- R140, R172: the capacities of the compress path: at most 256 queue entries, and each merge leaves fewer; k leaves and k − 1
internal nodes, at most 511 nodes; height at most 255; a tree stream of at most 513 bytes. -/
def Obligations.CompressCapacities : Prop :=
  (∀ freq : List Word, (pqFill freq).length ≤ 256) ∧
  (∀ (a b n : HuffTree) (q : List HuffTree), (pqInsert q n).length < (a :: b :: q).length) ∧
  (∀ (src : Bytes) (t : HuffTree), treeOf src = some t →
    t.values.length ≤ 256 ∧ t.internals + 1 = t.values.length ∧ t.internals + t.values.length ≤ 511 ∧ t.height ≤ 255 ∧
    (serialize (some t)).length ≤ 513)

/-! ### Tree stream -/

/-- R98, R173, R174: a tree field is accepted exactly when it is empty, for the empty tree, or is the stream of one node and nothing
more, for that node's tree. -/
def Obligations.TreeStreamGrammar : Prop :=
  ∀ (field : Bytes) (root : Option HuffTree),
    deserializeTree field = some root ↔ (field = [] ∧ root = none) ∨ ∃ t, TreeStream field t ∧ root = some t

/-- R100: the length of a tree stream. -/
def Obligations.TreeStreamLength : Prop :=
  (∀ t : HuffTree, (serialize (some t)).length = t.internals + t.values.length + t.escaped) ∧
  (∀ (field : Bytes) (t : HuffTree), TreeStream field t → t.internals + t.values.length ≤ field.length)

/-- R177: parsing what was serialized gives the tree back, with its shape and its leaf values. -/
def Obligations.TreeRoundTrip : Prop :=
  (∀ t : HuffTree, deserializeTree (serialize (some t)) = some (some t.unweighted) ∧ t.unweighted.values = t.values ∧
    t.unweighted.internals = t.internals ∧ ∀ c b, t.unweighted.leadsTo c b ↔ t.leadsTo c b) ∧
  deserializeTree (serialize none) = some none

/-- R175, R176, R38: a parsed tree has at most one node for each byte of its field, so at most 8191 nodes and 4095 internal nodes; its
frequencies are all 0. The engine's descent never has more than 4095 entries on its stack, whatever the field: a marker read with the
stack full raises CorruptTree at once (DEDUCED, log 24), and still the descent gives what DeserializeTree gives (R174). -/
def Obligations.ParsedTreeBounds : Prop :=
  (∀ (field : Bytes) (t : HuffTree), field.length ≤ 8191 → deserializeTree field = some (some t) →
    t.internals + t.values.length ≤ field.length ∧ 2 * t.internals + 1 ≤ field.length ∧
    t.internals + t.values.length ≤ 8191 ∧ t.internals ≤ 4095 ∧ t.height ≤ 4095 ∧ t = t.unweighted) ∧
  (∀ s t : State, s.eng.stack.length ≤ 4095 → deserHead s = .ok t → t.eng.stack.length ≤ 4095) ∧
  (∀ s : State, s.eng.stack.length = 4095 → s.srcRead s.eng.rdPtr.toNat = 0x2A#8 → deserHead s = .error (.raise .corruptTree)) ∧
  (∀ s : State, s.eng.budget = s.eng.treeSize → s.eng.rdPtr.toNat + s.eng.treeSize.toNat < 2 ^ 32 →
    let field := (List.range s.eng.treeSize.toNat).map (fun k => s.srcRead (s.eng.rdPtr.toNat + k))
    (deserializeTree field = none → readTree s = .error (.raise .corruptTree)) ∧
    (∀ root, deserializeTree field = some root → ∃ t, readTree s = .ok t ∧ t.eng.root = root ∧ t.eng.stack = []))

/-! ### Payload -/

/-- R61: payload bit k is bit 7 − (k mod 8) of payload byte k div 8. -/
def Obligations.PayloadBitOrder : Prop :=
  ∀ (payload : Bytes) (k : Nat), k < 8 * payload.length →
    (payloadBits payload)[k]? = some ((payload.getD (k / 8) 0#8).getLsbD (7 - k % 8))

/-- R101, R201, R202: the packed bytes of T bits hold those bits and then g = (8 − (T mod 8)) mod 8 zero bits, ceil(T / 8) bytes in
all. -/
def Obligations.PayloadPadding : Prop :=
  ∀ bits : Bits,
    payloadBits (packBytes bits) = bits ++ List.replicate ((8 - bits.length % 8) % 8) false ∧
    (packBytes bits).length = (bits.length + 7) / 8 ∧
    8 * (packBytes bits).length = bits.length + (8 - bits.length % 8) % 8 ∧
    garbageCount bits.length = (8 - bits.length % 8) % 8 ∧ garbageCount bits.length ≤ 7

/-- R202: the number of code bits is the sum over the byte values of count times code length, N for one byte value, and at most
255 N for two or more. -/
def Obligations.CodeBitTotal : Prop :=
  ∀ src : Bytes, src.length < 2 ^ 32 →
    (inputBits src).length =
      ((List.range 256).map (fun v => src.count (BitVec.ofNat 8 v) *
        ((codeOf (codeBook (treeOf src)) (BitVec.ofNat 8 v)).getD []).length)).sum ∧
    (oneSymbol src = true → (inputBits src).length = src.length) ∧
    (inputBits src).length ≤ 255 * src.length

/-- R203, R205–R207: the payload bit count, and the outcome of unpacking: with no tree, payload bits are CorruptTree; otherwise too
long an output is SinkUnwritable before a code cut short is CorruptPayload, and a single leaf comes once per bit. -/
def Obligations.UnpackOutcomes : Prop :=
  (∀ f g ts : Nat, f < 2 ^ 32 → g < 8 → 4 + ts ≤ f →
    (unpackBitCount f g ts = none ↔ f = 4 + ts ∧ 0 < g) ∧
    (∀ n, unpackBitCount f g ts = some n → n + g = 8 * (f - 4 - ts) ∧ n < 2 ^ 35)) ∧
  (∀ (root : Option HuffTree) (bits : Bits) (dstMax : Nat),
    unpackTree root bits dstMax =
      if root = none ∧ bits ≠ [] then .error .corruptTree
      else if dstMax < (decodePayload root bits).1.length then .error .sinkUnwritable
      else if (decodePayload root bits).2 = true then .error .corruptPayload
      else .ok (decodePayload root bits).1) ∧
  (∀ (v : Byte) (f : Word) (bits : Bits), decodePayload (some (.leaf v f)) bits = (List.replicate bits.length v, false)) ∧
  decodePayload none [] = ([], false)

/-- R204, R102: a tree with an internal root decodes the codes of bytes, one after another, to those bytes; and bits that end inside
a code leave the output as it was with the cursor inside a code. -/
def Obligations.UnpackFollowsCodes : Prop :=
  ∀ (f : Word) (l r : HuffTree) (codes : List (Byte × Bits)), (∀ p ∈ codes, (HuffTree.node f l r).leadsTo p.2 p.1) →
    unpackBits l r l r false (codes.flatMap Prod.snd) = (codes.map Prod.fst, false) ∧
    (∀ (c d : Bits) (v : Byte), (HuffTree.node f l r).leadsTo (c ++ d) v → c ≠ [] → d ≠ [] →
      unpackBits l r l r false (codes.flatMap Prod.snd ++ c) = (codes.map Prod.fst, true))

/-- R208: containers that differ only in the last g bits of a payload's last byte decode alike. -/
def Obligations.GarbageBitsIgnored : Prop :=
  ∀ (front : Bytes) (b b' : Byte) (degen : Bool) (srcMax dstMax : Nat),
    let h := headerOfBytes (front.getD 2 0#8) (front.getD 3 0#8)
    4 + (h.extractLsb' 0 13).toNat ≤ front.length →
    (∀ k, (h.extractLsb' 13 3).toNat ≤ k → b.getLsbD k = b'.getLsbD k) →
    decompressBytes (front ++ [b]) degen srcMax dstMax = decompressBytes (front ++ [b']) degen srcMax dstMax

/-- R240: the two magic bytes make no difference to DECOMPRESS. -/
def Obligations.MagicIgnored : Prop :=
  ∀ (m0 m1 m0' m1' : Byte) (rest : Bytes) (degen : Bool) (srcMax dstMax : Nat),
    decompressBytes (m0 :: m1 :: rest) degen srcMax dstMax = decompressBytes (m0' :: m1' :: rest) degen srcMax dstMax

/-- R209: a decoded output is no longer than the payload has bits, and exactly as long when the tree is a single leaf. -/
def Obligations.OutputBound : Prop :=
  ∀ (src : Bytes) (degen : Bool) (srcMax dstMax : Nat) (out : Bytes) (h : BitVec 16),
    decompressBytes src degen srcMax dstMax = .ok (out, h) →
    let bits := 8 * (src.length - 4 - (h.extractLsb' 0 13).toNat) - (h.extractLsb' 13 3).toNat
    out.length ≤ bits ∧ out.length ≤ dstMax ∧
    (∀ v f, deserializeTree ((src.drop 4).take (h.extractLsb' 0 13).toNat) = some (some (.leaf v f)) → out.length = bits)

/-- R210: what COMPRESS makes of an input, DECOMPRESS makes back into it: under either policy for two or more byte values, and
under UNARY for one byte value and for the empty input. -/
def Obligations.RoundTrip : Prop :=
  ∀ (src : Bytes) (degen degen' : Bool) (srcMax dstMax srcMax' dstMax' : Nat) (out : Bytes) (h : BitVec 16),
    src.length < 2 ^ 32 → compressBytes src degen srcMax dstMax = .ok (out, h) →
    (2 ≤ src.dedup.length ∨ degen' = false) → out.length ≤ srcMax' → src.length ≤ dstMax' →
    decompressBytes out degen' srcMax' dstMax' = .ok (src, h)

/-- R210, R236, R237, R239, R72 (one engine step a phase: log 9): the round trip on the machine: an idle block whose SRC holds the DST of
a finished COMPRESS, with SRC_LEN its DST_LEN, decompresses it to the bytes that were compressed, under either policy for two or more
byte values, and under UNARY for one and for none. -/
def Obligations.MachineRoundTrip : Prop :=
  ∀ s t u v : State, s.Inv → s.busy = false → exec .compress s = .next t → engineRun 7 t = .next u → u.status.err = false →
    v.Inv → v.busy = false → v.params = s.params → (v.degen = false ∨ 2 ≤ (s.srcBytes s.srcLen.toNat).dedup.length) →
    v.srcLen = u.dstLen → v.srcBytes v.srcLen.toNat = u.dstBytes u.dstLen.toNat →
    u.dstLen ≤ s.params.srcMax → s.srcLen ≤ s.params.dstMax →
    ∃ w x, exec .decompress v = .next w ∧ engineRun 3 w = .next x ∧
      x.status.done = true ∧ x.status.err = false ∧ x.dstLen = s.srcLen ∧ x.hdr = u.hdr ∧
      x.dstBytes s.srcLen.toNat = s.srcBytes s.srcLen.toNat

/-! ### Container -/

/-- R230, R231: unpacking a packed header gives its fields back, for every value of both, and packing is g · 2^13 + ts. -/
def Obligations.HeaderBitExactness : Prop :=
  (∀ (g : BitVec 3) (ts : BitVec 13),
    headerUnpack ((headerPack g ts).extractLsb' 8 8) ((headerPack g ts).extractLsb' 0 8) = (g, ts) ∧
    (headerPack g ts).toNat = g.toNat * 2 ^ 13 + ts.toNat) ∧
  headerPack 0#3 0#13 = 0x0000#16 ∧ headerPack 7#3 8191#13 = 0xFFFF#16 ∧ headerPack 0#3 8191#13 = 0x1FFF#16 ∧
  headerPack 7#3 0#13 = 0xE000#16 ∧ headerPack 1#3 5#13 = 0x2005#16 ∧ headerUnpack 0xC0#8 0x01#8 = (6#3, 1#13)

/-- R93, R95, R96, R171, R62, R236: the container COMPRESS makes: magic, header high byte first, tree stream, payload; its header
gives the stream's length and the garbage count; and the header DECOMPRESS reports is the one the container holds. -/
def Obligations.ContainerLayout : Prop :=
  (∀ (src : Bytes) (degen : Bool) (srcMax dstMax : Nat) (out : Bytes) (h : BitVec 16),
    compressBytes src degen srcMax dstMax = .ok (out, h) →
    out = [0x41#8, 0x42#8, h.extractLsb' 8 8, h.extractLsb' 0 8] ++ serialize (treeOf src) ++ packBytes (inputBits src) ∧
    (h.extractLsb' 0 13).toNat = (serialize (treeOf src)).length ∧
    (h.extractLsb' 13 3).toNat = (8 - (inputBits src).length % 8) % 8 ∧
    out.length = 4 + (serialize (treeOf src)).length + ((inputBits src).length + 7) / 8) ∧
  (∀ (src : Bytes) (degen : Bool) (srcMax dstMax : Nat) (out : Bytes) (h : BitVec 16),
    decompressBytes src degen srcMax dstMax = .ok (out, h) →
    src[2]? = some (h.extractLsb' 8 8) ∧ src[3]? = some (h.extractLsb' 0 8))

/-- R68, R43: a command's result rests on its latched operands, the capacities and the bytes SRC[0..L_SRC_LEN) alone; beyond the
capacity it is SourceUnreadable. -/
def Obligations.ResultRestsOnInputAlone : Prop :=
  (∀ s t : State, t.latch = s.latch → t.params = s.params → (∀ i, i < s.latch.srcLen.toNat → t.srcRead i = s.srcRead i) →
    t.commandResult = s.commandResult) ∧
  (∀ s : State, (s.latch.op = 1#4 ∨ s.latch.op = 2#4) → s.params.srcMax < s.latch.srcLen →
    s.commandResult = .error .sourceUnreadable)

/-- R141: the tree, and so the code book and the tree stream, depends on the frequencies alone, not on the order of the input; the
container's length does too. -/
def Obligations.TreeRestsOnFrequencies : Prop :=
  ∀ src src' : Bytes, src.Perm src' →
    treeOf src = treeOf src' ∧ codeBook (treeOf src) = codeBook (treeOf src') ∧
    (container src).length = (container src').length

/-! ### Host scripts -/

/-- R104: `compress`, `decompress` and `nop` are the command words of COMPRESS, DECOMPRESS and NOP; `load_src` on an idle block
leaves the bytes in SRC, the rest of SRC as it was, and their number in SRC_LEN; `copy_dst_to_src`, once DONE = 1 has been read
(R72), leaves DST[0..DST_LEN) in SRC, the rest of SRC as it was, and DST_LEN in SRC_LEN; `wait_done` reads STATUS and ends when
DONE = 1. The script in the state is the model's (log 8), and so is the field `unread` that a read of STATUS with DONE = 1 clears
(log 22). -/
def Obligations.HostScripts : Prop :=
  (∀ (s : State) (rest : List HostItem), s.engineTurn = false →
    (s.host = scriptCompress ++ rest → step s = exec .compress (s.takeItem rest)) ∧
    (s.host = scriptDecompress ++ rest → step s = exec .decompress (s.takeItem rest)) ∧
    (s.host = scriptNop ++ rest → step s = .next (s.takeItem rest))) ∧
  (∀ (s : State) (bytes : Bytes) (rest : List HostItem), Memory.wf s.src → s.busy = false →
    s.host = scriptLoadSrc bytes ++ rest → bytes.length ≤ s.params.srcMax.toNat →
    ∃ t : State, Host.Core.run core (bytes.length + 1) s = .next t ∧ t.host = rest ∧ t.srcBytes bytes.length = bytes ∧
      (∀ i, bytes.length ≤ i → t.srcRead i = s.srcRead i) ∧
      t.srcLen.toNat = bytes.length ∧ t.busy = false ∧ t.status = s.status ∧ t.dst = s.dst ∧ t.fault = s.fault) ∧
  (∀ (s : State) (rest : List HostItem), Memory.wf s.src → s.busy = false → s.unread = false → s.host = .copyDstToSrc :: rest →
    s.dstLen ≤ s.params.srcMax → s.dstLen ≤ s.params.dstMax →
    ∃ t : State, Host.Core.run core (2 * s.dstLen.toNat + 2) s = .next t ∧ t.host = rest ∧
      t.srcBytes s.dstLen.toNat = s.dstBytes s.dstLen.toNat ∧ (∀ i, s.dstLen.toNat ≤ i → t.srcRead i = s.srcRead i) ∧
      t.srcLen = s.dstLen ∧ t.busy = false ∧ t.status = s.status ∧ t.dst = s.dst ∧ t.fault = s.fault) ∧
  (∀ (s : State) (rest : List HostItem), s.host = .waitDone :: rest → s.engineTurn = false →
    step s = .next { s with
      host := if s.status.done then rest else .waitDone :: rest
      stall := s.stall - 1
      unread := s.unread && !s.status.done
      rdata := s.regRead 1 })

/-- R236, R237 (examples): Scenario A, "AAAAABBBCC", compresses to 41 42 20 05 2A 2A 43 42 41 FA A0 and comes back. -/
def Obligations.ScenarioA : Prop :=
  compressBytes [0x41#8, 0x41#8, 0x41#8, 0x41#8, 0x41#8, 0x42#8, 0x42#8, 0x42#8, 0x43#8, 0x43#8] false 16 16 =
    .ok ([0x41#8, 0x42#8, 0x20#8, 0x05#8, 0x2A#8, 0x2A#8, 0x43#8, 0x42#8, 0x41#8, 0xFA#8, 0xA0#8], 0x2005#16) ∧
  decompressBytes [0x41#8, 0x42#8, 0x20#8, 0x05#8, 0x2A#8, 0x2A#8, 0x43#8, 0x42#8, 0x41#8, 0xFA#8, 0xA0#8] false 16 16 =
    .ok ([0x41#8, 0x41#8, 0x41#8, 0x41#8, 0x41#8, 0x42#8, 0x42#8, 0x42#8, 0x43#8, 0x43#8], 0x2005#16)
end

