-- ==== Sys2Proof/Laws/TreeBuilder.lean ====
section
/-! SUPPORT. Frequency table, priority queue, tree builder and code book: what each can do (40_tree_builder.md R130–R140). -/

namespace Sys2Proof.Machine

/-! ### Frequency table -/

theorem freqBump_length (freq : List Word) (b : Byte) : (freqBump freq b).length = freq.length := by
  simp [freqBump]

theorem freqBump_getD (freq : List Word) (b : Byte) (v : Nat) (hv : v < freq.length) :
    (freqBump freq b).getD v 0#32 = freq.getD v 0#32 + if b.toNat = v then 1#32 else 0#32 := by
  rw [freqBump, List.getD_eq_getElem?_getD, List.getD_eq_getElem?_getD, List.getElem?_modify]
  by_cases h : b.toNat = v
  · simp [h, List.getElem?_eq_getElem hv]
  · simp [h]

theorem foldl_freqBump_length (src : Bytes) (freq : List Word) : (src.foldl freqBump freq).length = freq.length := by
  induction src generalizing freq with
  | nil => rfl
  | cons b src ih => simp [ih, freqBump_length]

theorem freqZero_length : freqZero.length = 256 :=
  List.length_replicate

theorem freqZero_getD (v : Nat) : freqZero.getD v 0#32 = 0#32 := by
  rw [freqZero, List.getD_eq_getElem?_getD, List.getElem?_replicate]
  split <;> rfl

theorem freqCount_length (src : Bytes) : (freqCount src).length = 256 := by
  rw [freqCount, foldl_freqBump_length, freqZero_length]

theorem foldl_freqBump_getD (src : Bytes) (freq : List Word) (v : Byte) (hv : freq.length = 256) :
    (src.foldl freqBump freq).getD v.toNat 0#32 = freq.getD v.toNat 0#32 + BitVec.ofNat 32 (src.count v) := by
  induction src generalizing freq with
  | nil => simp
  | cons b src ih =>
    have hlt : v.toNat < freq.length := by have := v.isLt; omega
    rw [List.foldl_cons, ih _ (by rw [freqBump_length, hv]), freqBump_getD _ _ _ hlt, List.count_cons]
    by_cases h : b = v
    · subst h
      simp only [if_true, BEq.rfl, BitVec.ofNat_add]
      rw [BitVec.add_assoc, BitVec.add_comm 1#32]
    · have h' : b.toNat ≠ v.toNat := fun e => h (BitVec.eq_of_toNat_eq e)
      simp [h, h']

/-- R130: an entry counts the occurrences of its byte value. -/
theorem freqCount_getD (src : Bytes) (v : Byte) :
    (freqCount src).getD v.toNat 0#32 = BitVec.ofNat 32 (src.count v) := by
  rw [freqCount, foldl_freqBump_getD _ _ _ freqZero_length, freqZero_getD, BitVec.zero_add]

theorem freqCount_toNat {src : Bytes} (h : src.length < 2 ^ 32) (v : Byte) :
    ((freqCount src).getD v.toNat 0#32).toNat = src.count v := by
  rw [freqCount_getD, BitVec.toNat_ofNat, Nat.mod_eq_of_lt]
  have := List.count_le_length (a := v) (l := src)
  omega

theorem freqCount_eq_zero {src : Bytes} (h : src.length < 2 ^ 32) (v : Byte) :
    (freqCount src).getD v.toNat 0#32 = 0#32 ↔ v ∉ src := by
  rw [← BitVec.toNat_inj, freqCount_toNat h]
  simp [List.count_eq_zero]

/-! ### Priority queue -/

theorem pqInsert_perm (q : List HuffTree) (n : HuffTree) : (pqInsert q n).Perm (n :: q) := by
  induction q with
  | nil => rfl
  | cons t q ih =>
    unfold pqInsert
    split
    · rfl
    · exact (ih.cons t).trans (List.Perm.swap n t q)

theorem pqInsert_length (q : List HuffTree) (n : HuffTree) : (pqInsert q n).length = q.length + 1 := by
  simpa using (pqInsert_perm q n).length_eq

/-- R131: the new node stands behind exactly the entries of smaller frequency, ahead of the first greater or equal one. -/
theorem pqInsert_split (q : List HuffTree) (n : HuffTree) :
    ∃ a b, q = a ++ b ∧ pqInsert q n = a ++ n :: b ∧ (∀ x ∈ a, x.freq < n.freq) ∧ (∀ x ∈ b.head?, n.freq ≤ x.freq) := by
  induction q with
  | nil => exact ⟨[], [], rfl, rfl, by simp, by simp⟩
  | cons t q ih =>
    unfold pqInsert
    split
    · rename_i h
      exact ⟨[], t :: q, rfl, rfl, by simp, by simpa using h⟩
    · rename_i h
      obtain ⟨a, b, h1, h2, h3, h4⟩ := ih
      refine ⟨t :: a, b, by simp [h1], by simp [h2], ?_, h4⟩
      intro x hx
      rcases List.mem_cons.1 hx with rfl | hx
      · exact BitVec.not_le.1 h
      · exact h3 x hx

theorem pqInsert_sorted {q : List HuffTree} (h : pqSorted q) (n : HuffTree) : pqSorted (pqInsert q n) := by
  induction q with
  | nil => simp [pqInsert, pqSorted]
  | cons t q ih =>
    have h' := List.pairwise_cons.1 h
    unfold pqInsert
    split
    · rename_i hn
      refine List.pairwise_cons.2 ⟨fun x hx => ?_, h⟩
      rcases List.mem_cons.1 hx with rfl | hx
      · exact hn
      · exact BitVec.le_trans hn (h'.1 x hx)
    · rename_i hn
      refine List.pairwise_cons.2 ⟨fun x hx => ?_, ih h'.2⟩
      rcases List.mem_cons.1 ((pqInsert_perm q n).mem_iff.1 hx) with rfl | hx
      · exact BitVec.le_of_lt (BitVec.not_le.1 hn)
      · exact h'.1 x hx

/-! ### Leaves of trees and queues -/

/-- The leaf values of a queue's trees. -/
def queueValues (q : List HuffTree) : Bytes :=
  q.flatMap HuffTree.values

theorem HuffTree.values_length (t : HuffTree) : t.values.length = t.internals + 1 := by
  induction t with
  | leaf v f => rfl
  | node f l r ihl ihr => simp only [HuffTree.values, HuffTree.internals, List.length_append, ihl, ihr]; omega

theorem HuffTree.height_le_internals (t : HuffTree) : t.height ≤ t.internals := by
  induction t with
  | leaf v f => simp [HuffTree.height]
  | node f l r ihl ihr => simp only [HuffTree.height, HuffTree.internals]; omega

theorem queueValues_cons (t : HuffTree) (q : List HuffTree) : queueValues (t :: q) = t.values ++ queueValues q := by
  simp [queueValues]

theorem queueValues_perm {q q' : List HuffTree} (h : q.Perm q') : (queueValues q).Perm (queueValues q') :=
  h.flatMap_right _

theorem mergeTwo_cons (a b : HuffTree) (q : List HuffTree) :
    mergeTwo (a :: b :: q) = some (pqInsert q (.node (a.freq + b.freq) a b)) := rfl

/-- R134: a property of queues that one merge keeps holds of what the loop leaves. -/
theorem mergeLoop_keeps {P : List HuffTree → Prop}
    (hP : ∀ a b q, P (a :: b :: q) → P (pqInsert q (.node (a.freq + b.freq) a b)))
    {n : Nat} {q q' : List HuffTree} (hq : P q) (h : mergeLoop n q = some q') : P q' := by
  induction n generalizing q with
  | zero => simp [mergeLoop] at h; exact h ▸ hq
  | succ n ih =>
    unfold mergeLoop at h
    split at h
    · simp at h; exact h ▸ hq
    · match q, hq, h with
      | a :: b :: q, hq, h => exact ih (hP a b q hq) h
      | [a], _, h => rename_i hl; simp at hl
      | [], _, h => rename_i hl; simp at hl

/-- R132, R134: the loop never extracts from an empty queue, and its bound is enough. -/
theorem mergeLoop_total (n : Nat) (q : List HuffTree) (h : q.length ≤ n + 1) :
    ∃ q', mergeLoop n q = some q' ∧ q'.length = min q.length 1 := by
  induction n generalizing q with
  | zero => exact ⟨q, rfl, by omega⟩
  | succ n ih =>
    unfold mergeLoop
    split
    · exact ⟨q, rfl, by omega⟩
    · match q with
      | a :: b :: q =>
        obtain ⟨q', h1, h2⟩ := ih (pqInsert q (.node (a.freq + b.freq) a b)) (by
          rw [pqInsert_length]; simp at h; omega)
        exact ⟨q', h1, by rw [h2, pqInsert_length]; simp⟩
      | [a] => rename_i hl; simp at hl
      | [] => rename_i hl; simp at hl

/-- R134: TreeBuild ends with at most one entry, and with none only from the empty queue. -/
theorem treeBuild_total (q : List HuffTree) : ∃ q', treeBuild q = some q' ∧ q'.length = min q.length 1 :=
  mergeLoop_total _ _ (by omega)

theorem merge_values_perm (a b : HuffTree) (q : List HuffTree) :
    (queueValues (pqInsert q (.node (a.freq + b.freq) a b))).Perm (queueValues (a :: b :: q)) := by
  refine (queueValues_perm (pqInsert_perm _ _)).trans ?_
  simp [queueValues_cons, HuffTree.values]

/-- R135: merging neither loses nor adds a leaf. -/
theorem treeBuild_values {q q' : List HuffTree} (h : treeBuild q = some q') : (queueValues q').Perm (queueValues q) :=
  mergeLoop_keeps (P := fun p => (queueValues p).Perm (queueValues q))
    (fun a b p hp => (merge_values_perm a b p).trans hp) (List.Perm.refl _) h

/-! ### The fill -/

/-- The leaves PqFill makes for byte values below `n`, in order. -/
def fillLeaves (freq : List Word) (n : Nat) : List HuffTree :=
  ((List.range n).filter (fun v => freq.getD v 0#32 ≠ 0#32)).map (fun v => HuffTree.leaf (BitVec.ofNat 8 v) (freq.getD v 0#32))

theorem pqFill_range_perm (freq : List Word) (n : Nat) :
    ((List.range n).foldl (pqFillStep freq) []).Perm (fillLeaves freq n) := by
  induction n with
  | zero => rfl
  | succ n ih =>
    rw [List.range_succ, List.foldl_append, List.foldl_cons, List.foldl_nil, pqFillStep]
    by_cases h : freq.getD n 0#32 = 0#32
    · rw [if_pos h]
      refine ih.trans (.of_eq ?_)
      rw [fillLeaves, fillLeaves, List.range_succ, List.filter_append, List.filter_cons_of_neg (by simpa using h),
        List.filter_nil, List.append_nil]
    · rw [if_neg h]
      refine (pqInsert_perm _ _).trans ?_
      refine ((ih.cons _).trans (List.perm_append_singleton _ _).symm).trans (.of_eq ?_)
      rw [fillLeaves, fillLeaves, List.range_succ, List.filter_append, List.filter_cons_of_pos (by simpa using h),
        List.filter_nil, List.map_append]
      rfl

/-- R133: one leaf for each byte value with a nonzero count. -/
theorem pqFill_perm (freq : List Word) : (pqFill freq).Perm (fillLeaves freq 256) :=
  pqFill_range_perm freq 256

theorem pqFill_sorted (freq : List Word) : pqSorted (pqFill freq) := by
  unfold pqFill
  have : ∀ (vs : List Nat) (q : List HuffTree), pqSorted q → pqSorted (vs.foldl (pqFillStep freq) q) := by
    intro vs
    induction vs with
    | nil => exact fun q h => h
    | cons v vs ih =>
      intro q h
      refine ih _ ?_
      unfold pqFillStep
      split
      · exact h
      · exact pqInsert_sorted h _
  exact this _ _ List.Pairwise.nil

theorem fillLeaves_values (freq : List Word) (n : Nat) :
    queueValues (fillLeaves freq n) = ((List.range n).filter (fun v => freq.getD v 0#32 ≠ 0#32)).map (BitVec.ofNat 8) := by
  simp only [queueValues, fillLeaves, List.flatMap_map]
  induction (List.range n).filter (fun v => freq.getD v 0#32 ≠ 0#32) with
  | nil => rfl
  | cons v vs ih => rw [List.flatMap_cons, ih]; rfl

theorem ofNat8_inj {a b : Nat} (ha : a < 256) (hb : b < 256) (h : BitVec.ofNat 8 a = BitVec.ofNat 8 b) : a = b := by
  have := congrArg BitVec.toNat h
  simp only [BitVec.toNat_ofNat] at this
  omega

theorem fillLeaves_nodup (freq : List Word) : (queueValues (fillLeaves freq 256)).Nodup := by
  rw [fillLeaves_values]
  refine List.Nodup.map_on ?_ (List.Nodup.filter _ List.nodup_range)
  intro a ha b hb h
  exact ofNat8_inj (List.mem_range.1 (List.mem_of_mem_filter ha)) (List.mem_range.1 (List.mem_of_mem_filter hb)) h

theorem mem_fillLeaves (freq : List Word) (v : Byte) :
    v ∈ queueValues (fillLeaves freq 256) ↔ freq.getD v.toNat 0#32 ≠ 0#32 := by
  rw [fillLeaves_values]
  simp only [List.mem_map, List.mem_filter, List.mem_range, decide_eq_true_eq]
  constructor
  · rintro ⟨a, ⟨ha, hf⟩, rfl⟩
    simpa [Nat.mod_eq_of_lt ha] using hf
  · intro h
    exact ⟨v.toNat, ⟨v.isLt, h⟩, by simp⟩

/-! ### The tree of an input -/

/-- R134: the queue TreeBuild leaves for an input, as a list of at most one tree. -/
theorem treeBuild_input (src : Bytes) :
    treeBuild (pqFill (freqCount src)) = some (treeOf src).toList := by
  obtain ⟨q', h1, h2⟩ := treeBuild_total (pqFill (freqCount src))
  simp only [treeOf, h1, Option.getD_some]
  match q', h2 with
  | [], _ => rfl
  | [t], _ => rfl
  | _ :: _ :: _, h2 => simp at h2; omega

theorem treeOf_values_perm (src : Bytes) :
    (queueValues (treeOf src).toList).Perm (queueValues (fillLeaves (freqCount src) 256)) :=
  (treeBuild_values (treeBuild_input src)).trans (queueValues_perm (pqFill_perm _))

/-- R135: no byte value stands at two leaves. -/
theorem treeOf_nodup {src : Bytes} {t : HuffTree} (h : treeOf src = some t) : t.values.Nodup := by
  have := (treeOf_values_perm src).nodup_iff.2 (fillLeaves_nodup _)
  simpa [h, queueValues] using this

/-- R135: exactly the byte values of the input stand at leaves. -/
theorem treeOf_mem {src : Bytes} (hl : src.length < 2 ^ 32) {t : HuffTree} (h : treeOf src = some t) (v : Byte) :
    v ∈ t.values ↔ v ∈ src := by
  have := (treeOf_values_perm src).mem_iff (a := v)
  rw [mem_fillLeaves, ne_eq, freqCount_eq_zero hl, not_not] at this
  simpa [h, queueValues] using this

theorem HuffTree.values_ne_nil (t : HuffTree) : t.values ≠ [] := by
  intro h
  have := t.values_length
  simp [h] at this

/-- R136: the empty input has no tree, and only the empty input. -/
theorem treeOf_eq_none {src : Bytes} (hl : src.length < 2 ^ 32) : treeOf src = none ↔ src = [] := by
  constructor
  · intro h
    have hm : ∀ v, v ∉ src := by
      intro v
      have := (treeOf_values_perm src).mem_iff (a := v)
      rw [mem_fillLeaves, ne_eq, freqCount_eq_zero hl, not_not] at this
      simpa [h, queueValues] using this
    exact List.eq_nil_iff_forall_not_mem.2 hm
  · rintro rfl
    cases h : treeOf [] with
    | none => rfl
    | some t =>
      obtain ⟨v, hv⟩ := List.exists_mem_of_ne_nil _ t.values_ne_nil
      exact absurd ((treeOf_mem hl h v).1 hv) (by simp)

/-! ### Weights -/

/-- The frequencies of a queue, added exactly. -/
def queueWeight (q : List HuffTree) : Nat :=
  (q.map (fun t => t.freq.toNat)).sum

theorem queueWeight_perm {q q' : List HuffTree} (h : q.Perm q') : queueWeight q = queueWeight q' :=
  (h.map _).sum_eq

theorem queueWeight_cons (t : HuffTree) (q : List HuffTree) : queueWeight (t :: q) = t.freq.toNat + queueWeight q := by
  simp [queueWeight]

/-- R134: with a total below 2^32 no merge wraps: the total and the sums stay exact. -/
theorem merge_weight {a b : HuffTree} {q : List HuffTree} {n : Nat} (hn : n < 2 ^ 32) (h : queueWeight (a :: b :: q) = n) :
    queueWeight (pqInsert q (.node (a.freq + b.freq) a b)) = n ∧ (a.freq + b.freq).toNat = a.freq.toNat + b.freq.toNat := by
  rw [queueWeight_cons, queueWeight_cons] at h
  have hs : (a.freq + b.freq).toNat = a.freq.toNat + b.freq.toNat := by
    rw [BitVec.toNat_add, Nat.mod_eq_of_lt]; omega
  refine ⟨?_, hs⟩
  rw [queueWeight_perm (pqInsert_perm _ _), queueWeight_cons]
  have : (HuffTree.node (a.freq + b.freq) a b).freq = a.freq + b.freq := rfl
  rw [this, hs]
  omega

/-- R135: what TreeBuild leaves has the total of the fill, with exact sums everywhere. -/
theorem treeBuild_weight {count : Byte → Nat} {q q' : List HuffTree} {n : Nat} (hn : n < 2 ^ 32) (hq : queueWeight q = n)
    (hw : ∀ t ∈ q, t.weighted count) (h : treeBuild q = some q') : queueWeight q' = n ∧ ∀ t ∈ q', t.weighted count := by
  refine mergeLoop_keeps (P := fun p => queueWeight p = n ∧ ∀ t ∈ p, t.weighted count) ?_ ⟨hq, hw⟩ h
  rintro a b p ⟨h1, h2⟩
  have h3 := merge_weight hn h1
  refine ⟨h3.1, fun t ht => ?_⟩
  rcases List.mem_cons.1 ((pqInsert_perm _ _).mem_iff.1 ht) with rfl | ht
  · exact ⟨h3.2, h2 a (by simp), h2 b (by simp)⟩
  · exact h2 t (by simp [ht])

end Sys2Proof.Machine
end

