-- ==== Sys2Proof/Laws/CodeBook.lean ====
section
/-! SUPPORT. The code book: each leaf's code is the path to it (40_tree_builder.md R137–R139). -/

namespace Sys2Proof.Machine

theorem codeAbsent_length : codeAbsent.length = 256 :=
  List.length_replicate

theorem codeOf_absent (v : Byte) : codeOf codeAbsent v = none := by
  rw [codeOf, codeAbsent, List.getD_eq_getElem?_getD, List.getElem?_replicate]
  split <;> rfl

theorem codeOf_set {code : List (Option Bits)} (h : code.length = 256) (v w : Byte) (c : Option Bits) :
    codeOf (code.set v.toNat c) w = if w = v then c else codeOf code w := by
  have hv : v.toNat < code.length := by have := v.isLt; omega
  rw [codeOf, codeOf, List.getD_eq_getElem?_getD, List.getD_eq_getElem?_getD, List.getElem?_set]
  by_cases hw : w = v
  · subst hw; simp [hv]
  · rw [if_neg (fun e => hw (BitVec.eq_of_toNat_eq e).symm), if_neg hw]

theorem codeWalk_length (t : HuffTree) (path : Bits) (code : List (Option Bits)) :
    (codeWalk t path code).length = code.length := by
  induction t generalizing path code with
  | leaf v f => simp [codeWalk]
  | node f l r ihl ihr => simp [codeWalk, ihl, ihr]

/-- R137: the walk leaves the entries of values that stand at none of its leaves. -/
theorem codeWalk_other {t : HuffTree} {path : Bits} {code : List (Option Bits)} (h : code.length = 256) {v : Byte}
    (hv : v ∉ t.values) : codeOf (codeWalk t path code) v = codeOf code v := by
  induction t generalizing path code with
  | leaf w f =>
    rw [codeWalk, codeOf_set h, if_neg]
    simpa [HuffTree.values] using hv
  | node f l r ihl ihr =>
    simp only [HuffTree.values, List.mem_append, not_or] at hv
    rw [codeWalk, ihr (by rw [codeWalk_length, h]) hv.2, ihl h hv.1]

/-- R137: the walk records at each leaf's value the path to that leaf. -/
theorem codeWalk_mem {t : HuffTree} {path : Bits} {code : List (Option Bits)} (h : code.length = 256) (hn : t.values.Nodup)
    {v : Byte} (hv : v ∈ t.values) : ∃ c, codeOf (codeWalk t path code) v = some (path ++ c) ∧ t.leadsTo c v := by
  induction t generalizing path code with
  | leaf w f =>
    have : v = w := by simpa [HuffTree.values] using hv
    subst this
    exact ⟨[], by rw [codeWalk, codeOf_set h, if_pos rfl, List.append_nil], rfl, rfl⟩
  | node f l r ihl ihr =>
    simp only [HuffTree.values, List.nodup_append, List.mem_append] at hn hv
    rw [codeWalk]
    rcases hv with hv | hv
    · have hr : v ∉ r.values := fun hr => hn.2.2 v hv v hr rfl
      obtain ⟨c, h1, h2⟩ := ihl (path := path ++ [false]) h hn.1 hv
      refine ⟨false :: c, ?_, by simpa [HuffTree.leadsTo] using h2⟩
      rw [codeWalk_other (by rw [codeWalk_length, h]) hr, h1, List.append_assoc]
      rfl
    · obtain ⟨c, h1, h2⟩ := ihr (path := path ++ [true]) (code := codeWalk l (path ++ [false]) code)
        (by rw [codeWalk_length, h]) hn.2.1 hv
      refine ⟨true :: c, ?_, by simpa [HuffTree.leadsTo] using h2⟩
      rw [h1, List.append_assoc]
      rfl

/-- R139: a path that leads to a leaf is no proper beginning of another that does. -/
theorem HuffTree.leadsTo_prefix_free {t : HuffTree} {c d : Bits} {v w : Byte} (h1 : t.leadsTo c v) (h2 : t.leadsTo (c ++ d) w) :
    d = [] ∧ v = w := by
  induction t generalizing c with
  | leaf x f =>
    obtain ⟨rfl, rfl⟩ := h1
    obtain ⟨h3, rfl⟩ := h2
    exact ⟨by simpa using h3, rfl⟩
  | node f l r ihl ihr =>
    match c with
    | [] => exact absurd h1 (by simp [HuffTree.leadsTo])
    | true :: c => exact ihr (by simpa [HuffTree.leadsTo] using h1) (by simpa [HuffTree.leadsTo] using h2)
    | false :: c => exact ihl (by simpa [HuffTree.leadsTo] using h1) (by simpa [HuffTree.leadsTo] using h2)

/-- R139: a code is no longer than the tree is high. -/
theorem HuffTree.leadsTo_length {t : HuffTree} {c : Bits} {v : Byte} (h : t.leadsTo c v) : c.length ≤ t.height := by
  induction t generalizing c with
  | leaf x f =>
    obtain ⟨rfl, -⟩ := h
    simp
  | node f l r ihl ihr =>
    match c with
    | [] => exact absurd h (by simp [HuffTree.leadsTo])
    | true :: c =>
      have := ihr (c := c) (by simpa [HuffTree.leadsTo] using h)
      simp only [List.length_cons, HuffTree.height]; omega
    | false :: c =>
      have := ihl (c := c) (by simpa [HuffTree.leadsTo] using h)
      simp only [List.length_cons, HuffTree.height]; omega

theorem HuffTree.leadsTo_node_ne_nil {f : Word} {l r : HuffTree} {c : Bits} {v : Byte} (h : (HuffTree.node f l r).leadsTo c v) :
    c ≠ [] := by
  rintro rfl
  exact h

/-- R137: a path leads to a value that stands at a leaf. -/
theorem HuffTree.leadsTo_mem {t : HuffTree} {c : Bits} {b : Byte} (h : t.leadsTo c b) : b ∈ t.values := by
  induction t generalizing c with
  | leaf v f => obtain ⟨_, rfl⟩ := h; simp [HuffTree.values]
  | node f l r ihl ihr =>
    match c with
    | [] => exact absurd h (by simp [HuffTree.leadsTo])
    | true :: c => simp [HuffTree.values, ihr (c := c) (by simpa [HuffTree.leadsTo] using h)]
    | false :: c => simp [HuffTree.values, ihl (c := c) (by simpa [HuffTree.leadsTo] using h)]

/-- R137: with distinct leaf values only one path leads to a value. -/
theorem HuffTree.leadsTo_unique {t : HuffTree} (hn : t.values.Nodup) {c d : Bits} {b : Byte} (h : t.leadsTo c b) (h' : t.leadsTo d b) : c = d := by
  induction t generalizing c d with
  | leaf v f => rw [h.1, h'.1]
  | node f l r ihl ihr =>
    simp only [HuffTree.values, List.nodup_append] at hn
    match c, d with
    | [], _ => exact absurd h (by simp [HuffTree.leadsTo])
    | _, [] => exact absurd h' (by simp [HuffTree.leadsTo])
    | true :: c, true :: d => rw [ihr (c := c) (d := d) hn.2.1 (by simpa [HuffTree.leadsTo] using h) (by simpa [HuffTree.leadsTo] using h')]
    | false :: c, false :: d => rw [ihl (c := c) (d := d) hn.1 (by simpa [HuffTree.leadsTo] using h) (by simpa [HuffTree.leadsTo] using h')]
    | true :: c, false :: d =>
      exact absurd rfl (hn.2.2 b (HuffTree.leadsTo_mem (c := d) (by simpa [HuffTree.leadsTo] using h')) b (HuffTree.leadsTo_mem (c := c) (by simpa [HuffTree.leadsTo] using h)))
    | false :: c, true :: d =>
      exact absurd rfl (hn.2.2 b (HuffTree.leadsTo_mem (c := c) (by simpa [HuffTree.leadsTo] using h)) b (HuffTree.leadsTo_mem (c := d) (by simpa [HuffTree.leadsTo] using h')))

theorem codeBook_length (root : Option HuffTree) : (codeBook root).length = 256 := by
  match root with
  | none => exact codeAbsent_length
  | some (.leaf v f) => rw [codeBook, List.length_set, codeAbsent_length]
  | some (.node f l r) => rw [codeBook, codeWalk_length, codeAbsent_length]

/-- R137: the code book of a tree with an internal root gives each leaf's value the path to it. -/
theorem codeBook_node {f : Word} {l r : HuffTree} (hn : (HuffTree.node f l r).values.Nodup) {v : Byte}
    (hv : v ∈ (HuffTree.node f l r).values) :
    ∃ c, codeOf (codeBook (some (.node f l r))) v = some c ∧ (HuffTree.node f l r).leadsTo c v := by
  obtain ⟨c, h1, h2⟩ := codeWalk_mem (path := []) codeAbsent_length hn hv
  exact ⟨c, h1, h2⟩

/-- R137: a value that stands at no leaf has no code. -/
theorem codeBook_absent {t : HuffTree} {v : Byte} (hv : v ∉ t.values) : codeOf (codeBook (some t)) v = none := by
  match t with
  | .leaf w f =>
    have : v ≠ w := by simpa [HuffTree.values] using hv
    rw [codeBook, codeOf_set codeAbsent_length, if_neg this, codeOf_absent]
  | .node f l r =>
    rw [codeBook, codeWalk_other codeAbsent_length hv, codeOf_absent]

/-- R137, R138: every leaf's value has a code, and it is not empty. -/
theorem codeBook_some {t : HuffTree} (hn : t.values.Nodup) {v : Byte} (hv : v ∈ t.values) :
    ∃ c, codeOf (codeBook (some t)) v = some c ∧ c ≠ [] := by
  match t with
  | .leaf w f =>
    have : v = w := by simpa [HuffTree.values] using hv
    exact ⟨[false], by rw [codeBook, codeOf_set codeAbsent_length, if_pos this], by simp⟩
  | .node f l r =>
    obtain ⟨c, h1, h2⟩ := codeBook_node hn hv
    exact ⟨c, h1, HuffTree.leadsTo_node_ne_nil h2⟩

/-- R137: COMPRESS finds a code for every byte of its input. -/
theorem inputCode_some {src : Bytes} (hl : src.length < 2 ^ 32) {b : Byte} (hb : b ∈ src) :
    ∃ c, codeOf (codeBook (treeOf src)) b = some c ∧ c ≠ [] := by
  cases h : treeOf src with
  | none =>
    rw [treeOf_eq_none hl] at h
    simp [h] at hb
  | some t => exact codeBook_some (treeOf_nodup h) ((treeOf_mem hl h b).2 hb)

end Sys2Proof.Machine
end

