-- ==== Sys2Proof/Laws/Serializer.lean ====
section
/-! SUPPORT. The tree stream: its length, and reading back what was written (41_tree_serializer.md R170–R177). -/

namespace Sys2Proof.Machine

@[simp] theorem unweighted_values (t : HuffTree) : t.unweighted.values = t.values := by
  induction t with
  | leaf v f => rfl
  | node f l r ihl ihr => simp [HuffTree.unweighted, HuffTree.values, ihl, ihr]

theorem unweighted_leadsTo (t : HuffTree) (c : Bits) (v : Byte) : t.unweighted.leadsTo c v ↔ t.leadsTo c v := by
  induction t generalizing c with
  | leaf w f => rfl
  | node f l r ihl ihr =>
    match c with
    | [] => rfl
    | true :: c => simpa [HuffTree.unweighted, HuffTree.leadsTo] using ihr c
    | false :: c => simpa [HuffTree.unweighted, HuffTree.leadsTo] using ihl c

/-- R100: one byte for each internal node and leaf, and one more for each escaped leaf. -/
theorem serTree_length (t : HuffTree) : (serTree t).length = t.internals + t.values.length + t.escaped := by
  induction t with
  | leaf v f =>
    by_cases h : v = mark ∨ v = esc
    · simp [serTree, HuffTree.internals, HuffTree.values, HuffTree.escaped, h]
    · simp [serTree, HuffTree.internals, HuffTree.values, HuffTree.escaped, h]
  | node f l r ihl ihr =>
    simp only [serTree, List.length_cons, List.length_append, ihl, ihr, HuffTree.internals, HuffTree.values, HuffTree.escaped,
      List.countP_append]
    omega

theorem serTree_pos (t : HuffTree) : 0 < (serTree t).length := by
  rw [serTree_length, t.values_length]
  omega

/-- At most 256 bytes differ from each other. -/
theorem nodup_bytes_length {vs : Bytes} (h : vs.Nodup) : vs.length ≤ 256 := by
  have h1 : (vs.map BitVec.toFin).Nodup := h.map (fun a b e => BitVec.eq_of_toFin_eq e)
  have h2 := h1.length_le_card
  simpa using h2

theorem nodup_countP_two {vs : Bytes} (h : vs.Nodup) (a b : Byte) : vs.countP (fun v => v = a ∨ v = b) ≤ 2 := by
  rw [List.countP_eq_length_filter]
  have hn : (vs.filter (fun v => decide (v = a ∨ v = b))).Nodup := h.filter _
  have hs : vs.filter (fun v => decide (v = a ∨ v = b)) ⊆ [a, b] := by
    intro v hv
    simpa using (List.mem_filter.1 hv).2
  simpa using (hn.subperm hs).length_le

/-- R172: the tree stream of a tree with no value at two leaves has at most 513 bytes. -/
theorem serTree_le {t : HuffTree} (h : t.values.Nodup) : (serTree t).length ≤ 513 := by
  have h1 := nodup_bytes_length h
  have h2 := t.values_length
  have h3 : t.escaped ≤ 2 := nodup_countP_two h _ _
  rw [serTree_length]
  omega

/-- R140: a tree with no value at two leaves has at most 511 nodes and height at most 255. -/
theorem tree_bounds {t : HuffTree} (h : t.values.Nodup) : t.internals + t.values.length ≤ 511 ∧ t.height ≤ 255 := by
  have h1 := nodup_bytes_length h
  have h2 := t.values_length
  have h3 := t.height_le_internals
  omega

theorem deserNode_cons (n : Nat) (b : Byte) (rest : Bytes) :
    deserNode (n + 1) (b :: rest) =
      if b = esc then
        match rest with
        | [] => none
        | v :: rest => some (.leaf v 0#32, rest)
      else if b = mark then (do
        let (l, rest) ← deserNode n rest
        let (r, rest) ← deserNode n rest
        return (.node 0#32 l r, rest))
      else some (.leaf b 0#32, rest) := rfl

theorem deserNode_mark (n : Nat) (rest : Bytes) :
    deserNode (n + 1) (mark :: rest) = (do
      let (l, rest) ← deserNode n rest
      let (r, rest) ← deserNode n rest
      return (.node 0#32 l r, rest)) := rfl

/-- R177: the deserializer reads back a serialized tree and stops behind it. -/
theorem deserNode_serTree (t : HuffTree) (rest : Bytes) (n : Nat) (hn : (serTree t ++ rest).length ≤ n) :
    deserNode n (serTree t ++ rest) = some (t.unweighted, rest) := by
  induction t generalizing rest n with
  | leaf v f =>
    obtain ⟨n, rfl⟩ : ∃ m, n = m + 1 := ⟨n - 1, by
      have := serTree_pos (.leaf v f)
      simp only [List.length_append] at hn; omega⟩
    by_cases h : v = mark ∨ v = esc
    · simp [serTree, h, deserNode, HuffTree.unweighted]
    · have h' := not_or.1 h
      simp [serTree, deserNode, h'.1, h'.2, HuffTree.unweighted]
  | node f l r ihl ihr =>
    obtain ⟨n, rfl⟩ : ∃ m, n = m + 1 := ⟨n - 1, by
      have := serTree_pos (.node f l r)
      simp only [List.length_append] at hn; omega⟩
    simp only [serTree, List.cons_append, List.append_assoc, List.length_cons] at hn ⊢
    have hl : deserNode n (serTree l ++ (serTree r ++ rest)) = some (l.unweighted, serTree r ++ rest) :=
      ihl _ n (by simpa [List.length_append, Nat.add_assoc] using Nat.le_of_succ_le_succ hn)
    have hr : deserNode n (serTree r ++ rest) = some (r.unweighted, rest) :=
      ihr _ n (by simp only [List.length_append] at hn ⊢; omega)
    rw [deserNode_mark, hl]
    simp [hr, HuffTree.unweighted]

/-- R177: `DeserializeTree(Serialize(root))` gives the tree back with nothing of the budget left. -/
theorem deserializeTree_serialize (root : Option HuffTree) :
    deserializeTree (serialize root) = some (root.map HuffTree.unweighted) := by
  match root with
  | none => rfl
  | some t =>
    have h := deserNode_serTree t [] (serTree t).length (by simp)
    rw [List.append_nil] at h
    have hp := serTree_pos t
    have hne : serTree t ≠ [] := fun e => by simp [e] at hp
    rw [serialize, deserializeTree, if_neg hne, h]
    rfl

end Sys2Proof.Machine
end

