-- ==== Sys2Proof/Laws/Packer.lean ====
section
/-! SUPPORT. The payload as a bit string: packing and unpacking (30_encoding.md R101, 42_bit_packer.md R200–R210). -/

namespace Sys2Proof.Machine

/-! ### Bytes and bits -/

theorem length_eight {p : Bits} (h : p.length = 8) :
    ∃ b0 b1 b2 b3 b4 b5 b6 b7, p = [b0, b1, b2, b3, b4, b5, b6, b7] := by
  match p, h with
  | [b0, b1, b2, b3, b4, b5, b6, b7], _ => exact ⟨b0, b1, b2, b3, b4, b5, b6, b7, rfl⟩

theorem streamBits_eight : ∀ b0 b1 b2 b3 b4 b5 b6 b7 : Bool,
    streamBits (byteOfBits [b0, b1, b2, b3, b4, b5, b6, b7]) = [b0, b1, b2, b3, b4, b5, b6, b7] := by
  decide

/-- R61: eight bits packed into a byte are read back in the same order. -/
theorem streamBits_byteOfBits {p : Bits} (h : p.length = 8) : streamBits (byteOfBits p) = p := by
  obtain ⟨b0, b1, b2, b3, b4, b5, b6, b7, rfl⟩ := length_eight h
  exact streamBits_eight ..

theorem streamBits_length (b : Byte) : (streamBits b).length = 8 := by
  simp [streamBits]

theorem payloadBits_cons (b : Byte) (bs : Bytes) : payloadBits (b :: bs) = streamBits b ++ payloadBits bs := by
  simp [payloadBits]

theorem payloadBits_length (bs : Bytes) : (payloadBits bs).length = 8 * bs.length := by
  induction bs with
  | nil => rfl
  | cons b bs ih => rw [payloadBits_cons, List.length_append, streamBits_length, ih, List.length_cons]; omega

/-! ### Packing -/

theorem packBytes_nil : packBytes [] = [] := rfl

theorem packBytes_full {p : Bits} (h : p.length = 8) (rest : Bits) :
    packBytes (p ++ rest) = byteOfBits p :: packBytes rest := by
  obtain ⟨b0, b1, b2, b3, b4, b5, b6, b7, rfl⟩ := length_eight h
  rfl

theorem packBytes_short {p : Bits} (h0 : 0 < p.length) (h8 : p.length < 8) :
    packBytes p = [byteOfBits (p ++ List.replicate (8 - p.length) false)] := by
  match p, h0, h8 with
  | [_], _, _ => rfl
  | [_, _], _, _ => rfl
  | [_, _, _], _, _ => rfl
  | [_, _, _, _], _, _ => rfl
  | [_, _, _, _, _], _, _ => rfl
  | [_, _, _, _, _, _], _, _ => rfl
  | [_, _, _, _, _, _, _], _, _ => rfl
  | _ :: _ :: _ :: _ :: _ :: _ :: _ :: _ :: _, _, h8 => simp at h8; omega

/-- A bit string is empty, shorter than a byte, or a byte's bits and a rest: the induction all packing laws use. -/
theorem bits_induction {P : Bits → Prop} (nil : P []) (short : ∀ p, 0 < p.length → p.length < 8 → P p)
    (full : ∀ p rest, p.length = 8 → P rest → P (p ++ rest)) (bits : Bits) : P bits := by
  have : ∀ n (bits : Bits), bits.length ≤ n → P bits := by
    intro n
    induction n with
    | zero => intro bits h; simp at h; exact h ▸ nil
    | succ n ih =>
      intro bits h
      by_cases h0 : bits.length = 0
      · simp at h0; exact h0 ▸ nil
      · by_cases h8 : bits.length < 8
        · exact short bits (by omega) h8
        · have := full (bits.take 8) (bits.drop 8) (by simp; omega) (ih _ (by simp; omega))
          rwa [List.take_append_drop] at this
  exact this bits.length bits (le_refl _)

/-- R202: `P = ceil(T / 8)`. -/
theorem packBytes_length (bits : Bits) : (packBytes bits).length = (bits.length + 7) / 8 := by
  refine bits_induction (P := fun bits => (packBytes bits).length = (bits.length + 7) / 8) rfl ?_ ?_ bits
  · intro p h0 h8
    rw [packBytes_short h0 h8, List.length_singleton]
    omega
  · intro p rest h ih
    rw [packBytes_full h, List.length_cons, ih, List.length_append, h]
    omega

/-- R201: the garbage count is at most 7. -/
theorem garbageCount_lt (t : Nat) : garbageCount t < 8 := by
  unfold garbageCount
  omega

/-- R201, R202: `8·P = T + g`. -/
theorem packBytes_bits (bits : Bits) : 8 * (packBytes bits).length = bits.length + garbageCount bits.length := by
  rw [packBytes_length]
  unfold garbageCount
  omega

/-- R61, R101, R201: the payload's bits are the code bits in order, then `g` zero bits. -/
theorem payloadBits_packBytes (bits : Bits) :
    payloadBits (packBytes bits) = bits ++ List.replicate (garbageCount bits.length) false := by
  refine bits_induction
    (P := fun bits => payloadBits (packBytes bits) = bits ++ List.replicate (garbageCount bits.length) false) rfl ?_ ?_ bits
  · intro p h0 h8
    have hg : garbageCount p.length = 8 - p.length := by unfold garbageCount; omega
    rw [packBytes_short h0 h8, payloadBits_cons, streamBits_byteOfBits (by simp; omega), hg]
    simp [payloadBits]
  · intro p rest h ih
    have hg : garbageCount (p ++ rest).length = garbageCount rest.length := by
      unfold garbageCount
      rw [List.length_append, h]
      omega
    rw [packBytes_full h, payloadBits_cons, streamBits_byteOfBits h, ih, hg, List.append_assoc]

/-! ### Unpacking codes -/

/-- R204: the bits of a code lead the cursor to its leaf, which is emitted, and the cursor goes back to the root. -/
theorem unpackBits_code (rootL rootR : HuffTree) {f : Word} {l r : HuffTree} {c : Bits} {v : Byte} (mid : Bool) (rest : Bits)
    (h : (HuffTree.node f l r).leadsTo c v) :
    unpackBits rootL rootR l r mid (c ++ rest) =
      (v :: (unpackBits rootL rootR rootL rootR false rest).1, (unpackBits rootL rootR rootL rootR false rest).2) := by
  induction c generalizing f l r mid with
  | nil => exact absurd h (by simp [HuffTree.leadsTo])
  | cons bit c ih =>
    rw [List.cons_append, unpackBits]
    have h' : (if bit then r else l).leadsTo c v := by
      cases bit <;> simpa [HuffTree.leadsTo] using h
    cases ht : (if bit then r else l) with
    | leaf w g =>
      rw [ht] at h'
      obtain ⟨rfl, rfl⟩ := h'
      rfl
    | node g l' r' =>
      rw [ht] at h'
      exact ih true h'

/-- R204, R102: unpacking the codes of a byte string with the tree they come from emits the byte string and ends at the root. -/
theorem unpackBits_codeBits {f : Word} {l r : HuffTree} {code : List (Option Bits)} (src : Bytes)
    (h : ∀ b ∈ src, ∃ c, codeOf code b = some c ∧ (HuffTree.node f l r).leadsTo c b) :
    unpackBits l r l r false (codeBits code src) = (src, false) := by
  induction src with
  | nil => rfl
  | cons b src ih =>
    obtain ⟨c, h1, h2⟩ := h b (by simp)
    have : codeBits code (b :: src) = c ++ codeBits code src := by simp [codeBits, h1]
    rw [this, unpackBits_code l r false _ h2, ih (fun x hx => h x (by simp [hx]))]

/-- R209: each emitted byte takes at least one bit. -/
theorem unpackBits_length (rootL rootR l r : HuffTree) (mid : Bool) (bits : Bits) :
    (unpackBits rootL rootR l r mid bits).1.length ≤ bits.length := by
  induction bits generalizing l r mid with
  | nil => simp [unpackBits]
  | cons bit bits ih =>
    rw [unpackBits]
    split
    · simpa using ih rootL rootR false
    · exact (ih _ _ true).trans (by simp)

end Sys2Proof.Machine
end

