-- ==== Sys2Proof/Laws/Codec.lean ====
section
/-! SUPPORT. The header's fields and the parts of a container (43_container_codec.md R230, R231; 30_encoding.md R93–R97). -/

namespace Sys2Proof.Machine

/-- R97, R230: the garbage count of a packed header. -/
theorem headerGarbage_pack (g : BitVec 3) (ts : BitVec 13) : headerGarbage (headerPack g ts) = g := by
  apply BitVec.eq_of_getLsbD_eq
  intro i hi
  have h2 : 13 + i < 16 := by omega
  simp [headerGarbage, headerPack, hi, h2]

/-- R97, R230: the tree size of a packed header. -/
theorem headerTreeSize_pack (g : BitVec 3) (ts : BitVec 13) : headerTreeSize (headerPack g ts) = ts := by
  apply BitVec.eq_of_getLsbD_eq
  intro i hi
  have h2 : i < 16 := by omega
  simp [headerTreeSize, headerPack, hi, h2]

/-- R230, R97: every header is the packing of its own fields. -/
theorem headerPack_fields (h : BitVec 16) : headerPack (headerGarbage h) (headerTreeSize h) = h := by
  apply BitVec.eq_of_getLsbD_eq
  intro i hi
  by_cases h13 : i < 13
  · simp [headerGarbage, headerTreeSize, headerPack, h13, hi]
  · have : 13 + (i - 13) = i := by omega
    have h3 : i - 13 < 3 := by omega
    simp [headerGarbage, headerTreeSize, headerPack, h13, hi, h3, this]

/-- R60, R97: the two stored bytes give the header back. -/
theorem headerOfBytes_split (h : BitVec 16) : headerOfBytes (headerHigh h) (headerLow h) = h := by
  apply BitVec.eq_of_getLsbD_eq
  intro i hi
  by_cases h8 : i < 8
  · simp [headerOfBytes, headerHigh, headerLow, h8, hi]
  · have : 8 + (i - 8) = i := by omega
    have h3 : i - 8 < 8 := by omega
    simp [headerOfBytes, headerHigh, headerLow, h8, hi, h3, this]

/-- R172: the tree stream of an input is short enough for the 13-bit field. -/
theorem serialize_treeOf_length (src : Bytes) : (serialize (treeOf src)).length ≤ 513 := by
  cases h : treeOf src with
  | none => simp [serialize]
  | some t => exact serTree_le (treeOf_nodup h)

theorem containerHeader_garbage (src : Bytes) :
    (headerGarbage (containerHeader src)).toNat = garbageCount (inputBits src).length := by
  have := garbageCount_lt (inputBits src).length
  rw [containerHeader, headerGarbage_pack, BitVec.toNat_ofNat]
  omega

theorem containerHeader_treeSize (src : Bytes) :
    (headerTreeSize (containerHeader src)).toNat = (serialize (treeOf src)).length := by
  have := serialize_treeOf_length src
  rw [containerHeader, headerTreeSize_pack, BitVec.toNat_ofNat]
  omega

theorem container_length (src : Bytes) :
    (container src).length = 4 + (serialize (treeOf src)).length + (packBytes (inputBits src)).length := by
  simp [container]
  omega

end Sys2Proof.Machine
end

