-- ==== Sys2Proof/Laws/Counts.lean ====
section
/-! SUPPORT. Counting an input by byte value, the order of the filled queue, and the loop of TreeBuild merge by merge
(40_tree_builder.md R130, R133, R134, R136). -/

namespace Sys2Proof.Machine

/-- A sum over the byte values in which one value counts. -/
theorem sum_single (x : Byte) (w : Byte → Nat) :
    ((List.range 256).map (fun v => if x = BitVec.ofNat 8 v then w (BitVec.ofNat 8 v) else 0)).sum = w x := by
  have h : (fun v => if x = BitVec.ofNat 8 v then w (BitVec.ofNat 8 v) else 0) = (fun v => if x = BitVec.ofNat 8 v then w x else 0) := by
    funext v
    split
    · rename_i h; rw [← h]
    · rfl
  have : ∀ x : Byte, (List.range 256).countP (fun v => decide (x = BitVec.ofNat 8 v)) = 1 := by decide +kernel
  rw [h]
  have hs : ∀ l : List Nat, (l.map (fun v => if x = BitVec.ofNat 8 v then w x else 0)).sum = l.countP (fun v => decide (x = BitVec.ofNat 8 v)) * w x := by
    intro l
    induction l with
    | nil => simp
    | cons a l ih =>
      rw [List.map_cons, List.sum_cons, ih, List.countP_cons]
      by_cases h : x = BitVec.ofNat 8 a <;> simp [h, Nat.add_mul, Nat.add_comm]
  rw [hs, this, Nat.one_mul]

/-- A sum over an input, collected by byte value. -/
theorem sum_by_value (src : Bytes) (w : Byte → Nat) :
    ((List.range 256).map (fun v => src.count (BitVec.ofNat 8 v) * w (BitVec.ofNat 8 v))).sum = (src.map w).sum := by
  induction src with
  | nil =>
    have h : (fun v => ([] : Bytes).count (BitVec.ofNat 8 v) * w (BitVec.ofNat 8 v)) = fun _ => 0 := by
      funext v
      rw [List.count_nil, Nat.zero_mul]
    rw [h, List.map_const', List.sum_replicate, smul_zero]
    rfl
  | cons x src ih =>
    have h : (fun v => (x :: src).count (BitVec.ofNat 8 v) * w (BitVec.ofNat 8 v)) =
        (fun v => src.count (BitVec.ofNat 8 v) * w (BitVec.ofNat 8 v) + (if x = BitVec.ofNat 8 v then w (BitVec.ofNat 8 v) else 0)) := by
      funext v
      rw [List.count_cons, Nat.add_mul]
      by_cases h : x = BitVec.ofNat 8 v <;> simp [h]
    rw [h, List.sum_map_add, ih, sum_single, List.map_cons, List.sum_cons, Nat.add_comm]

theorem freqCount_sum {src : Bytes} (h : src.length < 2 ^ 32) : ((freqCount src).map BitVec.toNat).sum = src.length := by
  have h1 : (freqCount src).map BitVec.toNat = (List.range 256).map (fun v => src.count (BitVec.ofNat 8 v) * 1) := by
    apply List.ext_getElem
    · simp [freqCount_length]
    · intro i hi1 hi2
      have hi : i < 256 := by simpa using hi2
      have := freqCount_toNat h (BitVec.ofNat 8 i)
      rw [BitVec.toNat_ofNat, Nat.mod_eq_of_lt hi, List.getD_eq_getElem?_getD, List.getElem?_eq_getElem (by rw [freqCount_length]; exact hi)] at this
      simpa using this
  rw [h1, sum_by_value src (fun _ => 1)]
  simp

/-- R133: among leaves, ascending frequency and then descending value. -/
def fillOrder (a b : HuffTree) : Prop :=
  ∃ v w f g, a = .leaf v f ∧ b = .leaf w g ∧ (f < g ∨ (f = g ∧ w < v))

theorem pqInsert_fillOrder {q : List HuffTree} (h : q.Pairwise fillOrder) (v : Byte) (f : Word)
    (hq : ∀ t ∈ q, ∃ w g, t = .leaf w g ∧ w < v) : (pqInsert q (.leaf v f)).Pairwise fillOrder := by
  induction q with
  | nil => simp [pqInsert]
  | cons t q ih =>
    obtain ⟨w, g, rfl, hw⟩ := hq t (by simp)
    have h' := List.pairwise_cons.1 h
    unfold pqInsert
    split
    · rename_i hn
      have hn : f ≤ g := hn
      refine List.pairwise_cons.2 ⟨fun x hx => ?_, h⟩
      obtain ⟨w', g', rfl, hw'⟩ := hq x hx
      refine ⟨v, w', f, g', rfl, rfl, ?_⟩
      have hle : f ≤ g' := by
        rcases List.mem_cons.1 hx with hx | hx
        · cases hx; exact hn
        · obtain ⟨_, _, _, _, e1, e2, h3⟩ := h'.1 _ hx
          cases e1; cases e2
          rcases h3 with h3 | h3
          · exact BitVec.le_trans hn (BitVec.le_of_lt h3)
          · rw [← h3.1]; exact hn
      by_cases h1 : f = g'
      · exact .inr ⟨h1, hw'⟩
      · exact .inl (BitVec.lt_of_le_ne hle h1)
    · rename_i hn
      have hn : g < f := BitVec.not_le.1 hn
      refine List.pairwise_cons.2 ⟨fun x hx => ?_, ih h'.2 (fun t ht => hq t (by simp [ht]))⟩
      rcases List.mem_cons.1 ((pqInsert_perm q _).mem_iff.1 hx) with rfl | hx
      · exact ⟨w, v, g, f, rfl, rfl, .inl hn⟩
      · exact h'.1 x hx

theorem pqFill_order (freq : List Word) : (pqFill freq).Pairwise fillOrder := by
  have : ∀ n ≤ 256, ((List.range n).foldl (pqFillStep freq) []).Pairwise fillOrder := by
    intro n
    induction n with
    | zero => exact fun _ => List.Pairwise.nil
    | succ n ih =>
      intro hn
      rw [List.range_succ, List.foldl_append, List.foldl_cons, List.foldl_nil, pqFillStep]
      split
      · exact ih (by omega)
      · refine pqInsert_fillOrder (ih (by omega)) _ _ fun t ht => ?_
        have := (pqFill_range_perm freq n).mem_iff.1 ht
        simp only [fillLeaves, List.mem_map, List.mem_filter, List.mem_range] at this
        obtain ⟨a, ⟨ha, _⟩, rfl⟩ := this
        refine ⟨_, _, rfl, ?_⟩
        rw [BitVec.lt_def, BitVec.toNat_ofNat, BitVec.toNat_ofNat]
        omega
  exact this 256 (Nat.le_refl _)

/-- R134: a merge of a queue in the loop. -/
theorem treeBuild_step (a b : HuffTree) (q : List HuffTree) :
    treeBuild (a :: b :: q) = treeBuild (pqInsert q (.node (a.freq + b.freq) a b)) := by
  unfold treeBuild
  rw [pqInsert_length]
  show mergeLoop (q.length + 1 + 1) (a :: b :: q) = _
  rw [mergeLoop, if_neg (by simp), mergeTwo_cons, Option.bind_some]

/-- R136: the tree is a single leaf exactly for an input of one byte value. -/
theorem treeOf_oneSymbol {src : Bytes} (hl : src.length < 2 ^ 32) : isSingleLeaf (treeOf src) = oneSymbol src := by
  cases h : treeOf src with
  | none =>
    rw [(treeOf_eq_none hl).1 h]
    rfl
  | some t =>
    have hn := treeOf_nodup h
    have hm := treeOf_mem hl h
    have hperm : t.values.Perm src.dedup := (List.perm_ext_iff_of_nodup hn (List.nodup_dedup _)).2 (by simpa using hm)
    rw [oneSymbol, ← hperm.length_eq, HuffTree.values_length]
    cases t <;> simp [isSingleLeaf, HuffTree.internals]

end Sys2Proof.Machine
end

