-- ==== Sys2Proof/Laws/Decode.lean ====
section
/-! SUPPORT. The decoder and the encoder (30_encoding.md R90–R92). -/

namespace Sys2Proof

theorem opField_encodeWith (ign : BitVec 28) (i : Instr) : opField (encodeWith ign i) = i.op := by
  apply BitVec.eq_of_getLsbD_eq
  intro k hk
  have h : (encodeWith ign i).getLsbD k = i.op.getLsbD k := (BitVec.getLsbD_append (x := ign) (y := i.op)).trans (if_pos hk)
  simpa [opField, hk] using h

/-- R91: the opcode of what an opcode decodes to is that opcode. -/
theorem decodeOp_op (op : BitVec 4) : (decodeOp op).op = op := by
  revert op
  decide

theorem decodeOp_wellFormed (op : BitVec 4) : (decodeOp op).wellFormed = true := by
  revert op
  decide

/-- R91: each command is what its opcode decodes to. -/
theorem decodeOp_of_op (i : Instr) (h : i.wellFormed = true) : decodeOp i.op = i := by
  cases i with
  | nop => rfl
  | compress => rfl
  | decompress => rfl
  | reserved3 => rfl
  | reserved4to7 op => revert op; decide
  | reserved8toF op => revert op; decide

/-- R90: a word is its ignored bits and its opcode. -/
theorem word_split (w : Word) : (w.extractLsb' 4 28 ++ opField w : Word) = w := by
  apply BitVec.eq_of_getLsbD_eq
  intro k hk
  refine (BitVec.getLsbD_append (x := w.extractLsb' 4 28) (y := opField w)).trans ?_
  by_cases h : k < 4
  · simp [opField, h]
  · have h4 : 4 + (k - 4) = k := by omega
    have h28 : k - 4 < 28 := by omega
    simp [h, h4, h28]

theorem decode_op (w : Word) : (decode w).op = opField w :=
  decodeOp_op (opField w)

theorem decode_wellFormed (w : Word) : (decode w).wellFormed = true :=
  decodeOp_wellFormed (opField w)

/-- Only NOP has opcode 0. -/
theorem op_eq_zero {i : Instr} (h : i.wellFormed = true) : i.op = 0#4 ↔ i = .nop := by
  cases i with
  | nop => simp [Instr.op]
  | compress => decide
  | decompress => decide
  | reserved3 => decide
  | reserved4to7 op => revert op; decide
  | reserved8toF op => revert op; decide

end Sys2Proof
end

