-- ==== Sys2Proof/Laws/Memory.lean ====
section
/-! SUPPORT. The byte memories: reading after storing, and the canonical form that every store keeps (20_memory.md R64–R70). -/

namespace Sys2Proof.Machine

@[simp] theorem Memory.lookup_nil (i : Nat) : Memory.lookup [] i = none := rfl

theorem Memory.lookup_cons (a : Nat) (b : Byte) (m : Memory) (i : Nat) :
    Memory.lookup ((a, b) :: m) i = if a = i then some b else Memory.lookup m i := rfl

/-- Nothing is listed below the first index of a canonical memory. -/
theorem Memory.lookup_none_of_lt {m : Memory} {i : Nat} (h : ∀ c ∈ m, i < c.1) : Memory.lookup m i = none := by
  induction m with
  | nil => rfl
  | cons c m ih =>
    obtain ⟨a, b⟩ := c
    have ha := h (a, b) (by simp)
    rw [Memory.lookup_cons, if_neg (by simp at ha; omega)]
    exact ih (fun c hc => h c (by simp [hc]))

/-- R64: an index reads as the byte last stored there, and every other index reads as before. -/
theorem Memory.lookup_store {m : Memory} (hm : Memory.wf m) (i j : Nat) (v : Byte) :
    Memory.lookup (Memory.store m i v) j = if j = i then some v else Memory.lookup m j := by
  induction m with
  | nil =>
    simp only [Memory.store, Memory.lookup_cons, Memory.lookup_nil, eq_comm]
  | cons c m ih =>
    obtain ⟨a, b⟩ := c
    have hm' := List.pairwise_cons.1 hm
    have ih := ih hm'.2
    unfold Memory.store
    by_cases hia : i < a
    · rw [if_pos hia, Memory.lookup_cons]
      simp only [eq_comm]
    · rw [if_neg hia]
      by_cases hEq : i = a
      · subst hEq
        rw [if_pos rfl, Memory.lookup_cons, Memory.lookup_cons]
        by_cases hj : j = i
        · simp [hj]
        · simp [hj, Ne.symm hj]
      · rw [if_neg hEq, Memory.lookup_cons, Memory.lookup_cons, ih]
        by_cases hj : a = j
        · subst hj; simp [Ne.symm hEq]
        · simp [hj]

theorem Memory.mem_store {m : Memory} {i : Nat} {v : Byte} {c : Host.Cell} (h : c ∈ Memory.store m i v) :
    c.1 = i ∨ c ∈ m := by
  induction m with
  | nil => simp [Memory.store] at h; simp [h]
  | cons d m ih =>
    obtain ⟨a, b⟩ := d
    unfold Memory.store at h
    split at h
    · rcases List.mem_cons.1 h with rfl | h
      · exact .inl rfl
      · exact .inr h
    · split at h
      · rcases List.mem_cons.1 h with rfl | h
        · exact .inl rfl
        · exact .inr (by simp [h])
      · rcases List.mem_cons.1 h with rfl | h
        · exact .inr (by simp)
        · rcases ih h with h | h
          · exact .inl h
          · exact .inr (by simp [h])

/-- A store keeps the canonical form. -/
theorem Memory.store_wf {m : Memory} (hm : Memory.wf m) (i : Nat) (v : Byte) : Memory.wf (Memory.store m i v) := by
  induction m with
  | nil => simp [Memory.store, Memory.wf]
  | cons c m ih =>
    obtain ⟨a, b⟩ := c
    have hm' := List.pairwise_cons.1 hm
    unfold Memory.store
    split
    · rename_i h
      refine List.pairwise_cons.2 ⟨fun c hc => ?_, hm⟩
      rcases List.mem_cons.1 hc with rfl | hc
      · exact h
      · exact lt_trans h (hm'.1 c hc)
    · split
      · rename_i h1 h2
        subst h2
        exact List.pairwise_cons.2 ⟨hm'.1, hm'.2⟩
      · rename_i h1 h2
        refine List.pairwise_cons.2 ⟨fun c hc => ?_, ih hm'.2⟩
        rcases Memory.mem_store hc with h | h
        · simp only [h]; omega
        · exact hm'.1 c h

/-- A store below the capacity keeps every listed index below it. -/
theorem Memory.store_below {m : Memory} {cap i : Nat} (hm : Memory.below m cap) (hi : i < cap) (v : Byte) :
    Memory.below (Memory.store m i v) cap := by
  intro c hc
  rcases Memory.mem_store hc with h | h
  · omega
  · exact hm c h

/-- Stores of a byte string at consecutive indices. -/
def Memory.storeAll : Memory → Nat → Bytes → Memory
  | m, _, [] => m
  | m, i, v :: vs => Memory.storeAll (Memory.store m i v) (i + 1) vs

theorem Memory.storeAll_append (m : Memory) (i : Nat) (vs ws : Bytes) :
    Memory.storeAll m i (vs ++ ws) = Memory.storeAll (Memory.storeAll m i vs) (i + vs.length) ws := by
  induction vs generalizing m i with
  | nil => rfl
  | cons v vs ih =>
    simp only [List.cons_append, Memory.storeAll, ih, List.length_cons]
    congr 1
    omega

theorem Memory.storeAll_wf {m : Memory} (hm : Memory.wf m) (i : Nat) (vs : Bytes) : Memory.wf (Memory.storeAll m i vs) := by
  induction vs generalizing m i with
  | nil => exact hm
  | cons v vs ih => exact ih (Memory.store_wf hm i v) (i + 1)

theorem Memory.storeAll_below {m : Memory} {cap i : Nat} {vs : Bytes} (hm : Memory.below m cap)
    (hi : vs = [] ∨ i + vs.length ≤ cap) : Memory.below (Memory.storeAll m i vs) cap := by
  induction vs generalizing m i with
  | nil => exact hm
  | cons v vs ih =>
    have hi : i + (vs.length + 1) ≤ cap := by simpa using hi
    exact ih (Memory.store_below hm (by omega) v) (.inr (by omega))

/-- R69: after the stores the indices written read as the byte string and every other index as before. -/
theorem Memory.lookup_storeAll {m : Memory} (hm : Memory.wf m) (i j : Nat) (vs : Bytes) :
    Memory.lookup (Memory.storeAll m i vs) j =
      if i ≤ j ∧ j < i + vs.length then vs[j - i]? else Memory.lookup m j := by
  induction vs generalizing m i with
  | nil => simp [Memory.storeAll]
  | cons v vs ih =>
    rw [Memory.storeAll, ih (Memory.store_wf hm i v), Memory.lookup_store hm]
    by_cases hj : j = i
    · subst hj; simp
    · by_cases h : i + 1 ≤ j ∧ j < i + 1 + vs.length
      · rw [if_pos h, if_pos (by simp; omega)]
        have : j - i = j - (i + 1) + 1 := by omega
        simp [this]
      · rw [if_neg h, if_neg hj, if_neg (by simp; omega)]

end Sys2Proof.Machine
end

