-- ==== Sys2Proof/Laws/State.lean ====
section
/-! SUPPORT. What each named update of the state does to each field: one lemma per field per update. -/

namespace Sys2Proof.Machine

/-! ### State.enter -/

@[simp] theorem enter_params (s : State) (p : Phase) : (s.enter p).params = s.params := rfl
@[simp] theorem enter_status (s : State) (p : Phase) : (s.enter p).status = s.status := rfl
@[simp] theorem enter_errcode (s : State) (p : Phase) : (s.enter p).errcode = s.errcode := rfl
@[simp] theorem enter_srcLen (s : State) (p : Phase) : (s.enter p).srcLen = s.srcLen := rfl
@[simp] theorem enter_dstLen (s : State) (p : Phase) : (s.enter p).dstLen = s.dstLen := rfl
@[simp] theorem enter_hdr (s : State) (p : Phase) : (s.enter p).hdr = s.hdr := rfl
@[simp] theorem enter_degen (s : State) (p : Phase) : (s.enter p).degen = s.degen := rfl
@[simp] theorem enter_phase (s : State) (p : Phase) : (s.enter p).phase = p := rfl
@[simp] theorem enter_latch (s : State) (p : Phase) : (s.enter p).latch = s.latch := rfl
@[simp] theorem enter_eng (s : State) (p : Phase) : (s.enter p).eng = s.eng := rfl
@[simp] theorem enter_src (s : State) (p : Phase) : (s.enter p).src = s.src := rfl
@[simp] theorem enter_dst (s : State) (p : Phase) : (s.enter p).dst = s.dst := rfl
@[simp] theorem enter_fault (s : State) (p : Phase) : (s.enter p).fault = s.fault := rfl
@[simp] theorem enter_unread (s : State) (p : Phase) : (s.enter p).unread = s.unread := rfl
@[simp] theorem enter_dstGen (s : State) (p : Phase) : (s.enter p).dstGen = s.dstGen := rfl
@[simp] theorem enter_draws (s : State) (p : Phase) : (s.enter p).draws = s.draws := rfl
@[simp] theorem enter_stall (s : State) (p : Phase) : (s.enter p).stall = s.stall := rfl
@[simp] theorem enter_tainted (s : State) (p : Phase) : (s.enter p).tainted = s.tainted := rfl
@[simp] theorem enter_host (s : State) (p : Phase) : (s.enter p).host = s.host := rfl
@[simp] theorem enter_rdata (s : State) (p : Phase) : (s.enter p).rdata = s.rdata := rfl

/-! ### State.drawStall -/

@[simp] theorem drawStall_params (s : State) : s.drawStall.params = s.params := rfl
@[simp] theorem drawStall_status (s : State) : s.drawStall.status = s.status := rfl
@[simp] theorem drawStall_errcode (s : State) : s.drawStall.errcode = s.errcode := rfl
@[simp] theorem drawStall_srcLen (s : State) : s.drawStall.srcLen = s.srcLen := rfl
@[simp] theorem drawStall_dstLen (s : State) : s.drawStall.dstLen = s.dstLen := rfl
@[simp] theorem drawStall_hdr (s : State) : s.drawStall.hdr = s.hdr := rfl
@[simp] theorem drawStall_degen (s : State) : s.drawStall.degen = s.degen := rfl
@[simp] theorem drawStall_phase (s : State) : s.drawStall.phase = s.phase := rfl
@[simp] theorem drawStall_latch (s : State) : s.drawStall.latch = s.latch := rfl
@[simp] theorem drawStall_eng (s : State) : s.drawStall.eng = s.eng := rfl
@[simp] theorem drawStall_src (s : State) : s.drawStall.src = s.src := rfl
@[simp] theorem drawStall_dst (s : State) : s.drawStall.dst = s.dst := rfl
@[simp] theorem drawStall_fault (s : State) : s.drawStall.fault = s.fault := rfl
@[simp] theorem drawStall_unread (s : State) : s.drawStall.unread = s.unread := rfl
@[simp] theorem drawStall_dstGen (s : State) : s.drawStall.dstGen = s.dstGen := rfl
@[simp] theorem drawStall_draws (s : State) : s.drawStall.draws = s.draws + 1 := rfl
@[simp] theorem drawStall_stall (s : State) : s.drawStall.stall = Config.freeStall s.draws := rfl
@[simp] theorem drawStall_tainted (s : State) : s.drawStall.tainted = s.tainted := rfl
@[simp] theorem drawStall_host (s : State) : s.drawStall.host = s.host := rfl
@[simp] theorem drawStall_rdata (s : State) : s.drawStall.rdata = s.rdata := rfl

/-! ### State.redrawDst -/

@[simp] theorem redrawDst_params (s : State) : s.redrawDst.params = s.params := rfl
@[simp] theorem redrawDst_status (s : State) : s.redrawDst.status = s.status := rfl
@[simp] theorem redrawDst_errcode (s : State) : s.redrawDst.errcode = s.errcode := rfl
@[simp] theorem redrawDst_srcLen (s : State) : s.redrawDst.srcLen = s.srcLen := rfl
@[simp] theorem redrawDst_dstLen (s : State) : s.redrawDst.dstLen = s.dstLen := rfl
@[simp] theorem redrawDst_hdr (s : State) : s.redrawDst.hdr = s.hdr := rfl
@[simp] theorem redrawDst_degen (s : State) : s.redrawDst.degen = s.degen := rfl
@[simp] theorem redrawDst_phase (s : State) : s.redrawDst.phase = s.phase := rfl
@[simp] theorem redrawDst_latch (s : State) : s.redrawDst.latch = s.latch := rfl
@[simp] theorem redrawDst_eng (s : State) : s.redrawDst.eng = s.eng := rfl
@[simp] theorem redrawDst_src (s : State) : s.redrawDst.src = s.src := rfl
@[simp] theorem redrawDst_dst (s : State) : s.redrawDst.dst = [] := rfl
@[simp] theorem redrawDst_fault (s : State) : s.redrawDst.fault = s.fault := rfl
@[simp] theorem redrawDst_unread (s : State) : s.redrawDst.unread = s.unread := rfl
@[simp] theorem redrawDst_dstGen (s : State) : s.redrawDst.dstGen = s.draws := rfl
@[simp] theorem redrawDst_draws (s : State) : s.redrawDst.draws = s.draws + 1 := rfl
@[simp] theorem redrawDst_stall (s : State) : s.redrawDst.stall = s.stall := rfl
@[simp] theorem redrawDst_tainted (s : State) : s.redrawDst.tainted = s.tainted := rfl
@[simp] theorem redrawDst_host (s : State) : s.redrawDst.host = s.host := rfl
@[simp] theorem redrawDst_rdata (s : State) : s.redrawDst.rdata = s.rdata := rfl

/-! ### advanceRdPtr -/

@[simp] theorem advanceRdPtr_params (s : State) : (advanceRdPtr s).params = s.params := rfl
@[simp] theorem advanceRdPtr_status (s : State) : (advanceRdPtr s).status = s.status := rfl
@[simp] theorem advanceRdPtr_errcode (s : State) : (advanceRdPtr s).errcode = s.errcode := rfl
@[simp] theorem advanceRdPtr_srcLen (s : State) : (advanceRdPtr s).srcLen = s.srcLen := rfl
@[simp] theorem advanceRdPtr_dstLen (s : State) : (advanceRdPtr s).dstLen = s.dstLen := rfl
@[simp] theorem advanceRdPtr_hdr (s : State) : (advanceRdPtr s).hdr = s.hdr := rfl
@[simp] theorem advanceRdPtr_degen (s : State) : (advanceRdPtr s).degen = s.degen := rfl
@[simp] theorem advanceRdPtr_phase (s : State) : (advanceRdPtr s).phase = s.phase := rfl
@[simp] theorem advanceRdPtr_latch (s : State) : (advanceRdPtr s).latch = s.latch := rfl
@[simp] theorem advanceRdPtr_eng (s : State) : (advanceRdPtr s).eng = { s.eng with rdPtr := s.eng.rdPtr + 1 } := rfl
@[simp] theorem advanceRdPtr_src (s : State) : (advanceRdPtr s).src = s.src := rfl
@[simp] theorem advanceRdPtr_dst (s : State) : (advanceRdPtr s).dst = s.dst := rfl
@[simp] theorem advanceRdPtr_fault (s : State) : (advanceRdPtr s).fault = s.fault := rfl
@[simp] theorem advanceRdPtr_unread (s : State) : (advanceRdPtr s).unread = s.unread := rfl
@[simp] theorem advanceRdPtr_dstGen (s : State) : (advanceRdPtr s).dstGen = s.dstGen := rfl
@[simp] theorem advanceRdPtr_draws (s : State) : (advanceRdPtr s).draws = s.draws := rfl
@[simp] theorem advanceRdPtr_stall (s : State) : (advanceRdPtr s).stall = s.stall := rfl
@[simp] theorem advanceRdPtr_tainted (s : State) : (advanceRdPtr s).tainted = s.tainted := rfl
@[simp] theorem advanceRdPtr_host (s : State) : (advanceRdPtr s).host = s.host := rfl
@[simp] theorem advanceRdPtr_rdata (s : State) : (advanceRdPtr s).rdata = s.rdata := rfl

/-! ### State.takeItem -/

@[simp] theorem takeItem_params (s : State) (rest : List HostItem) : (s.takeItem rest).params = s.params := rfl
@[simp] theorem takeItem_status (s : State) (rest : List HostItem) : (s.takeItem rest).status = s.status := rfl
@[simp] theorem takeItem_errcode (s : State) (rest : List HostItem) : (s.takeItem rest).errcode = s.errcode := rfl
@[simp] theorem takeItem_srcLen (s : State) (rest : List HostItem) : (s.takeItem rest).srcLen = s.srcLen := rfl
@[simp] theorem takeItem_dstLen (s : State) (rest : List HostItem) : (s.takeItem rest).dstLen = s.dstLen := rfl
@[simp] theorem takeItem_hdr (s : State) (rest : List HostItem) : (s.takeItem rest).hdr = s.hdr := rfl
@[simp] theorem takeItem_degen (s : State) (rest : List HostItem) : (s.takeItem rest).degen = s.degen := rfl
@[simp] theorem takeItem_phase (s : State) (rest : List HostItem) : (s.takeItem rest).phase = s.phase := rfl
@[simp] theorem takeItem_latch (s : State) (rest : List HostItem) : (s.takeItem rest).latch = s.latch := rfl
@[simp] theorem takeItem_eng (s : State) (rest : List HostItem) : (s.takeItem rest).eng = s.eng := rfl
@[simp] theorem takeItem_src (s : State) (rest : List HostItem) : (s.takeItem rest).src = s.src := rfl
@[simp] theorem takeItem_dst (s : State) (rest : List HostItem) : (s.takeItem rest).dst = s.dst := rfl
@[simp] theorem takeItem_fault (s : State) (rest : List HostItem) : (s.takeItem rest).fault = s.fault := rfl
@[simp] theorem takeItem_unread (s : State) (rest : List HostItem) : (s.takeItem rest).unread = s.unread := rfl
@[simp] theorem takeItem_dstGen (s : State) (rest : List HostItem) : (s.takeItem rest).dstGen = s.dstGen := rfl
@[simp] theorem takeItem_draws (s : State) (rest : List HostItem) : (s.takeItem rest).draws = s.draws := rfl
@[simp] theorem takeItem_stall (s : State) (rest : List HostItem) : (s.takeItem rest).stall = s.stall - 1 := rfl
@[simp] theorem takeItem_tainted (s : State) (rest : List HostItem) : (s.takeItem rest).tainted = s.tainted := rfl
@[simp] theorem takeItem_host (s : State) (rest : List HostItem) : (s.takeItem rest).host = rest := rfl
@[simp] theorem takeItem_rdata (s : State) (rest : List HostItem) : (s.takeItem rest).rdata = s.rdata := rfl

/-! ### State.hostFirst -/

@[simp] theorem hostFirst_params (s : State) (items : List HostItem) : (s.hostFirst items).params = s.params := rfl
@[simp] theorem hostFirst_status (s : State) (items : List HostItem) : (s.hostFirst items).status = s.status := rfl
@[simp] theorem hostFirst_errcode (s : State) (items : List HostItem) : (s.hostFirst items).errcode = s.errcode := rfl
@[simp] theorem hostFirst_srcLen (s : State) (items : List HostItem) : (s.hostFirst items).srcLen = s.srcLen := rfl
@[simp] theorem hostFirst_dstLen (s : State) (items : List HostItem) : (s.hostFirst items).dstLen = s.dstLen := rfl
@[simp] theorem hostFirst_hdr (s : State) (items : List HostItem) : (s.hostFirst items).hdr = s.hdr := rfl
@[simp] theorem hostFirst_degen (s : State) (items : List HostItem) : (s.hostFirst items).degen = s.degen := rfl
@[simp] theorem hostFirst_phase (s : State) (items : List HostItem) : (s.hostFirst items).phase = s.phase := rfl
@[simp] theorem hostFirst_latch (s : State) (items : List HostItem) : (s.hostFirst items).latch = s.latch := rfl
@[simp] theorem hostFirst_eng (s : State) (items : List HostItem) : (s.hostFirst items).eng = s.eng := rfl
@[simp] theorem hostFirst_src (s : State) (items : List HostItem) : (s.hostFirst items).src = s.src := rfl
@[simp] theorem hostFirst_dst (s : State) (items : List HostItem) : (s.hostFirst items).dst = s.dst := rfl
@[simp] theorem hostFirst_fault (s : State) (items : List HostItem) : (s.hostFirst items).fault = s.fault := rfl
@[simp] theorem hostFirst_unread (s : State) (items : List HostItem) : (s.hostFirst items).unread = s.unread := rfl
@[simp] theorem hostFirst_dstGen (s : State) (items : List HostItem) : (s.hostFirst items).dstGen = s.dstGen := rfl
@[simp] theorem hostFirst_draws (s : State) (items : List HostItem) : (s.hostFirst items).draws = s.draws := rfl
@[simp] theorem hostFirst_stall (s : State) (items : List HostItem) : (s.hostFirst items).stall = s.stall := rfl
@[simp] theorem hostFirst_tainted (s : State) (items : List HostItem) : (s.hostFirst items).tainted = s.tainted := rfl
@[simp] theorem hostFirst_host (s : State) (items : List HostItem) : (s.hostFirst items).host = items ++ s.host := rfl
@[simp] theorem hostFirst_rdata (s : State) (items : List HostItem) : (s.hostFirst items).rdata = s.rdata := rfl

/-! ### completeOk -/

@[simp] theorem completeOk_params (s : State) (n : Word) (h : BitVec 16) : (completeOk n h s).params = s.params := rfl
@[simp] theorem completeOk_status (s : State) (n : Word) (h : BitVec 16) : (completeOk n h s).status = s.status.completed false := rfl
@[simp] theorem completeOk_errcode (s : State) (n : Word) (h : BitVec 16) : (completeOk n h s).errcode = 0#4 := rfl
@[simp] theorem completeOk_srcLen (s : State) (n : Word) (h : BitVec 16) : (completeOk n h s).srcLen = s.srcLen := rfl
@[simp] theorem completeOk_dstLen (s : State) (n : Word) (h : BitVec 16) : (completeOk n h s).dstLen = n := rfl
@[simp] theorem completeOk_hdr (s : State) (n : Word) (h : BitVec 16) : (completeOk n h s).hdr = h := rfl
@[simp] theorem completeOk_degen (s : State) (n : Word) (h : BitVec 16) : (completeOk n h s).degen = s.degen := rfl
@[simp] theorem completeOk_phase (s : State) (n : Word) (h : BitVec 16) : (completeOk n h s).phase = .idle := rfl
@[simp] theorem completeOk_latch (s : State) (n : Word) (h : BitVec 16) : (completeOk n h s).latch = s.latch := rfl
@[simp] theorem completeOk_eng (s : State) (n : Word) (h : BitVec 16) : (completeOk n h s).eng = s.eng := rfl
@[simp] theorem completeOk_src (s : State) (n : Word) (h : BitVec 16) : (completeOk n h s).src = s.src := rfl
@[simp] theorem completeOk_dst (s : State) (n : Word) (h : BitVec 16) : (completeOk n h s).dst = s.dst := rfl
@[simp] theorem completeOk_fault (s : State) (n : Word) (h : BitVec 16) : (completeOk n h s).fault = s.fault := rfl
@[simp] theorem completeOk_unread (s : State) (n : Word) (h : BitVec 16) : (completeOk n h s).unread = s.unread := rfl
@[simp] theorem completeOk_dstGen (s : State) (n : Word) (h : BitVec 16) : (completeOk n h s).dstGen = s.dstGen := rfl
@[simp] theorem completeOk_draws (s : State) (n : Word) (h : BitVec 16) : (completeOk n h s).draws = s.draws := rfl
@[simp] theorem completeOk_stall (s : State) (n : Word) (h : BitVec 16) : (completeOk n h s).stall = s.stall := rfl
@[simp] theorem completeOk_tainted (s : State) (n : Word) (h : BitVec 16) : (completeOk n h s).tainted = s.tainted := rfl
@[simp] theorem completeOk_host (s : State) (n : Word) (h : BitVec 16) : (completeOk n h s).host = s.host := rfl
@[simp] theorem completeOk_rdata (s : State) (n : Word) (h : BitVec 16) : (completeOk n h s).rdata = s.rdata := rfl

/-! ### BUSY follows the phase -/

@[simp] theorem busy_eq_false (s : State) : s.busy = false ↔ s.phase = .idle := by
  simp [State.busy]

@[simp] theorem busy_eq_true (s : State) : s.busy = true ↔ s.phase ≠ .idle := by
  simp [State.busy]

end Sys2Proof.Machine
end

