-- ==== Sys2Proof/Laws/Ops.lean ====
section
/-! SUPPORT. The engine's sink writes (20_memory.md R69): one lemma for each that says everything it can do. -/

namespace Sys2Proof.Machine

/-! ### Sequencing of operations that can stop -/

@[simp] theorem bind_ok {α β : Type} (a : α) (f : α → Except Stop β) : ((Except.ok a : Except Stop α) >>= f) = f a := rfl

@[simp] theorem bind_error {α β : Type} (e : Stop) (f : α → Except Stop β) :
    ((Except.error e : Except Stop α) >>= f) = .error e := rfl

@[simp] theorem pure_eq_ok {α : Type} (a : α) : (pure a : Except Stop α) = .ok a := rfl

/-- A sequence that ends well went through a first result. -/
theorem bind_eq_ok {α β : Type} {x : Except Stop α} {f : α → Except Stop β} {r : β} :
    (x >>= f) = .ok r ↔ ∃ a, x = .ok a ∧ f a = .ok r := by
  cases x <;> simp

/-- A sequence that stops does so in its first part or in its second. -/
theorem bind_eq_error {α β : Type} {x : Except Stop α} {f : α → Except Stop β} {e : Stop} :
    (x >>= f) = .error e ↔ x = .error e ∨ ∃ a, x = .ok a ∧ f a = .error e := by
  cases x <;> simp

theorem check_true (e : CmdError) (s : State) : check true e s = .ok s := rfl

theorem check_false (e : CmdError) (s : State) : check false e s = .error (.raise e) := rfl

theorem check_pos {p : Prop} {d : Decidable p} (h : p) (e : CmdError) (s : State) : check (@decide p d) e s = .ok s := by
  rw [decide_eq_true h, check_true]

theorem check_neg {p : Prop} {d : Decidable p} (h : ¬ p) (e : CmdError) (s : State) :
    check (@decide p d) e s = .error (.raise e) := by
  rw [decide_eq_false h, check_false]

/-- A check that passes leaves the state alone. -/
theorem check_eq_ok {ok : Bool} {e : CmdError} {s t : State} : check ok e s = .ok t ↔ ok = true ∧ t = s := by
  cases ok <;> simp [check, eq_comm]

/-! ### Writing a byte string at WR_PTR -/

/-- WR_PTR and DST after a byte string has been written at WR_PTR. -/
def afterPut (vs : Bytes) (s : State) : State :=
  { s with
    dst := Memory.storeAll s.dst s.eng.wrPtr.toNat vs
    eng := { s.eng with wrPtr := s.eng.wrPtr + BitVec.ofNat 32 vs.length } }

theorem afterPut_nil (s : State) : afterPut [] s = s := by
  simp [afterPut, Memory.storeAll]

theorem dstPut_eq (v : Byte) (s : State) :
    dstPut v s = if s.eng.wrPtr.toNat < s.params.dstMax.toNat then .ok (afterPut [v] s)
      else .error (.raise .sinkUnwritable) := by
  unfold dstPut dstWrite
  split <;> simp [afterPut, Memory.storeAll]

/-- A write below DST_MAX cannot make WR_PTR wrap (R22). -/
theorem wrPtr_succ_toNat {s : State} (h : s.eng.wrPtr.toNat < s.params.dstMax.toNat) :
    (s.eng.wrPtr + 1#32).toNat = s.eng.wrPtr.toNat + 1 := by
  have := s.params.dstMax.isLt
  rw [BitVec.toNat_add]
  simp
  omega

theorem afterPut_cons {v : Byte} {vs : Bytes} {s : State} (h : s.eng.wrPtr.toNat < s.params.dstMax.toNat) :
    afterPut vs (afterPut [v] s) = afterPut (v :: vs) s := by
  have hw := wrPtr_succ_toNat h
  simp only [afterPut, Memory.storeAll, List.length_cons, List.length_nil]
  have h1 : s.eng.wrPtr + BitVec.ofNat 32 (0 + 1) = s.eng.wrPtr + 1#32 := rfl
  rw [h1, hw]
  congr 2
  rw [BitVec.add_assoc, Nat.add_comm vs.length 1, BitVec.ofNat_add]

/-- R69: a byte string that fits is stored at WR_PTR, which moves behind it; one that does not raises SinkUnwritable. -/
theorem dstPutAll_eq (vs : Bytes) (s : State) :
    dstPutAll vs s = if vs.length = 0 ∨ s.eng.wrPtr.toNat + vs.length ≤ s.params.dstMax.toNat then .ok (afterPut vs s)
      else .error (.raise .sinkUnwritable) := by
  induction vs generalizing s with
  | nil => simp [dstPutAll, afterPut_nil]
  | cons v vs ih =>
    unfold dstPutAll
    rw [dstPut_eq]
    by_cases h : s.eng.wrPtr.toNat < s.params.dstMax.toNat
    · rw [if_pos h, bind_ok, ih, afterPut_cons h]
      have hw : (afterPut [v] s).eng.wrPtr.toNat = s.eng.wrPtr.toNat + 1 := by
        simpa [afterPut] using wrPtr_succ_toNat h
      have hp : (afterPut [v] s).params = s.params := rfl
      rw [hw, hp]
      by_cases h0 : vs.length = 0
      · rw [if_pos (.inl h0), if_pos (.inr (by simp [h0]; omega))]
      · by_cases h1 : s.eng.wrPtr.toNat + 1 + vs.length ≤ s.params.dstMax.toNat
        · rw [if_pos (.inr h1), if_pos (.inr (by simp; omega))]
        · rw [if_neg (by omega), if_neg (by simp; omega)]
    · rw [if_neg h, bind_error, if_neg (by simp; omega)]

theorem dstPutAll_append (vs ws : Bytes) (s : State) :
    dstPutAll (vs ++ ws) s = (dstPutAll vs s >>= dstPutAll ws) := by
  induction vs generalizing s with
  | nil => rfl
  | cons v vs ih =>
    simp only [List.cons_append, dstPutAll]
    cases dstPut v s with
    | ok t => simpa using ih t
    | error e => rfl

/-- WR_PTR after a byte string that fits (R22: it never wraps). -/
theorem afterPut_wrPtr {vs : Bytes} {s : State} (h : s.eng.wrPtr.toNat + vs.length ≤ s.params.dstMax.toNat) :
    (afterPut vs s).eng.wrPtr.toNat = s.eng.wrPtr.toNat + vs.length := by
  have := s.params.dstMax.isLt
  simp only [afterPut, BitVec.toNat_add, BitVec.toNat_ofNat]
  omega

@[simp] theorem afterPut_params (vs : Bytes) (s : State) : (afterPut vs s).params = s.params := rfl
@[simp] theorem afterPut_latch (vs : Bytes) (s : State) : (afterPut vs s).latch = s.latch := rfl
@[simp] theorem afterPut_src (vs : Bytes) (s : State) : (afterPut vs s).src = s.src := rfl
@[simp] theorem afterPut_phase (vs : Bytes) (s : State) : (afterPut vs s).phase = s.phase := rfl
@[simp] theorem afterPut_dst (vs : Bytes) (s : State) :
    (afterPut vs s).dst = Memory.storeAll s.dst s.eng.wrPtr.toNat vs := rfl
@[simp] theorem afterPut_eng (vs : Bytes) (s : State) :
    (afterPut vs s).eng = { s.eng with wrPtr := s.eng.wrPtr + BitVec.ofNat 32 vs.length } := rfl

end Sys2Proof.Machine
end

