-- ==== Sys2Proof/Laws/EnginePack.lean ====
section
/-! SUPPORT. The engine's passes over SRC in COMPRESS: counting and packing, in closed form (40_tree_builder.md R130,
42_bit_packer.md R200). -/

namespace Sys2Proof.Machine

/-! ### Reading SRC in order -/

/-- The `n` bytes of SRC from index `i`. -/
def State.srcFrom (s : State) (i n : Nat) : Bytes :=
  (List.range n).map (fun k => s.srcRead (i + k))

theorem srcFrom_zero (s : State) (n : Nat) : s.srcFrom 0 n = s.srcBytes n := by
  simp [State.srcFrom, State.srcBytes]

theorem srcFrom_succ (s : State) (i n : Nat) : s.srcFrom i (n + 1) = s.srcRead i :: s.srcFrom (i + 1) n := by
  rw [State.srcFrom, State.srcFrom, List.range_succ_eq_map, List.map_cons, List.map_map]
  refine congrArg₂ List.cons rfl (List.map_congr_left fun k _ => ?_)
  simp only [Function.comp]
  congr 1
  omega

theorem srcFrom_length (s : State) (i n : Nat) : (s.srcFrom i n).length = n := by
  simp [State.srcFrom]

theorem srcRead_congr {s t : State} (h : t.src = s.src) (i : Nat) : t.srcRead i = s.srcRead i := by
  rw [State.srcRead, State.srcRead, h]

theorem srcFrom_congr {s t : State} (h : t.src = s.src) (i n : Nat) : t.srcFrom i n = s.srcFrom i n := by
  simp [State.srcFrom, srcRead_congr h]

theorem input_length (s : State) : s.input.length = s.latch.srcLen.toNat := by
  simp [State.input, State.srcBytes]

theorem input_length_lt (s : State) : s.input.length < 2 ^ 32 := by
  rw [input_length]
  exact s.latch.srcLen.isLt

theorem input_congr {s t : State} (h : t.src = s.src) (hl : t.latch = s.latch) : t.input = s.input := by
  rw [State.input, State.input, ← srcFrom_zero, ← srcFrom_zero, srcFrom_congr h, hl]

theorem rdPtr_succ_toNat {w : Word} {n : Nat} (h : w.toNat + (n + 1) < 2 ^ 32) : (w + 1#32).toNat = w.toNat + 1 := by
  rw [BitVec.toNat_add]
  simp
  omega

/-! ### Counting -/

/-- R130: the frequency pass in closed form. -/
theorem countLoop_eq (n : Nat) (s : State) (h : s.eng.rdPtr.toNat + n < 2 ^ 32) :
    countLoop n s = { s with eng := { s.eng with
      freq := (s.srcFrom s.eng.rdPtr.toNat n).foldl freqBump s.eng.freq
      rdPtr := s.eng.rdPtr + BitVec.ofNat 32 n } } := by
  induction n generalizing s with
  | zero => simp [countLoop, State.srcFrom]
  | succ n ih =>
    have hr := rdPtr_succ_toNat h
    have h1 : (countByte s).eng.rdPtr = s.eng.rdPtr + 1#32 := rfl
    have h2 : (countByte s).eng.freq = freqBump s.eng.freq (s.srcRead s.eng.rdPtr.toNat) := rfl
    rw [countLoop, ih _ (by rw [h1, hr]; omega), h1, h2, hr, srcFrom_congr (s := s) rfl, srcFrom_succ, List.foldl_cons]
    have h3 : s.eng.rdPtr + 1#32 + BitVec.ofNat 32 n = s.eng.rdPtr + BitVec.ofNat 32 (n + 1) := by
      rw [BitVec.add_assoc, Nat.add_comm n 1, BitVec.ofNat_add]
    rw [h3]
    rfl

/-! ### The accumulator -/

/-- The whole bytes a bit string fills. -/
def fullBytes : Bits → Bytes
  | b0 :: b1 :: b2 :: b3 :: b4 :: b5 :: b6 :: b7 :: rest => byteOfBits [b0, b1, b2, b3, b4, b5, b6, b7] :: fullBytes rest
  | _ => []

/-- The bits left over behind the whole bytes. -/
def restBits : Bits → Bits
  | _ :: _ :: _ :: _ :: _ :: _ :: _ :: _ :: rest => restBits rest
  | bits => bits

theorem fullBytes_full {p : Bits} (h : p.length = 8) (rest : Bits) :
    fullBytes (p ++ rest) = byteOfBits p :: fullBytes rest := by
  obtain ⟨b0, b1, b2, b3, b4, b5, b6, b7, rfl⟩ := length_eight h
  rfl

theorem restBits_full {p : Bits} (h : p.length = 8) (rest : Bits) : restBits (p ++ rest) = restBits rest := by
  obtain ⟨b0, b1, b2, b3, b4, b5, b6, b7, rfl⟩ := length_eight h
  rfl

theorem fullBytes_short {p : Bits} (h : p.length < 8) : fullBytes p = [] ∧ restBits p = p := by
  match p, h with
  | [], _ => exact ⟨rfl, rfl⟩
  | [_], _ => exact ⟨rfl, rfl⟩
  | [_, _], _ => exact ⟨rfl, rfl⟩
  | [_, _, _], _ => exact ⟨rfl, rfl⟩
  | [_, _, _, _], _ => exact ⟨rfl, rfl⟩
  | [_, _, _, _, _], _ => exact ⟨rfl, rfl⟩
  | [_, _, _, _, _, _], _ => exact ⟨rfl, rfl⟩
  | [_, _, _, _, _, _, _], _ => exact ⟨rfl, rfl⟩
  | _ :: _ :: _ :: _ :: _ :: _ :: _ :: _ :: _, h => simp at h; omega

theorem fullBytes_append (x y : Bits) :
    fullBytes (x ++ y) = fullBytes x ++ fullBytes (restBits x ++ y) ∧ restBits (x ++ y) = restBits (restBits x ++ y) := by
  refine bits_induction (P := fun x => fullBytes (x ++ y) = fullBytes x ++ fullBytes (restBits x ++ y) ∧
    restBits (x ++ y) = restBits (restBits x ++ y)) ⟨rfl, rfl⟩ ?_ ?_ x
  · intro p _ h8
    rw [(fullBytes_short h8).1, (fullBytes_short h8).2]
    exact ⟨rfl, rfl⟩
  · intro p rest h ih
    rw [List.append_assoc, fullBytes_full h, fullBytes_full h, restBits_full h, restBits_full h, ih.1, ih.2]
    exact ⟨rfl, rfl⟩

theorem restBits_length (x : Bits) : (restBits x).length = x.length % 8 := by
  refine bits_induction (P := fun x => (restBits x).length = x.length % 8) rfl ?_ ?_ x
  · intro p _ h8
    rw [(fullBytes_short h8).2]
    omega
  · intro p rest h ih
    rw [restBits_full h, ih, List.length_append, h]
    omega

/-- R200, R101: the whole bytes, and one padded byte for the bits left over. -/
theorem packBytes_eq (x : Bits) :
    packBytes x = fullBytes x ++ if restBits x = [] then []
      else [byteOfBits (restBits x ++ List.replicate (8 - (restBits x).length) false)] := by
  refine bits_induction (P := fun x => packBytes x = fullBytes x ++ if restBits x = [] then []
      else [byteOfBits (restBits x ++ List.replicate (8 - (restBits x).length) false)]) rfl ?_ ?_ x
  · intro p h0 h8
    rw [(fullBytes_short h8).1, (fullBytes_short h8).2, if_neg (by rintro rfl; simp at h0), packBytes_short h0 h8]
    rfl
  · intro p rest h ih
    rw [packBytes_full h, fullBytes_full h, restBits_full h, ih]
    rfl

/-- ACC and NACC hold the bits `p`, fewer than eight. -/
def holding (p : Bits) (s : State) : State :=
  { s with eng := { s.eng with acc := byteOfBits p, nacc := BitVec.ofNat 4 p.length } }

theorem dstPut_holding (v : Byte) (p : Bits) (s : State) :
    dstPut v (holding p s) = (dstPut v s >>= fun t => .ok (holding p t)) := by
  rw [dstPut_eq, dstPut_eq]
  have h1 : (holding p s).eng.wrPtr = s.eng.wrPtr := rfl
  have h2 : (holding p s).params = s.params := rfl
  rw [h1, h2]
  split <;> rfl

theorem byteOfBits_concat (p : Bits) (bit : Bool) : byteOfBits (p ++ [bit]) = shiftIn (byteOfBits p) bit := by
  simp [byteOfBits]

/-- R200: one bit into the accumulator: the eighth flushes, an earlier one stays. -/
theorem packBit_holding (bit : Bool) {p : Bits} (hp : p.length < 8) (s : State) :
    packBit bit (holding p s) =
      if p.length = 7 then (dstPut (byteOfBits (p ++ [bit])) s >>= fun t => .ok (holding [] t))
      else .ok (holding (p ++ [bit]) s) := by
  have hacc : shiftIn (holding p s).eng.acc bit = byteOfBits (p ++ [bit]) := (byteOfBits_concat p bit).symm
  have hn : (holding p s).eng.nacc + 1 = BitVec.ofNat 4 (p.length + 1) := by
    rw [BitVec.ofNat_add]
    rfl
  unfold packBit
  simp only [hacc, hn]
  by_cases h7 : p.length = 7
  · rw [if_pos (by rw [h7]), if_pos h7, dstPut_holding]
    cases dstPut (byteOfBits (p ++ [bit])) s with
    | error e => rfl
    | ok t => rfl
  · rw [if_neg, if_neg h7]
    · congr 1
      simp [holding]
    · intro e
      have := congrArg BitVec.toNat e
      simp at this
      omega

/-- R200: a code into the accumulator: its whole bytes are written, the rest is held. -/
theorem packCode_holding (bits : Bits) {p : Bits} (hp : p.length < 8) (s : State) :
    packCode bits (holding p s) =
      (dstPutAll (fullBytes (p ++ bits)) s >>= fun t => .ok (holding (restBits (p ++ bits)) t)) := by
  induction bits generalizing p s with
  | nil =>
    rw [List.append_nil, (fullBytes_short hp).1, (fullBytes_short hp).2]
    rfl
  | cons bit bits ih =>
    rw [packCode, packBit_holding bit hp]
    have hsplit : p ++ bit :: bits = (p ++ [bit]) ++ bits := by simp
    by_cases h7 : p.length = 7
    · have h8 : (p ++ [bit]).length = 8 := by simp [h7]
      rw [if_pos h7, hsplit, fullBytes_full h8, restBits_full h8, dstPutAll]
      cases dstPut (byteOfBits (p ++ [bit])) s with
      | error e => rfl
      | ok t => simpa using ih (p := []) (by simp) t
    · rw [if_neg h7, bind_ok, ih (by simp; omega), hsplit]

/-! ### Packing a whole input -/

/-- RD_PTR moved on by `n`. -/
def skipRd (n : Nat) (s : State) : State :=
  { s with eng := { s.eng with rdPtr := s.eng.rdPtr + BitVec.ofNat 32 n } }

theorem dstPutAll_skipRd (vs : Bytes) (n : Nat) (s : State) :
    dstPutAll vs (skipRd n s) = (dstPutAll vs s >>= fun t => .ok (skipRd n t)) := by
  rw [dstPutAll_eq, dstPutAll_eq]
  have h1 : (skipRd n s).eng.wrPtr = s.eng.wrPtr := rfl
  have h2 : (skipRd n s).params = s.params := rfl
  rw [h1, h2]
  split <;> rfl

theorem skipRd_skipRd (a b : Nat) (s : State) : skipRd b (skipRd a s) = skipRd (a + b) s := by
  simp only [skipRd, BitVec.add_assoc, ← BitVec.ofNat_add]

/-- A sink write changes neither SRC nor any register of the engine but WR_PTR. -/
theorem dstPutAll_frame {vs : Bytes} {s t : State} (h : dstPutAll vs s = .ok t) :
    t = { s with dst := t.dst, eng := { s.eng with wrPtr := t.eng.wrPtr } } := by
  rw [dstPutAll_eq] at h
  split at h
  · cases h; rfl
  · cases h

/-- R200: `n` input bytes through the accumulator, when each has a code. -/
theorem packLoop_holding (n : Nat) {p : Bits} (hp : p.length < 8) (s : State) (hr : s.eng.rdPtr.toNat + n < 2 ^ 32)
    (hc : ∀ b ∈ s.srcFrom s.eng.rdPtr.toNat n, ∃ c, codeOf s.eng.code b = some c) :
    packLoop n (holding p s) =
      (dstPutAll (fullBytes (p ++ codeBits s.eng.code (s.srcFrom s.eng.rdPtr.toNat n))) s >>= fun t =>
        .ok (holding (restBits (p ++ codeBits s.eng.code (s.srcFrom s.eng.rdPtr.toNat n))) (skipRd n t))) := by
  induction n generalizing p s with
  | zero =>
    have : codeBits s.eng.code (s.srcFrom s.eng.rdPtr.toNat 0) = [] := rfl
    rw [this, List.append_nil, (fullBytes_short hp).1, (fullBytes_short hp).2]
    simp [packLoop, dstPutAll, skipRd]
  | succ n ih =>
    rw [srcFrom_succ] at hc ⊢
    obtain ⟨c, hcode⟩ := hc (s.srcRead s.eng.rdPtr.toNat) (by simp)
    have hcb : codeBits s.eng.code (s.srcRead s.eng.rdPtr.toNat :: s.srcFrom (s.eng.rdPtr.toNat + 1) n) =
        c ++ codeBits s.eng.code (s.srcFrom (s.eng.rdPtr.toNat + 1) n) := by simp [codeBits, hcode]
    have hbyte : packByte (holding p s) = packCode c (holding p (skipRd 1 s)) := by
      have : codeOf (holding p s).eng.code (srcAtRdPtr (holding p s)) = some c := hcode
      rw [packByte, this]
      rfl
    rw [packLoop, hbyte, packCode_holding c hp, dstPutAll_skipRd, hcb, ← List.append_assoc,
      (fullBytes_append (p ++ c) _).1, (fullBytes_append (p ++ c) _).2, dstPutAll_append]
    cases ht : dstPutAll (fullBytes (p ++ c)) s with
    | error e => rfl
    | ok t =>
      have hf := dstPutAll_frame ht
      have hsrc : (skipRd 1 t).src = s.src := by rw [hf]; rfl
      have hcd : (skipRd 1 t).eng.code = s.eng.code := by rw [hf]; rfl
      have hrd : (skipRd 1 t).eng.rdPtr = s.eng.rdPtr + 1#32 := by rw [hf]; rfl
      have hrn := rdPtr_succ_toNat hr
      have hrest : (restBits (p ++ c)).length < 8 := by rw [restBits_length]; omega
      simp only [bind_ok]
      rw [ih hrest (skipRd 1 t) (by rw [hrd, hrn]; omega) (by
        rw [hrd, hrn, srcFrom_congr hsrc, hcd]
        exact fun b hb => hc b (by simp [hb]))]
      rw [hrd, hrn, srcFrom_congr hsrc, hcd, dstPutAll_skipRd]
      cases dstPutAll (fullBytes (restBits (p ++ c) ++ codeBits s.eng.code (s.srcFrom (s.eng.rdPtr.toNat + 1) n))) t with
      | error e => rfl
      | ok u => simp only [bind_ok, skipRd_skipRd, Nat.add_comm 1 n]

theorem byteOfBits_pad (p : Bits) (k : Nat) : byteOfBits (p ++ List.replicate k false) = byteOfBits p <<< k := by
  induction k with
  | zero => simp
  | succ k ih =>
    rw [List.replicate_succ', ← List.append_assoc, byteOfBits_concat, ih, shiftIn]
    simp [BitVec.shiftLeft_add]

/-- R200: the flush writes the padded byte, if bits are held, and sets the garbage count. -/
theorem packFlush_holding {p : Bits} (hp : p.length < 8) (s : State) :
    packFlush (holding p s) =
      (dstPutAll (if p = [] then [] else [byteOfBits (p ++ List.replicate (8 - p.length) false)]) s >>= fun t =>
        .ok { holding p t with eng := { (holding p t).eng with garbage := BitVec.ofNat 3 (garbageCount p.length) } }) := by
  unfold packFlush
  have hn : (holding p s).eng.nacc = BitVec.ofNat 4 p.length := rfl
  have ha : (holding p s).eng.acc = byteOfBits p := rfl
  have hto : (BitVec.ofNat 4 p.length).toNat = p.length := by simp; omega
  rw [hn, ha, hto]
  by_cases h0 : p = []
  · subst h0
    rfl
  · have hl : p.length ≠ 0 := by simpa using h0
    have hg : garbageCount p.length = 8 - p.length := by unfold garbageCount; omega
    rw [if_neg (by
      intro e
      have := congrArg BitVec.toNat e
      rw [hto] at this
      simp at this
      exact h0 this), if_neg h0, byteOfBits_pad, dstPut_holding, hg]
    simp only [dstPutAll]
    cases dstPut (byteOfBits p <<< (8 - p.length)) s with
    | error e => rfl
    | ok t => rfl

theorem garbageCount_restBits (x : Bits) : garbageCount (restBits x).length = garbageCount x.length := by
  rw [restBits_length]
  unfold garbageCount
  omega

/-- R200: the packing pass over an input whose bytes all have codes: the packed bytes at WR_PTR, the garbage count, RD_PTR at the
end. -/
theorem pack_eq (n : Nat) (s : State) (hr : s.eng.rdPtr.toNat + n < 2 ^ 32)
    (hc : ∀ b ∈ s.srcFrom s.eng.rdPtr.toNat n, ∃ c, codeOf s.eng.code b = some c) {x : Bits}
    (hx : codeBits s.eng.code (s.srcFrom s.eng.rdPtr.toNat n) = x) :
    (packLoop n (holding [] s) >>= packFlush) =
      (dstPutAll (packBytes x) s >>= fun t => .ok { t with eng := { t.eng with
          acc := byteOfBits (restBits x)
          nacc := BitVec.ofNat 4 (restBits x).length
          rdPtr := s.eng.rdPtr + BitVec.ofNat 32 n
          garbage := BitVec.ofNat 3 (garbageCount x.length) } }) := by
  have hrest : (restBits x).length < 8 := by rw [restBits_length]; omega
  rw [packLoop_holding n (p := []) (by simp) s hr hc, List.nil_append, hx, packBytes_eq, dstPutAll_append]
  cases ht : dstPutAll (fullBytes x) s with
  | error e => rfl
  | ok t =>
    simp only [bind_ok]
    rw [packFlush_holding hrest, dstPutAll_skipRd]
    cases hu : dstPutAll (if restBits x = [] then []
        else [byteOfBits (restBits x ++ List.replicate (8 - (restBits x).length) false)]) t with
    | error e => rfl
    | ok u =>
      have h1 := dstPutAll_frame ht
      have h2 := dstPutAll_frame hu
      have hrd : u.eng.rdPtr = s.eng.rdPtr := by rw [h2, h1]
      simp only [bind_ok, garbageCount_restBits]
      simp only [holding, skipRd, hrd]

end Sys2Proof.Machine
end

