-- ==== Sys2Proof/Laws/EngineUnpack.lean ====
section
/-! SUPPORT. The engine's deserializer and unpacker, against the functions on byte and bit strings
(41_tree_serializer.md R173, R174; 42_bit_packer.md R203–R207). -/

namespace Sys2Proof.Machine

/-! ### The deserializer -/

/-- The deserializer's registers: read pointer, budget, tree and stack. -/
def atTree (s : State) (rd : Word) (budget : BitVec 13) (root : Option HuffTree) (stack : List (Option HuffTree)) : State :=
  { s with eng := { s.eng with rdPtr := rd, budget := budget, root := root, stack := stack } }

/-- The tree-field bytes the budget still covers. -/
def fieldLeft (s : State) (rd : Word) (budget : BitVec 13) : Bytes :=
  s.srcFrom rd.toNat budget.toNat

theorem fieldLeft_length (s : State) (rd : Word) (budget : BitVec 13) : (fieldLeft s rd budget).length = budget.toNat :=
  srcFrom_length _ _ _

/-- R173: taking a byte out of the budget, and the bytes left. -/
theorem treeByte_atTree (s : State) (rd : Word) (budget : BitVec 13) (root : Option HuffTree) (stack : List (Option HuffTree))
    (h : rd.toNat + budget.toNat < 2 ^ 32) :
    (fieldLeft s rd budget = [] ∧ treeByte (atTree s rd budget root stack) = .error (.raise .corruptTree)) ∨
    (∃ b, fieldLeft s rd budget = b :: fieldLeft s (rd + 1#32) (budget - 1#13) ∧
      treeByte (atTree s rd budget root stack) = .ok (b, atTree s (rd + 1#32) (budget - 1#13) root stack) ∧
      (rd + 1#32).toNat + (budget - 1#13).toNat = rd.toNat + budget.toNat) := by
  have hb : (atTree s rd budget root stack).eng.budget = budget := rfl
  by_cases h0 : budget = 0#13
  · left
    subst h0
    exact ⟨rfl, rfl⟩
  · right
    obtain ⟨k, hk⟩ : ∃ k, budget.toNat = k + 1 := ⟨budget.toNat - 1, by
      have : budget.toNat ≠ 0 := fun e => h0 (BitVec.eq_of_toNat_eq (by simpa using e))
      omega⟩
    have hk' : (budget - 1#13).toNat = k := by
      have := budget.isLt
      rw [BitVec.toNat_sub]
      simp
      omega
    have hr := rdPtr_succ_toNat (w := rd) (n := k) (by omega)
    refine ⟨s.srcRead rd.toNat, ?_, ?_, by omega⟩
    · rw [fieldLeft, fieldLeft, hk, hk', hr, srcFrom_succ]
    · rw [treeByte, hb, if_neg h0]
      rfl

/-- What the loop does once a subtree is complete: the tree is whole and the loop ends, or the loop goes on. -/
def afterSubtree (s : State) (rd : Word) (budget : BitVec 13) (t : HuffTree) (stack : List (Option HuffTree)) (n : Nat) :
    Except Stop State :=
  if (attach t stack).1.isSome then .ok (atTree s rd budget (attach t stack).1 (attach t stack).2)
  else deserLoop n (atTree s rd budget none (attach t stack).2)

theorem attach_isNone {t : HuffTree} {stack : List (Option HuffTree)} (h : ¬ (attach t stack).1.isSome) :
    (attach t stack).1 = none := by
  simpa using h

theorem afterSubtree_leaf (s : State) (rd : Word) (budget : BitVec 13) (v : Byte) (stack : List (Option HuffTree)) (n : Nat) :
    (if (deserLeaf v (atTree s rd budget none stack)).eng.root.isSome then
        (.ok (deserLeaf v (atTree s rd budget none stack)) : Except Stop State)
      else deserLoop n (deserLeaf v (atTree s rd budget none stack))) = afterSubtree s rd budget (.leaf v 0#32) stack n := by
  have h : deserLeaf v (atTree s rd budget none stack) =
      atTree s rd budget (attach (.leaf v 0#32) stack).1 (attach (.leaf v 0#32) stack).2 := rfl
  rw [h, afterSubtree]
  have hr : (atTree s rd budget (attach (.leaf v 0#32) stack).1 (attach (.leaf v 0#32) stack).2).eng.root =
    (attach (.leaf v 0#32) stack).1 := rfl
  rw [hr]
  split
  · rfl
  · rename_i hn
    rw [attach_isNone hn]

theorem deserLoop_succ (n : Nat) (s : State) :
    deserLoop (n + 1) s = (deserHead s >>= fun s => if s.eng.root.isSome then .ok s else deserLoop n s) := rfl

/-- R38: the pending right subtrees: the nodes on the path whose left subtree is still being read. -/
def pending (stack : List (Option HuffTree)) : Nat :=
  stack.countP Option.isNone

/-- R173: a node takes at least one byte. -/
theorem deserNode_consumes (n : Nat) : ∀ (field : Bytes) (t : HuffTree) (rest : Bytes), deserNode n field = some (t, rest) →
    rest.length < field.length := by
  induction n with
  | zero => intro field t rest h; cases h
  | succ n ih =>
    intro field t rest h
    match field with
    | [] => cases h
    | b :: field =>
      rw [deserNode_cons] at h
      split at h
      · match field, h with
        | v :: field, h => cases h; simp
      · split at h
        · rw [Option.bind_eq_bind, Option.bind_eq_some_iff] at h
          obtain ⟨⟨l, r1⟩, h1, h⟩ := h
          simp only [Option.bind_eq_some_iff] at h
          obtain ⟨⟨r, r2⟩, h2, h⟩ := h
          cases h
          have := ih _ _ _ h1
          have := ih _ _ _ h2
          simp only [List.length_cons]
          omega
        · cases h; simp

/-- R173: an internal node takes at least three. -/
theorem deserNode_mark_consumes {n : Nat} {field : Bytes} {t : HuffTree} {rest : Bytes}
    (h : deserNode n (mark :: field) = some (t, rest)) : rest.length + 2 ≤ field.length := by
  cases n with
  | zero => cases h
  | succ n =>
    rw [deserNode_mark, Option.bind_eq_bind, Option.bind_eq_some_iff] at h
    obtain ⟨⟨l, r1⟩, h1, h⟩ := h
    simp only [Option.bind_eq_some_iff] at h
    obtain ⟨⟨r, r2⟩, h2, h⟩ := h
    cases h
    have := deserNode_consumes _ _ _ _ h1
    have := deserNode_consumes _ _ _ _ h2
    show r2.length + 2 ≤ field.length
    omega

/-- R173, R38: the loop with its stack reads what the recursive descent reads. From a state that expects a node, it raises
CorruptTree when the descent does, and otherwise goes on behind the subtree the descent gives, which it has attached; or it has raised
CorruptTree for want of stack, and then too few bytes are left for the pending subtrees. `hroom` says that each node on the path has
taken a byte, and two where its left subtree is complete. -/
theorem deserLoop_deserNode (m : Nat) (s : State) (rd : Word) (budget : BitVec 13) (stack : List (Option HuffTree)) (n : Nat)
    (hr : rd.toNat + budget.toNat < 2 ^ 32) (hm : budget.toNat ≤ m) (hn : budget.toNat ≤ n)
    (hroom : 2 * stack.length + budget.toNat ≤ 8191 + pending stack) :
    match deserNode m (fieldLeft s rd budget) with
    | none => deserLoop n (atTree s rd budget none stack) = .error (.raise .corruptTree)
    | some (t, rest) =>
      (deserLoop n (atTree s rd budget none stack) = .error (.raise .corruptTree) ∧ rest.length < pending stack) ∨
      ∃ rd' budget' n', rest = fieldLeft s rd' budget' ∧ rd'.toNat + budget'.toNat = rd.toNat + budget.toNat ∧
        budget'.toNat < budget.toNat ∧ budget'.toNat ≤ n' ∧
        deserLoop n (atTree s rd budget none stack) = afterSubtree s rd' budget' t stack n' := by
  induction m generalizing rd budget stack n with
  | zero =>
    cases n with
    | zero => rfl
    | succ n =>
      rcases treeByte_atTree s rd budget none stack hr with ⟨-, h2⟩ | ⟨b, h1, -⟩
      · simp only [deserNode]
        rw [deserLoop_succ, deserHead, h2]
        rfl
      · have := fieldLeft_length s rd budget
        rw [h1] at this
        simp at this
        omega
  | succ m ih =>
    rcases treeByte_atTree s rd budget none stack hr with ⟨h1, h2⟩ | ⟨b, h1, h2, h3⟩
    · rw [h1]
      simp only [deserNode]
      cases n with
      | zero => rfl
      | succ n =>
        rw [deserLoop_succ, deserHead, h2]
        rfl
    · have hlen := congrArg List.length h1
      simp only [List.length_cons, fieldLeft_length] at hlen
      obtain ⟨n, rfl⟩ : ∃ k, n = k + 1 := ⟨n - 1, by omega⟩
      rw [h1, deserNode_cons]
      by_cases he : b = esc
      · rw [if_pos he]
        rcases treeByte_atTree s (rd + 1#32) (budget - 1#13) none stack (by omega) with ⟨g1, g2⟩ | ⟨v, g1, g2, g3⟩
        · rw [g1]
          simp only
          rw [deserLoop_succ, deserHead, h2]
          simp only [bind_ok, if_pos he, g2, bind_error]
        · have glen := congrArg List.length g1
          simp only [List.length_cons, fieldLeft_length] at glen
          rw [g1]
          refine .inr ⟨_, _, n, rfl, by omega, by omega, by omega, ?_⟩
          rw [deserLoop_succ, deserHead, h2]
          simp only [bind_ok, if_pos he, g2, pure_eq_ok]
          exact afterSubtree_leaf s _ _ v stack n
      · rw [if_neg he]
        by_cases hk : b = mark
        · rw [if_pos hk]
          by_cases hfull : stack.length < decStack
          · have hhead : deserLoop (n + 1) (atTree s rd budget none stack) =
                deserLoop n (atTree s (rd + 1#32) (budget - 1#13) none (none :: stack)) := by
              rw [deserLoop_succ, deserHead, h2]
              have hst : (atTree s (rd + 1#32) (budget - 1#13) none stack).eng.stack.length < decStack := hfull
              simp only [bind_ok, if_neg he, if_pos hk, deserMark, if_pos hst]
              rfl
            rw [hhead]
            have hp : pending (none :: stack) = pending stack + 1 := by simp [pending]
            have ihl := ih (rd + 1#32) (budget - 1#13) (none :: stack) n (by omega) (by omega) (by omega)
              (by rw [hp, List.length_cons]; omega)
            cases hl : deserNode m (fieldLeft s (rd + 1#32) (budget - 1#13)) with
            | none =>
              rw [hl] at ihl
              simpa using ihl
            | some p =>
              obtain ⟨l, rest⟩ := p
              rw [hl] at ihl
              rcases ihl with ⟨e1, e2⟩ | ⟨rd1, bu1, n1, hrest, e1, e2, e3, e4⟩
              · cases hr2 : deserNode m rest with
                | none =>
                  simp only [Option.bind_eq_bind, Option.bind_some, hr2, Option.bind_none]
                  exact e1
                | some p =>
                  obtain ⟨r, rest2⟩ := p
                  simp only [Option.bind_eq_bind, Option.bind_some, hr2]
                  have := deserNode_consumes _ _ _ _ hr2
                  exact .inl ⟨e1, by omega⟩
              · have e4' : deserLoop n (atTree s (rd + 1#32) (budget - 1#13) none (none :: stack)) =
                    deserLoop n1 (atTree s rd1 bu1 none (some l :: stack)) := e4
                have hp' : pending (some l :: stack) = pending stack := by simp [pending]
                have ihr := ih rd1 bu1 (some l :: stack) n1 (by omega) (by omega) (by omega)
                  (by rw [hp', List.length_cons]; omega)
                rw [← hrest, hp'] at ihr
                cases hr2 : deserNode m rest with
                | none =>
                  rw [hr2] at ihr
                  simp only [Option.bind_eq_bind, Option.bind_some, hr2, Option.bind_none]
                  rw [e4']
                  exact ihr
                | some p =>
                  obtain ⟨r, rest2⟩ := p
                  rw [hr2] at ihr
                  simp only [Option.bind_eq_bind, Option.bind_some, hr2]
                  rcases ihr with ⟨f1, f2⟩ | ⟨rd2, bu2, n2, hrest2, f1, f2, f3, f4⟩
                  · exact .inl ⟨e4'.trans f1, f2⟩
                  · refine .inr ⟨rd2, bu2, n2, hrest2, by omega, by omega, f3, ?_⟩
                    rw [e4', f4]
                    rfl
          · have hstop : deserLoop (n + 1) (atTree s rd budget none stack) = .error (.raise .corruptTree) := by
              rw [deserLoop_succ, deserHead, h2]
              have hst : ¬ (atTree s (rd + 1#32) (budget - 1#13) none stack).eng.stack.length < decStack := hfull
              simp only [bind_ok, if_neg he, if_pos hk, deserMark, if_neg hst, bind_error]
            have hshort : ∀ t rest, deserNode (m + 1) (mark :: fieldLeft s (rd + 1#32) (budget - 1#13)) = some (t, rest) →
                rest.length < pending stack := by
              intro t rest h
              have := deserNode_mark_consumes h
              rw [fieldLeft_length] at this
              unfold decStack at hfull
              omega
            rw [deserNode_mark] at hshort
            split
            · exact hstop
            · rename_i h
              exact .inl ⟨hstop, hshort _ _ h⟩
        · rw [if_neg hk]
          refine .inr ⟨_, _, n, rfl, by omega, by omega, by omega, ?_⟩
          rw [deserLoop_succ, deserHead, h2]
          simp only [bind_ok, if_neg he, if_neg hk, pure_eq_ok]
          exact afterSubtree_leaf s _ _ b stack n

/-- R174: the deserializer phase reads what DeserializeTree gives on the tree field. -/
theorem readTree_eq (s : State) (hb : s.eng.budget = s.eng.treeSize) (hr : s.eng.rdPtr.toNat + s.eng.treeSize.toNat < 2 ^ 32) :
    match deserializeTree (s.srcFrom s.eng.rdPtr.toNat s.eng.treeSize.toNat) with
    | none => readTree s = .error (.raise .corruptTree)
    | some root => ∃ rd budget, readTree s = .ok (atTree s rd budget root []) := by
  have hs : { s with eng := { s.eng with root := none, stack := [] } } = atTree s s.eng.rdPtr s.eng.treeSize none [] := by
    rw [← hb]
    rfl
  unfold readTree
  simp only [hs]
  by_cases h0 : s.eng.treeSize = 0#13
  · rw [if_pos h0]
    have : s.srcFrom s.eng.rdPtr.toNat s.eng.treeSize.toNat = [] := by rw [h0]; rfl
    rw [this]
    exact ⟨_, _, rfl⟩
  · rw [if_neg h0]
    have hpos : s.eng.treeSize.toNat ≠ 0 := fun e => h0 (BitVec.eq_of_toNat_eq (by simpa using e))
    have hmain := deserLoop_deserNode s.eng.treeSize.toNat s s.eng.rdPtr s.eng.treeSize [] s.eng.treeSize.toNat hr
      (le_refl _) (le_refl _) (by have := s.eng.treeSize.isLt; simp [pending]; omega)
    have hfield : fieldLeft s s.eng.rdPtr s.eng.treeSize = s.srcFrom s.eng.rdPtr.toNat s.eng.treeSize.toNat := rfl
    have hne : s.srcFrom s.eng.rdPtr.toNat s.eng.treeSize.toNat ≠ [] := fun e => by
      have := congrArg List.length e
      rw [srcFrom_length] at this
      exact hpos this
    have hdt : deserializeTree (s.srcFrom s.eng.rdPtr.toNat s.eng.treeSize.toNat) =
        wholeTree (deserNode s.eng.treeSize.toNat (s.srcFrom s.eng.rdPtr.toNat s.eng.treeSize.toNat)) := by
      rw [deserializeTree, if_neg hne, srcFrom_length]
    rw [hdt]
    rw [hfield] at hmain
    cases hd : deserNode s.eng.treeSize.toNat (s.srcFrom s.eng.rdPtr.toNat s.eng.treeSize.toNat) with
    | none =>
      rw [hd] at hmain
      simp only [wholeTree]
      rw [hmain]
      rfl
    | some p =>
      obtain ⟨t, rest⟩ := p
      rw [hd] at hmain
      obtain ⟨rd, bu, n, hrest, -, -, -, hloop⟩ := hmain.resolve_left (fun h => by simp [pending] at h)
      have hloop' : deserLoop s.eng.treeSize.toNat (atTree s s.eng.rdPtr s.eng.treeSize none []) =
          .ok (atTree s rd bu (some t) []) := hloop
      have hlen := congrArg List.length hrest
      rw [fieldLeft_length] at hlen
      rw [hloop']
      cases rest with
      | nil =>
        have : bu = 0#13 := BitVec.eq_of_toNat_eq (by simpa using hlen.symm)
        refine ⟨rd, bu, ?_⟩
        simp only [bind_ok]
        have hbu : (atTree s rd bu (some t) []).eng.budget = 0#13 := this
        rw [hbu]
        rfl
      | cons b rest =>
        simp only [bind_ok]
        have hbu : (atTree s rd bu (some t) []).eng.budget ≠ 0#13 := by
          intro e
          have e' : bu = 0#13 := e
          rw [e'] at hlen
          simp at hlen
        rw [check, if_neg (by simpa using hbu)]
        rfl

/-! ### Payload bits -/

/-- R61: payload bit `k` of the payload that starts at index `q` of SRC. -/
def bitAt (s : State) (q k : Nat) : Bool :=
  streamBit (s.srcRead (q + k / 8)) (k % 8)

/-- Payload bits `k` to `k + n − 1`. -/
def bitsFrom (s : State) (q k n : Nat) : Bits :=
  (List.range n).map (fun j => bitAt s q (k + j))

theorem bitsFrom_succ (s : State) (q k n : Nat) : bitsFrom s q k (n + 1) = bitAt s q k :: bitsFrom s q (k + 1) n := by
  rw [bitsFrom, bitsFrom, List.range_succ_eq_map, List.map_cons, List.map_map]
  refine congrArg₂ List.cons rfl (List.map_congr_left fun j _ => ?_)
  simp only [Function.comp]
  congr 1
  omega

theorem bitsFrom_length (s : State) (q k n : Nat) : (bitsFrom s q k n).length = n := by
  simp [bitsFrom]

theorem bitAt_congr {s t : State} (h : t.src = s.src) (q k : Nat) : bitAt t q k = bitAt s q k := by
  rw [bitAt, bitAt, srcRead_congr h]

theorem bitsFrom_congr {s t : State} (h : t.src = s.src) (q k n : Nat) : bitsFrom t q k n = bitsFrom s q k n := by
  simp [bitsFrom, bitAt_congr h]

/-- R94: the first `n` bits of a payload of `m` bytes. -/
theorem payloadBits_take (s : State) (q m n : Nat) (h : n ≤ 8 * m) :
    (payloadBits (s.srcFrom q m)).take n = bitsFrom s q 0 n := by
  have hl : (payloadBits (s.srcFrom q m)).length = 8 * m := by rw [payloadBits_length, srcFrom_length]
  have hfull : payloadBits (s.srcFrom q m) = bitsFrom s q 0 (8 * m) := by
    clear h hl n
    induction m with
    | zero => rfl
    | succ m ih =>
      have h1 : s.srcFrom q (m + 1) = s.srcFrom q m ++ [s.srcRead (q + m)] := by
        simp [State.srcFrom, List.range_succ]
      have h2 : bitsFrom s q 0 (8 * (m + 1)) = bitsFrom s q 0 (8 * m) ++ streamBits (s.srcRead (q + m)) := by
        rw [bitsFrom, Nat.mul_succ, List.range_add, List.map_append, List.map_map]
        refine congrArg₂ _ rfl (List.map_congr_left fun j hj => ?_)
        have hj := List.mem_range.1 hj
        simp only [Function.comp, bitAt, Nat.zero_add]
        have e1 : (8 * m + j) / 8 = m := by omega
        have e2 : (8 * m + j) % 8 = j := by omega
        rw [e1, e2]
      rw [h1, h2, ← ih]
      simp [payloadBits]
  rw [hfull]
  simp only [bitsFrom, ← List.map_take, List.take_range]
  congr 2
  omega

/-- The unpacker's registers stand before payload bit `k` of the payload at `q`. -/
structure AtBit (s : State) (q k : Nat) : Prop where
  idx : s.eng.bitIdx = BitVec.ofNat 3 k
  rd : s.eng.rdPtr.toNat = q + (k + 7) / 8
  byte : k % 8 ≠ 0 → s.eng.inByte = s.srcRead (q + k / 8)

/-- R204: the next payload bit, and the registers before the one after it. -/
theorem payloadBit_spec {s : State} {q k : Nat} (h : AtBit s q k) (hr : q + (k + 8) / 8 < 2 ^ 32) :
    (payloadBit s).1 = bitAt s q k ∧ AtBit (payloadBit s).2 q (k + 1) ∧
      (payloadBit s).2 = { s with eng := { s.eng with
        bitIdx := (payloadBit s).2.eng.bitIdx, rdPtr := (payloadBit s).2.eng.rdPtr, inByte := (payloadBit s).2.eng.inByte,
        bitsLeft := s.eng.bitsLeft - 1 } } := by
  have hidx : s.eng.bitIdx.toNat = k % 8 := by rw [h.idx]; simp
  have hnext : s.eng.bitIdx + 1 = BitVec.ofNat 3 (k + 1) := by rw [h.idx, BitVec.ofNat_add]; rfl
  by_cases h0 : k % 8 = 0
  · have hz : s.eng.bitIdx = 0#3 := BitVec.eq_of_toNat_eq (by simpa [h0] using hidx)
    have hrd : s.eng.rdPtr.toNat = q + k / 8 := by rw [h.rd]; omega
    have hload : loadPayloadByte s = { s with eng := { s.eng with
        inByte := s.srcRead (q + k / 8), rdPtr := s.eng.rdPtr + 1 } } := by
      rw [loadPayloadByte, if_pos hz, srcAtRdPtr, hrd]
    refine ⟨?_, ⟨?_, ?_, ?_⟩, ?_⟩
    · simp only [payloadBit, hload, bitAt, hidx]
    · simp only [payloadBit, hload, hnext]
    · simp only [payloadBit, hload]
      have := rdPtr_succ_toNat (w := s.eng.rdPtr) (n := 0) (by omega)
      have e : (s.eng.rdPtr + 1).toNat = s.eng.rdPtr.toNat + 1 := this
      omega
    · intro _
      simp only [payloadBit, hload]
      have e : (k + 1) / 8 = k / 8 := by omega
      rw [e]
      rfl
    · simp only [payloadBit, hload]
  · have hz : s.eng.bitIdx ≠ 0#3 := by
      intro e
      rw [e] at hidx
      simp at hidx
      omega
    have hload : loadPayloadByte s = s := by rw [loadPayloadByte, if_neg hz]
    refine ⟨?_, ⟨?_, ?_, ?_⟩, ?_⟩
    · simp only [payloadBit, hload, bitAt, hidx, h.byte h0]
    · simp only [payloadBit, hload, hnext]
    · simp only [payloadBit, hload]
      have := h.rd
      omega
    · intro h1
      simp only [payloadBit, hload]
      have e : (k + 1) / 8 = k / 8 := by omega
      rw [e]
      exact h.byte h0
    · simp only [payloadBit, hload]

/-- What the unpacker leaves unchanged: everything but DST and the datapath. -/
def sameButDatapath (s t : State) : Prop :=
  t = { s with dst := t.dst, eng := t.eng } ∧ t.eng.garbage = s.eng.garbage ∧ t.eng.treeSize = s.eng.treeSize ∧
    t.eng.root = s.eng.root

theorem sameButDatapath.refl (s : State) : sameButDatapath s s := ⟨rfl, rfl, rfl, rfl⟩

theorem sameButDatapath.trans {s t u : State} (h1 : sameButDatapath s t) (h2 : sameButDatapath t u) :
    sameButDatapath s u := by
  refine ⟨?_, h2.2.1.trans h1.2.1, h2.2.2.1.trans h1.2.2.1, h2.2.2.2.trans h1.2.2.2⟩
  have e2 := h2.1
  rw [h1.1] at e2
  exact e2

theorem sameButDatapath.src {s t : State} (h : sameButDatapath s t) : t.src = s.src := by rw [h.1]
theorem sameButDatapath.params {s t : State} (h : sameButDatapath s t) : t.params = s.params := by rw [h.1]

theorem dstPut_sameButDatapath {v : Byte} {s t : State} (h : dstPut v s = .ok t) : sameButDatapath s t := by
  rw [dstPut_eq] at h
  split at h
  · cases h; exact ⟨rfl, rfl, rfl, rfl⟩
  · cases h

/-- The bytes `out` written at WR_PTR, and everything else the loops below keep. -/
structure Wrote (s t : State) (out : Bytes) : Prop where
  same : sameButDatapath s t
  dst : t.dst = Memory.storeAll s.dst s.eng.wrPtr.toNat out
  wr : t.eng.wrPtr = s.eng.wrPtr + BitVec.ofNat 32 out.length

/-- R207: whether `out` more bytes fit at WR_PTR. -/
def fits (s : State) (out : Bytes) : Prop :=
  out.length = 0 ∨ s.eng.wrPtr.toNat + out.length ≤ s.params.dstMax.toNat

/-- One more byte in front of an output: it fits first, and the rest fits behind it. -/
theorem fits_cons {s t : State} {v : Byte} {out : Bytes} (ht : t.eng.wrPtr = s.eng.wrPtr + 1#32) (hp : t.params = s.params) :
    fits s (v :: out) ↔ s.eng.wrPtr.toNat < s.params.dstMax.toNat ∧ fits t out := by
  unfold fits
  constructor
  · intro h
    have h : s.eng.wrPtr.toNat + (out.length + 1) ≤ s.params.dstMax.toNat := by simpa using h
    have hlt : s.eng.wrPtr.toNat < s.params.dstMax.toNat := by omega
    refine ⟨hlt, .inr ?_⟩
    rw [ht, hp, wrPtr_succ_toNat hlt]
    omega
  · rintro ⟨hlt, h⟩
    rw [ht, hp, wrPtr_succ_toNat hlt] at h
    right
    simp only [List.length_cons]
    omega

theorem Wrote.cons {s t u : State} {v : Byte} {out : Bytes} (hs : sameButDatapath s t)
    (hd : t.dst = Memory.store s.dst s.eng.wrPtr.toNat v) (hw : t.eng.wrPtr = s.eng.wrPtr + 1#32)
    (hlt : s.eng.wrPtr.toNat < s.params.dstMax.toNat) (h : Wrote t u out) : Wrote s u (v :: out) := by
  refine ⟨hs.trans h.same, ?_, ?_⟩
  · rw [h.dst, hd, hw, wrPtr_succ_toNat hlt]
    rfl
  · rw [h.wr, hw, List.length_cons, BitVec.add_assoc, Nat.add_comm out.length 1, BitVec.ofNat_add]

/-- R205: the unary loop writes the leaf `n` times, or raises SinkUnwritable. -/
theorem emitLoop_spec (v : Byte) (n : Nat) (s : State) :
    (fits s (List.replicate n v) → ∃ t, emitLoop v n s = .ok t ∧ Wrote s t (List.replicate n v) ∧ t.eng.mid = s.eng.mid) ∧
    (¬ fits s (List.replicate n v) → emitLoop v n s = .error (.raise .sinkUnwritable)) := by
  induction n generalizing s with
  | zero =>
    refine ⟨fun _ => ⟨s, rfl, ⟨.refl s, rfl, by simp⟩, rfl⟩, fun h => absurd (.inl rfl) h⟩
  | succ n ih =>
    rw [emitLoop, emit, dstPut_eq, List.replicate_succ]
    by_cases hlt : s.eng.wrPtr.toNat < s.params.dstMax.toNat
    · rw [if_pos hlt, bind_ok]
      generalize hm : ({ afterPut [v] s with eng := { (afterPut [v] s).eng with bitsLeft := (afterPut [v] s).eng.bitsLeft - 1 } } : State) = m
      have hmsame : sameButDatapath s m := by rw [← hm]; exact ⟨rfl, rfl, rfl, rfl⟩
      have hmwr : m.eng.wrPtr = s.eng.wrPtr + 1#32 := by rw [← hm]; rfl
      have hmdst : m.dst = Memory.store s.dst s.eng.wrPtr.toNat v := by rw [← hm]; rfl
      have hmmid : m.eng.mid = s.eng.mid := by rw [← hm]; rfl
      rw [fits_cons hmwr hmsame.params]
      obtain ⟨h1, h2⟩ := ih m
      constructor
      · rintro ⟨-, hf⟩
        obtain ⟨t, e1, e2, e3⟩ := h1 hf
        exact ⟨t, e1, Wrote.cons hmsame hmdst hmwr hlt e2, by rw [e3, hmmid]⟩
      · intro hf
        exact h2 (fun h => hf ⟨hlt, h⟩)
    · rw [if_neg hlt, bind_error, fits_cons (t := { s with eng := { s.eng with wrPtr := s.eng.wrPtr + 1#32 } }) rfl rfl]
      exact ⟨fun h => absurd h.1 hlt, fun _ => rfl⟩

/-- R204: the loop through an internal root writes the bytes the walk emits and ends inside a code exactly when the walk does, or
raises SinkUnwritable. -/
theorem unpackLoop_spec (n : Nat) (s : State) (q k : Nat) {f g : Word} {rootL rootR l r : HuffTree}
    (hroot : s.eng.root = some (.node f rootL rootR)) (hcur : s.eng.cur = some (.node g l r)) (hat : AtBit s q k)
    (hr : q + (k + n + 7) / 8 < 2 ^ 32) :
    (fits s (unpackBits rootL rootR l r s.eng.mid (bitsFrom s q k n)).1 →
      ∃ t, unpackLoop n s = .ok t ∧ Wrote s t (unpackBits rootL rootR l r s.eng.mid (bitsFrom s q k n)).1 ∧
        t.eng.mid = (unpackBits rootL rootR l r s.eng.mid (bitsFrom s q k n)).2) ∧
    (¬ fits s (unpackBits rootL rootR l r s.eng.mid (bitsFrom s q k n)).1 →
      unpackLoop n s = .error (.raise .sinkUnwritable)) := by
  induction n generalizing s k g l r with
  | zero =>
    refine ⟨fun _ => ⟨s, rfl, ⟨.refl s, rfl, ?_⟩, rfl⟩, fun h => absurd (.inl rfl) h⟩
    simp [bitsFrom, unpackBits]
  | succ n ih =>
    obtain ⟨hbit, hat', hstate⟩ := payloadBit_spec hat (by omega)
    rw [bitsFrom_succ, unpackLoop, hbit, unpackBits]
    generalize (payloadBit s).2 = p at hat' hstate
    have hpsrc : p.src = s.src := by rw [hstate]
    have hproot : p.eng.root = some (.node f rootL rootR) := by rw [hstate]; exact hroot
    have hpcur : p.eng.cur = some (.node g l r) := by rw [hstate]; exact hcur
    have hsame : sameButDatapath s p := by rw [hstate]; exact ⟨rfl, rfl, rfl, rfl⟩
    have hpwr : p.eng.wrPtr = s.eng.wrPtr := by rw [hstate]
    have hpdst : p.dst = s.dst := by rw [hstate]
    have hppar : p.params = s.params := by rw [hstate]
    rw [descend, hpcur]
    simp only
    cases hch : (if bitAt s q k then r else l) with
    | leaf v w =>
      simp only
      rw [emit, dstPut_eq]
      by_cases hlt : p.eng.wrPtr.toNat < p.params.dstMax.toNat
      · rw [if_pos hlt, bind_ok, pure_eq_ok, bind_ok]
        generalize hm : ({ afterPut [v] p with eng := { (afterPut [v] p).eng with cur := (afterPut [v] p).eng.root, mid := false } } : State) = m
        have hmroot : m.eng.root = some (.node f rootL rootR) := by rw [← hm]; exact hproot
        have hmcur : m.eng.cur = some (.node f rootL rootR) := by rw [← hm]; exact hproot
        have hmsrc : m.src = s.src := by rw [← hm]; exact hpsrc
        have hmmid : m.eng.mid = false := by rw [← hm]
        have hmsame : sameButDatapath s m := hsame.trans (by rw [← hm]; exact ⟨rfl, rfl, rfl, rfl⟩)
        have hmwr : m.eng.wrPtr = s.eng.wrPtr + 1#32 := by rw [← hm, ← hpwr]; rfl
        have hmdst : m.dst = Memory.store s.dst s.eng.wrPtr.toNat v := by rw [← hm, ← hpwr, ← hpdst]; rfl
        have hmat : AtBit m q (k + 1) := by
          refine ⟨?_, ?_, ?_⟩
          · rw [← hm]; exact hat'.idx
          · rw [← hm]; exact hat'.rd
          · intro h1
            rw [srcRead_congr hmsrc, ← srcRead_congr hpsrc, ← hm]
            exact hat'.byte h1
        obtain ⟨h1, h2⟩ := ih m (k + 1) hmroot hmcur hmat (by omega)
        rw [hmmid, bitsFrom_congr hmsrc] at h1 h2
        rw [hpwr, hppar] at hlt
        rw [fits_cons hmwr hmsame.params]
        constructor
        · rintro ⟨-, hf⟩
          obtain ⟨t, e1, e2, e3⟩ := h1 hf
          exact ⟨t, e1, Wrote.cons hmsame hmdst hmwr hlt e2, e3⟩
        · intro hf
          exact h2 (fun h => hf ⟨hlt, h⟩)
      · rw [if_neg hlt, bind_error, bind_error]
        rw [hpwr, hppar] at hlt
        rw [fits_cons (t := { s with eng := { s.eng with wrPtr := s.eng.wrPtr + 1#32 } }) rfl rfl]
        exact ⟨fun h => absurd h.1 hlt, fun _ => rfl⟩
    | node w l' r' =>
      simp only [bind_ok]
      generalize hm : ({ p with eng := { p.eng with cur := some (.node w l' r'), mid := true } } : State) = m
      have hmroot : m.eng.root = some (.node f rootL rootR) := by rw [← hm]; exact hproot
      have hmcur : m.eng.cur = some (.node w l' r') := by rw [← hm]
      have hmsrc : m.src = s.src := by rw [← hm]; exact hpsrc
      have hmmid : m.eng.mid = true := by rw [← hm]
      have hmsame : sameButDatapath s m := hsame.trans (by rw [← hm]; exact ⟨rfl, rfl, rfl, rfl⟩)
      have hmwr : m.eng.wrPtr = s.eng.wrPtr := by rw [← hm, ← hpwr]
      have hmdst : m.dst = s.dst := by rw [← hm, ← hpdst]
      have hmat : AtBit m q (k + 1) := by
        refine ⟨?_, ?_, ?_⟩
        · rw [← hm]; exact hat'.idx
        · rw [← hm]; exact hat'.rd
        · intro h1
          rw [srcRead_congr hmsrc, ← srcRead_congr hpsrc, ← hm]
          exact hat'.byte h1
      obtain ⟨h1, h2⟩ := ih m (k + 1) hmroot hmcur hmat (by omega)
      rw [hmmid, bitsFrom_congr hmsrc] at h1 h2
      unfold fits at h1 h2 ⊢
      rw [hmwr, hmsame.params] at h1 h2
      constructor
      · intro hf
        obtain ⟨t, e1, e2, e3⟩ := h1 hf
        exact ⟨t, e1, ⟨hmsame.trans e2.same, by rw [e2.dst, hmdst, hmwr], by rw [e2.wr, hmwr]⟩, e3⟩
      · exact h2

end Sys2Proof.Machine
end

