-- ==== Sys2Proof/Laws/Phases.lean ====
section
/-! SUPPORT. What each phase of the engine can do from a state in which the invariants hold: go on to the next phase, finish the
command with the result it owes, or raise the error it owes (43_container_codec.md R232, R233; 60_exceptions.md R278). -/

namespace Sys2Proof.Machine

/-- The three ways a phase can end. -/
inductive PhaseOutcome (s : State) : Except Stop State → Prop
  /-- The next phase, with its data in place; nothing behind the result's end has been written. -/
  | goes (t : State) (hphase : t.phase = s.phase.next) (hbusy : t.phase ≠ .idle)
      (hframe : t = { s with phase := t.phase, eng := t.eng, dst := t.dst })
      (hwf : Memory.wf t.dst) (hbelow : Memory.below t.dst s.params.dstMax.toNat)
      (hfreq : t.eng.freq.length = 256) (hcode : t.eng.code.length = 256)
      (hdata : t.DataInv)
      (hbeyond : ∀ out h, s.commandResult = .ok (out, h) → ∀ i, out.length ≤ i → Memory.lookup t.dst i = Memory.lookup s.dst i) :
      PhaseOutcome s (.ok t)
  /-- Success with the result the command owes. -/
  | finishes (u : State) (n : Word) (out : Bytes) (h : BitVec 16) (hnext : s.phase.next = .idle)
      (hresult : s.commandResult = .ok (out, h)) (hn : n.toNat = out.length)
      (hframe : u = { s with eng := u.eng, dst := u.dst })
      (hwf : Memory.wf u.dst) (hbelow : Memory.below u.dst s.params.dstMax.toNat)
      (hfreq : u.eng.freq.length = 256) (hcode : u.eng.code.length = 256)
      (hholds : u.dstHolds out)
      (hbeyond : ∀ i, out.length ≤ i → Memory.lookup u.dst i = Memory.lookup s.dst i) :
      PhaseOutcome s (.ok (completeOk n h u))
  /-- The error the command owes. -/
  | fails (e : CmdError) (hresult : s.commandResult = .error e) : PhaseOutcome s (.error (.raise e))

/-! ### The result a command owes, case by case -/

theorem commandResult_compress {s : State} (h : s.latch.op = 1#4) :
    s.commandResult = compressBytes s.input s.latch.degen s.params.srcMax.toNat s.params.dstMax.toNat := by
  rw [State.commandResult, if_pos h]

theorem commandResult_decompress {s : State} (h : s.latch.op = 2#4) :
    s.commandResult = decompressBytes s.input s.latch.degen s.params.srcMax.toNat s.params.dstMax.toNat := by
  rw [State.commandResult, if_neg (by rw [h]; decide), if_pos h]

theorem commandResult_reserved {s : State} (h : 3 ≤ s.latch.op.toNat) : s.commandResult = .error .badCommand := by
  rw [State.commandResult, if_neg, if_neg]
  · intro e; rw [e] at h; simp at h
  · intro e; rw [e] at h; simp at h

theorem srcLen_le_iff (s : State) : s.latch.srcLen ≤ s.params.srcMax ↔ s.input.length ≤ s.params.srcMax.toNat := by
  rw [input_length]
  exact BitVec.le_def

/-- R236: the container is owed once the first two checks have passed and it fits. -/
theorem compressResult_ok {s : State} (hop : s.latch.op = 1#4) (hg : CompressGoing s)
    (hfit : (container s.input).length ≤ s.params.dstMax.toNat) :
    s.commandResult = .ok (container s.input, containerHeader s.input) := by
  have h1 := (srcLen_le_iff s).1 hg.fitsSrc
  rw [commandResult_compress hop, compressBytes, if_neg (by omega), hg.severalSymbols, if_neg (by decide), if_neg (by omega)]

theorem compressResult_full {s : State} (hop : s.latch.op = 1#4) (hg : CompressGoing s)
    (hfit : s.params.dstMax.toNat < (container s.input).length) :
    s.commandResult = .error .sinkUnwritable := by
  have h1 := (srcLen_le_iff s).1 hg.fitsSrc
  rw [commandResult_compress hop, compressBytes, if_neg (by omega), hg.severalSymbols, if_neg (by decide), if_pos hfit]

theorem compressResult_length {s : State} (hop : s.latch.op = 1#4) (hg : CompressGoing s) {out : Bytes} {h : BitVec 16}
    (hr : s.commandResult = .ok (out, h)) : out = container s.input := by
  by_cases hfit : (container s.input).length ≤ s.params.dstMax.toNat
  · rw [compressResult_ok hop hg hfit] at hr
    cases hr; rfl
  · rw [compressResult_full hop hg (by omega)] at hr
    cases hr

/-! ### COMPRESS -/

theorem phaseCFreq_spec {s : State} (hi : s.Inv) (hp : s.phase = .cFreq) : PhaseOutcome s (phaseCFreq s) := by
  have hop : s.latch.op = 1#4 := by have := hi.op; rwa [hp] at this
  unfold phaseCFreq
  by_cases hc : s.latch.srcLen ≤ s.params.srcMax
  · rw [decide_eq_true hc, check_true, bind_ok]
    have hcount := countLoop_eq s.latch.srcLen.toNat { s with eng := { s.eng with freq := freqZero, rdPtr := 0#32 } } (by
      have := s.latch.srcLen.isLt
      simpa using this)
    simp only [hcount, pure_eq_ok]
    have hfr : (s.srcFrom 0 s.latch.srcLen.toNat).foldl freqBump freqZero = freqCount s.input := by
      rw [srcFrom_zero]; rfl
    refine .goes _ (by rw [hp]; rfl) (by simp [State.enter]) rfl hi.dstWf hi.dstBelow ?_ hi.code ?_ (fun _ _ _ _ _ => rfl)
    · show (List.foldl freqBump freqZero (s.srcFrom 0 s.latch.srcLen.toNat)).length = 256
      rw [hfr, freqCount_length]
    · intro _
      exact ⟨hc, hfr⟩
  · rw [decide_eq_false hc, check_false, bind_error]
    refine .fails _ ?_
    rw [srcLen_le_iff] at hc
    rw [commandResult_compress hop, compressBytes, if_pos (by omega)]

theorem phaseCBuild_spec {s : State} (hi : s.Inv) (hd : s.DataInv) (ht : s.tainted = false) (hp : s.phase = .cBuild) :
    PhaseOutcome s (phaseCBuild s) := by
  have hop : s.latch.op = 1#4 := by have := hi.op; rwa [hp] at this
  have hd' := hd ht
  rw [hp] at hd'
  obtain ⟨hsrc, hfreq⟩ := hd'
  unfold phaseCBuild
  rw [hfreq, treeBuild_input]
  have hroot : (treeOf s.input).toList.head? = treeOf s.input := by cases treeOf s.input <;> rfl
  simp only [hroot]
  cases hdeg : (isSingleLeaf (treeOf s.input) && s.latch.degen) with
  | false =>
    rw [Bool.not_false, check_true, bind_ok, pure_eq_ok]
    refine .goes _ (by rw [hp]; rfl) (by simp [State.enter]) rfl hi.dstWf hi.dstBelow ?_ hi.code ?_ (fun _ _ _ _ _ => rfl)
    · exact hi.freq
    · intro _
      exact ⟨⟨hsrc, hdeg⟩, rfl⟩
  | true =>
    rw [Bool.not_true, check_false, bind_error]
    refine .fails _ ?_
    have h1 := (srcLen_le_iff s).1 hsrc
    rw [commandResult_compress hop, compressBytes, if_neg (by omega), if_pos hdeg]

theorem phaseCCodes_spec {s : State} (hi : s.Inv) (hd : s.DataInv) (ht : s.tainted = false) (hp : s.phase = .cCodes) :
    PhaseOutcome s (phaseCCodes s) := by
  have hd' := hd ht
  rw [hp] at hd'
  obtain ⟨hg, hroot⟩ := hd'
  unfold phaseCCodes
  refine .goes _ (by rw [hp]; rfl) (by simp [State.enter]) rfl hi.dstWf hi.dstBelow hi.freq ?_ ?_ (fun _ _ _ _ _ => rfl)
  · exact codeBook_length _
  · intro _
    exact ⟨⟨hg.fitsSrc, hg.severalSymbols⟩, hroot, congrArg codeBook hroot⟩

theorem CompressGoing.congr {s t : State} (h : CompressGoing s) (hs : t.src = s.src) (hl : t.latch = s.latch)
    (hp : t.params = s.params) : CompressGoing t :=
  ⟨by rw [hl, hp]; exact h.fitsSrc, by rw [input_congr hs hl, hl]; exact h.severalSymbols⟩

/-- The sink after a further byte string that fits. -/
theorem SinkAt.put {s : State} {bytes vs : Bytes} (hwf : Memory.wf s.dst) (h : SinkAt s bytes)
    (hfit : bytes.length + vs.length ≤ s.params.dstMax.toNat) : SinkAt (afterPut vs s) (bytes ++ vs) := by
  refine ⟨?_, ?_, by simpa using hfit⟩
  · intro i hi
    rw [List.length_append] at hi
    rw [afterPut_dst, Memory.lookup_storeAll hwf, h.wrPtr]
    by_cases hlt : i < bytes.length
    · rw [if_neg (by omega), h.holds i hlt, List.getElem?_append_left hlt]
    · rw [if_pos (by omega), List.getElem?_append_right (by omega)]
  · rw [afterPut_wrPtr (by rw [h.wrPtr]; exact hfit), h.wrPtr, List.length_append]

theorem SinkAt.congr {s t : State} {bytes : Bytes} (h : SinkAt s bytes) (hd : t.dst = s.dst) (hw : t.eng.wrPtr = s.eng.wrPtr)
    (hp : t.params = s.params) : SinkAt t bytes :=
  ⟨fun i hi => by rw [hd]; exact h.holds i hi, by rw [hw]; exact h.wrPtr, by rw [hp]; exact h.room⟩

/-- Indices behind what has been written read as before. -/
theorem lookup_afterPut_beyond {s : State} {bytes vs : Bytes} (hwf : Memory.wf s.dst) (h : s.eng.wrPtr.toNat = bytes.length)
    {i : Nat} (hi : bytes.length + vs.length ≤ i) : Memory.lookup (afterPut vs s).dst i = Memory.lookup s.dst i := by
  rw [afterPut_dst, Memory.lookup_storeAll hwf, h, if_neg (by omega)]

theorem afterPut_below {s : State} {bytes vs : Bytes} {cap : Nat} (hb : Memory.below s.dst cap)
    (h : s.eng.wrPtr.toNat = bytes.length) (hfit : bytes.length + vs.length ≤ cap) : Memory.below (afterPut vs s).dst cap := by
  rw [afterPut_dst, h]
  exact Memory.storeAll_below hb (.inr hfit)

theorem phaseCPrefix_spec {s : State} (hi : s.Inv) (hd : s.DataInv) (ht : s.tainted = false) (hp : s.phase = .cPrefix) :
    PhaseOutcome s (phaseCPrefix s) := by
  have hop : s.latch.op = 1#4 := by have := hi.op; rwa [hp] at this
  have hd' := hd ht
  rw [hp] at hd'
  obtain ⟨hg, hroot, hcode⟩ := hd'
  have hlen := container_length s.input
  unfold phaseCPrefix
  generalize hs0 : ({ s with eng := { s.eng with wrPtr := 0#32 } } : State) = s0
  have hw0 : s0.eng.wrPtr.toNat = ([] : Bytes).length := by rw [← hs0]; rfl
  have hpar : s0.params = s.params := by rw [← hs0]
  have hdst0 : s0.dst = s.dst := by rw [← hs0]
  have hwf0 : Memory.wf s0.dst := by rw [hdst0]; exact hi.dstWf
  rw [dstPutAll_eq]
  by_cases hfit : 4 ≤ s.params.dstMax.toNat
  · rw [if_pos (.inr (by rw [hw0, hpar]; exact hfit)), bind_ok, pure_eq_ok]
    have hempty : SinkAt s0 [] := ⟨fun i hi => by simp at hi, hw0, by simp⟩
    have hput : SinkAt (afterPut placeholderPrefix s0) placeholderPrefix :=
      SinkAt.put (vs := placeholderPrefix) hwf0 hempty (by rw [hpar]; exact hfit)
    refine .goes ((afterPut placeholderPrefix s0).enter .cTree) (by rw [hp]; rfl) (by simp) (by rw [← hs0]; rfl)
      ?_ ?_ (by rw [← hs0]; exact hi.freq) (by rw [← hs0]; exact hi.code) ?_ ?_
    · exact Memory.storeAll_wf hwf0 _ _
    · exact afterPut_below (by rw [hdst0]; exact hi.dstBelow) hw0 hfit
    · intro _
      refine ⟨⟨?_, ?_⟩, ?_, ?_, hput.congr rfl rfl rfl⟩
      · rw [← hs0]; exact hg.fitsSrc
      · rw [← hs0]; exact hg.severalSymbols
      · rw [← hs0]; exact hroot
      · rw [← hs0]; exact hcode
    · intro out h hr i hle
      rw [compressResult_length hop hg hr, hlen] at hle
      have := lookup_afterPut_beyond (bytes := []) (vs := placeholderPrefix) hwf0 hw0 (i := i) (by
        have : placeholderPrefix.length = 4 := rfl
        simp only [List.length_nil, this]
        omega)
      rw [hdst0] at this
      exact this
  · rw [if_neg (by rw [hw0, hpar]; simp; omega), bind_error]
    exact .fails _ (compressResult_full hop hg (by omega))

theorem placeholderPrefix_length : placeholderPrefix.length = 4 := rfl

theorem phaseCTree_spec {s : State} (hi : s.Inv) (hd : s.DataInv) (ht : s.tainted = false) (hp : s.phase = .cTree) :
    PhaseOutcome s (phaseCTree s) := by
  have hop : s.latch.op = 1#4 := by have := hi.op; rwa [hp] at this
  have hd' := hd ht
  rw [hp] at hd'
  obtain ⟨hg, hroot, hcode, hsink⟩ := hd'
  have hlen := container_length s.input
  have hw := hsink.wrPtr
  rw [placeholderPrefix_length] at hw
  unfold phaseCTree
  simp only [hroot]
  rw [dstPutAll_eq]
  by_cases hfit : 4 + (serialize (treeOf s.input)).length ≤ s.params.dstMax.toNat
  · rw [if_pos (.inr (by rw [hw]; exact hfit)), bind_ok, pure_eq_ok]
    have hput := hsink.put hi.dstWf (vs := serialize (treeOf s.input)) hfit
    have hbeyond : ∀ i, 4 + (serialize (treeOf s.input)).length ≤ i →
        Memory.lookup (afterPut (serialize (treeOf s.input)) s).dst i = Memory.lookup s.dst i := fun i hle =>
      lookup_afterPut_beyond hi.dstWf hsink.wrPtr (by rw [placeholderPrefix_length]; exact hle)
    have hwf : Memory.wf (afterPut (serialize (treeOf s.input)) s).dst := Memory.storeAll_wf hi.dstWf _ _
    have hbelow : Memory.below (afterPut (serialize (treeOf s.input)) s).dst s.params.dstMax.toNat :=
      afterPut_below hi.dstBelow hsink.wrPtr hfit
    generalize hu : afterPut (serialize (treeOf s.input)) s = u at *
    have huframe : u = { s with eng := u.eng, dst := u.dst } := by rw [← hu]; rfl
    have hufreq : u.eng.freq.length = 256 := by rw [← hu]; exact hi.freq
    have hucode : u.eng.code = codeBook (treeOf s.input) := by rw [← hu]; exact hcode
    generalize hv : ({ u with eng := { u.eng with treeSize := BitVec.ofNat 13 (serialize (treeOf s.input)).length } } : State).enter .cPack = v
    have hvsrc : v.src = s.src := by rw [← hv, huframe]; rfl
    have hvlatch : v.latch = s.latch := by rw [← hv, huframe]; rfl
    have hvpar : v.params = s.params := by rw [← hv, huframe]; rfl
    have hvph : v.phase = .cPack := by rw [← hv]; rfl
    have hvdst : v.dst = u.dst := by rw [← hv]; rfl
    have hvts : v.eng.treeSize = BitVec.ofNat 13 (serialize (treeOf s.input)).length := by rw [← hv]; rfl
    have hvcode : v.eng.code = u.eng.code := by rw [← hv]; rfl
    have hvsink : SinkAt v (placeholderPrefix ++ serialize (treeOf s.input)) :=
      hput.congr hvdst (by rw [← hv]; rfl) (by rw [hvpar, huframe])
    refine .goes v (by rw [hp, hvph]; rfl) (by rw [hvph]; decide) (by rw [← hv, huframe]; rfl) (by rw [hvdst]; exact hwf)
      (by rw [hvdst]; exact hbelow) (by rw [← hv]; exact hufreq) (by rw [hvcode, hucode, codeBook_length]) ?_ ?_
    · intro _
      rw [hvph]
      refine ⟨hg.congr hvsrc hvlatch hvpar, ?_, ?_, ?_⟩
      · rw [hvcode, hucode, input_congr hvsrc hvlatch]
      · rw [hvts, input_congr hvsrc hvlatch]
      · rw [input_congr hvsrc hvlatch]
        exact hvsink
    · intro out h hr i hle
      rw [compressResult_length hop hg hr, hlen] at hle
      rw [hvdst]
      exact hbeyond i (by omega)
  · rw [if_neg, bind_error]
    · exact .fails _ (compressResult_full hop hg (by omega))
    · rw [hw]
      intro h
      rcases h with h | h
      · have := hsink.room
        rw [placeholderPrefix_length] at this
        omega
      · omega

theorem input_codes (s : State) :
    ∀ b ∈ s.input, ∃ c, codeOf (codeBook (treeOf s.input)) b = some c := by
  intro b hb
  obtain ⟨c, hc, -⟩ := inputCode_some (input_length_lt s) hb
  exact ⟨c, hc⟩

theorem phaseCPack_spec {s : State} (hi : s.Inv) (hd : s.DataInv) (ht : s.tainted = false) (hp : s.phase = .cPack) :
    PhaseOutcome s (phaseCPack s) := by
  have hop : s.latch.op = 1#4 := by have := hi.op; rwa [hp] at this
  have hd' := hd ht
  rw [hp] at hd'
  obtain ⟨hg, hcode, hts, hsink⟩ := hd'
  have hlen := container_length s.input
  have hpl : (placeholderPrefix ++ serialize (treeOf s.input)).length = 4 + (serialize (treeOf s.input)).length := by
    rw [List.length_append, placeholderPrefix_length]
  have hw := hsink.wrPtr
  generalize hs0 : ({ s with eng := { s.eng with rdPtr := 0#32 } } : State) = s0
  have hhold : ({ s with eng := { s.eng with acc := 0#8, nacc := 0#4, rdPtr := 0#32 } } : State) = holding [] s0 := by
    rw [← hs0]; rfl
  have hrd : s0.eng.rdPtr.toNat = 0 := by rw [← hs0]; rfl
  have hin : s0.srcFrom s0.eng.rdPtr.toNat s.latch.srcLen.toNat = s.input := by
    rw [hrd, srcFrom_zero, ← hs0]
    rfl
  have hcode0 : s0.eng.code = codeBook (treeOf s.input) := by rw [← hs0]; exact hcode
  have hbits : codeBits s0.eng.code (s0.srcFrom s0.eng.rdPtr.toNat s.latch.srcLen.toNat) = inputBits s.input := by
    rw [hin, hcode0]; rfl
  have hpack := pack_eq s.latch.srcLen.toNat s0 (by have := s.latch.srcLen.isLt; omega) (by
    rw [hin, hcode0]; exact input_codes s) hbits
  have hunf : phaseCPack s = (packLoop s.latch.srcLen.toNat (holding [] s0) >>= packFlush) >>= fun t => .ok (t.enter .cPatch) := by
    unfold phaseCPack
    rw [hhold]
    cases packLoop s.latch.srcLen.toNat (holding [] s0) with
    | error e => rfl
    | ok t => rfl
  have hw0 : s0.eng.wrPtr = s.eng.wrPtr := by rw [← hs0]
  have hp0 : s0.params = s.params := by rw [← hs0]
  have hd0 : s0.dst = s.dst := by rw [← hs0]
  rw [hunf, hpack, dstPutAll_eq, hw0, hp0, hw, hpl]
  by_cases hfit : 4 + (serialize (treeOf s.input)).length + (packBytes (inputBits s.input)).length ≤ s.params.dstMax.toNat
  · rw [if_pos (.inr hfit), bind_ok, bind_ok]
    have hsink0 : SinkAt s0 (placeholderPrefix ++ serialize (treeOf s.input)) := hsink.congr hd0 hw0 hp0
    have hput := hsink0.put (by rw [hd0]; exact hi.dstWf) (vs := packBytes (inputBits s.input)) (by rw [hp0, hpl]; exact hfit)
    have hdst : (afterPut (packBytes (inputBits s.input)) s0).dst = (afterPut (packBytes (inputBits s.input)) s).dst := by
      rw [afterPut_dst, afterPut_dst, hd0, hw0]
    have hwf : Memory.wf (afterPut (packBytes (inputBits s.input)) s).dst := Memory.storeAll_wf hi.dstWf _ _
    have hbelow : Memory.below (afterPut (packBytes (inputBits s.input)) s).dst s.params.dstMax.toNat :=
      afterPut_below hi.dstBelow hw (by rw [hpl]; exact hfit)
    have hbeyond : ∀ i, 4 + (serialize (treeOf s.input)).length + (packBytes (inputBits s.input)).length ≤ i →
        Memory.lookup (afterPut (packBytes (inputBits s.input)) s).dst i = Memory.lookup s.dst i := fun i hle =>
      lookup_afterPut_beyond hi.dstWf hw (by rw [hpl]; exact hle)
    rw [← hdst] at hwf hbelow hbeyond
    generalize hu : afterPut (packBytes (inputBits s.input)) s0 = u at *
    have huframe : u = { s with eng := u.eng, dst := u.dst } := by rw [← hu, ← hs0]; rfl
    have hueng : u.eng = { s.eng with rdPtr := 0#32, wrPtr := u.eng.wrPtr } := by rw [← hu, ← hs0]; rfl
    generalize hv : State.enter _ Phase.cPatch = v
    have hvsrc : v.src = s.src := by rw [← hv, huframe]; rfl
    have hvlatch : v.latch = s.latch := by rw [← hv, huframe]; rfl
    have hvpar : v.params = s.params := by rw [← hv, huframe]; rfl
    have hvph : v.phase = .cPatch := by rw [← hv]; rfl
    have hvdst : v.dst = u.dst := by rw [← hv]; rfl
    have hvts : v.eng.treeSize = s.eng.treeSize := by rw [← hv, enter_eng, hueng]
    have hvg : v.eng.garbage = BitVec.ofNat 3 (garbageCount (inputBits s.input).length) := by rw [← hv]; rfl
    have hvsink : SinkAt v (placeholderPrefix ++ serialize (treeOf s.input) ++ packBytes (inputBits s.input)) :=
      hput.congr hvdst (by rw [← hv]; rfl) (by rw [hvpar, huframe])
    refine .goes v (by rw [hp, hvph]; rfl) (by rw [hvph]; decide) (by rw [← hv, huframe]; rfl) (by rw [hvdst]; exact hwf)
      (by rw [hvdst]; exact hbelow) (by rw [← hv, enter_eng, hueng]; exact hi.freq)
      (by rw [← hv, enter_eng, hueng]; exact hi.code) ?_ ?_
    · intro _
      rw [hvph]
      refine ⟨hg.congr hvsrc hvlatch hvpar, ?_, ?_, ?_⟩
      · rw [hvts, hts, input_congr hvsrc hvlatch]
      · rw [hvg, input_congr hvsrc hvlatch]
      · rw [input_congr hvsrc hvlatch]
        exact hvsink
    · intro out h hr i hle
      rw [compressResult_length hop hg hr, hlen] at hle
      rw [hvdst]
      exact hbeyond i (by omega)
  · have hroom := hsink.room
    rw [hpl] at hroom
    rw [if_neg (by omega), bind_error, bind_error]
    exact .fails _ (compressResult_full hop hg (by omega))

end Sys2Proof.Machine
end

