-- ==== Sys2Proof/Laws/PhasesEnd.lean ====
section
/-! SUPPORT. The header back-patch and the phases of DECOMPRESS, and with them what every phase can do
(43_container_codec.md R232, R233; 42_bit_packer.md R203–R207). -/

namespace Sys2Proof.Machine

/-! ### The back-patch -/

theorem container_getElem? (x : Bytes) (i : Nat) :
    (container x)[i]? = if i = 3 then some (headerLow (containerHeader x)) else if i = 2 then some (headerHigh (containerHeader x))
      else (placeholderPrefix ++ serialize (treeOf x) ++ packBytes (inputBits x))[i]? := by
  match i with
  | 0 => rfl
  | 1 => rfl
  | 2 => rfl
  | 3 => rfl
  | i + 4 =>
    rw [if_neg (by omega), if_neg (by omega)]
    rfl

theorem phaseCPatch_spec {s : State} (hi : s.Inv) (hd : s.DataInv) (ht : s.tainted = false) (hp : s.phase = .cPatch) :
    PhaseOutcome s (phaseCPatch s) := by
  have hop : s.latch.op = 1#4 := by have := hi.op; rwa [hp] at this
  have hd' := hd ht
  rw [hp] at hd'
  obtain ⟨hg, hts, hgc, hsink⟩ := hd'
  have hlen : (placeholderPrefix ++ serialize (treeOf s.input) ++ packBytes (inputBits s.input)).length =
      (container s.input).length := by
    rw [container_length, List.length_append, List.length_append, placeholderPrefix_length]
  have hge : 4 ≤ (container s.input).length := by rw [container_length]; omega
  have hroom := hsink.room
  rw [hlen] at hroom
  have hh : headerPack s.eng.garbage s.eng.treeSize = containerHeader s.input := by rw [hgc, hts]; rfl
  have hrun : phaseCPatch s = .ok (completeOk s.eng.wrPtr (containerHeader s.input)
      { s with dst := (Memory.store (Memory.store s.dst 2 (headerHigh (containerHeader s.input))) 3 (headerLow (containerHeader s.input))) }) := by
    unfold phaseCPatch
    simp only [hh]
    have h2 : 2 < s.params.dstMax.toNat := by omega
    have h3 : 3 < s.params.dstMax.toNat := by omega
    simp only [dstWrite, if_pos h2, if_pos h3, bind_ok, pure_eq_ok]
  have hwf2 := Memory.store_wf hi.dstWf 2 (headerHigh (containerHeader s.input))
  rw [hrun]
  refine .finishes _ _ (container s.input) _ (by rw [hp]; rfl) (compressResult_ok hop hg hroom) ?_ rfl
    (Memory.store_wf hwf2 _ _) (Memory.store_below (Memory.store_below hi.dstBelow (by omega) _) (by omega) _)
    hi.freq hi.code ?_ ?_
  · rw [hsink.wrPtr, hlen]
  · intro i hlt
    rw [Memory.lookup_store hwf2, Memory.lookup_store hi.dstWf, container_getElem?]
    by_cases h3 : i = 3
    · rw [if_pos h3, if_pos h3]
    · rw [if_neg h3, if_neg h3]
      by_cases h2 : i = 2
      · rw [if_pos h2, if_pos h2]
      · rw [if_neg h2, if_neg h2]
        exact hsink.holds i (by rw [hlen]; exact hlt)
  · intro i hle
    rw [Memory.lookup_store hwf2, Memory.lookup_store hi.dstWf, if_neg (by omega), if_neg (by omega)]

/-! ### DECOMPRESS -/

theorem input_getD (s : State) {i : Nat} (h : i < s.latch.srcLen.toNat) : s.input.getD i 0#8 = s.srcRead i := by
  rw [State.input, State.srcBytes, List.getD_eq_getElem?_getD, List.getElem?_map, List.getElem?_range h]
  rfl

/-- A part of SRC[0..L_SRC_LEN). -/
theorem input_drop_take (s : State) (a b : Nat) (h : a + b ≤ s.latch.srcLen.toNat) :
    (s.input.drop a).take b = s.srcFrom a b := by
  apply List.ext_getElem
  · rw [List.length_take, List.length_drop, input_length, srcFrom_length]
    omega
  · intro i h1 h2
    simp [State.input, State.srcBytes, State.srcFrom]

theorem input_drop (s : State) (a : Nat) (h : a ≤ s.latch.srcLen.toNat) :
    s.input.drop a = s.srcFrom a (s.latch.srcLen.toNat - a) := by
  rw [← input_drop_take s a _ (by omega), List.take_of_length_le]
  rw [List.length_drop, input_length]

/-- R237: the checks on the lengths, with the header that SRC[2] and SRC[3] hold. -/
theorem decompressResult {s : State} (hop : s.latch.op = 2#4) (hsrc : s.latch.srcLen ≤ s.params.srcMax)
    (h4 : 4 ≤ s.latch.srcLen.toNat) :
    s.commandResult =
      if s.latch.srcLen.toNat < containerPrefix + (headerTreeSize (headerOfBytes (s.srcRead 2) (s.srcRead 3))).toNat then
        .error .corruptTree
      else decodeBody s.input (headerOfBytes (s.srcRead 2) (s.srcRead 3)) s.latch.degen s.params.dstMax.toNat := by
  have h1 := (srcLen_le_iff s).1 hsrc
  have hc : ¬ s.input.length < containerPrefix := by rw [input_length]; unfold containerPrefix; omega
  rw [commandResult_decompress hop, decompressBytes, if_neg (by omega), if_neg hc]
  simp only [input_getD s (show 2 < s.latch.srcLen.toNat by omega), input_getD s (show 3 < s.latch.srcLen.toNat by omega),
    input_length]

theorem phaseDHdr_spec {s : State} (hi : s.Inv) (hp : s.phase = .dHdr) : PhaseOutcome s (phaseDHdr s) := by
  have hop : s.latch.op = 2#4 := by have := hi.op; rwa [hp] at this
  unfold phaseDHdr
  by_cases hc : s.latch.srcLen ≤ s.params.srcMax
  · rw [decide_eq_true hc, check_true, bind_ok]
    have h1 := (srcLen_le_iff s).1 hc
    by_cases h4 : containerPrefix ≤ s.latch.srcLen.toNat
    · rw [decide_eq_true h4, check_true, bind_ok]
      have hres := decompressResult hop hc h4
      unfold takeHeader headerUnpack
      by_cases h5 : containerPrefix + (headerTreeSize (headerOfBytes (s.srcRead 2) (s.srcRead 3))).toNat ≤ s.latch.srcLen.toNat
      · rw [check_pos h5, bind_ok, pure_eq_ok]
        refine .goes _ (by rw [hp]; rfl) (by simp) rfl hi.dstWf hi.dstBelow hi.freq hi.code ?_ (fun _ _ _ _ _ => rfl)
        intro _
        exact ⟨hc, h5, headerPack_fields _, rfl, rfl⟩
      · rw [check_neg h5, bind_error]
        refine .fails _ ?_
        rw [hres, if_pos (by omega)]
    · rw [decide_eq_false h4, check_false, bind_error]
      refine .fails _ ?_
      rw [commandResult_decompress hop, decompressBytes, if_neg (by omega), if_pos (by rw [input_length]; omega)]
  · rw [decide_eq_false hc, check_false, bind_error]
    refine .fails _ ?_
    rw [srcLen_le_iff] at hc
    rw [commandResult_decompress hop, decompressBytes, if_pos (by omega)]

/-- R233: what DECOMPRESS owes once the header has been read and its tree field lies inside the container. -/
theorem decodeResult {s : State} (hop : s.latch.op = 2#4) (hsrc : s.latch.srcLen ≤ s.params.srcMax)
    (hfit : containerPrefix + s.eng.treeSize.toNat ≤ s.latch.srcLen.toNat)
    (hh : headerPack s.eng.garbage s.eng.treeSize = headerOfBytes (s.srcRead 2) (s.srcRead 3)) :
    s.commandResult =
      match deserializeTree ((s.input.drop containerPrefix).take s.eng.treeSize.toNat) with
      | none => .error .corruptTree
      | some root =>
        if isSingleLeaf root && s.latch.degen then .error .degenerateAlphabet
        else
          match unpackBitCount s.latch.srcLen.toNat s.eng.garbage.toNat s.eng.treeSize.toNat with
          | none => .error .corruptPayload
          | some n =>
            match unpackTree root ((payloadBits (s.input.drop (containerPrefix + s.eng.treeSize.toNat))).take n)
                s.params.dstMax.toNat with
            | .error e => .error e
            | .ok out => .ok (out, headerPack s.eng.garbage s.eng.treeSize) := by
  have h4 : 4 ≤ s.latch.srcLen.toNat := by unfold containerPrefix at hfit; omega
  rw [decompressResult hop hsrc h4, ← hh, headerTreeSize_pack, if_neg (by omega), decodeBody, headerTreeSize_pack,
    headerGarbage_pack, input_length]
  all_goals rfl

theorem phaseDTree_spec {s : State} (hi : s.Inv) (hd : s.DataInv) (ht : s.tainted = false) (hp : s.phase = .dTree) :
    PhaseOutcome s (phaseDTree s) := by
  have hop : s.latch.op = 2#4 := by have := hi.op; rwa [hp] at this
  have hd' := hd ht
  rw [hp] at hd'
  obtain ⟨hsrc, hfit, hh, hbu, hrd⟩ := hd'
  have hres := decodeResult hop hsrc hfit hh
  have hread := readTree_eq s hbu (by
    have := s.latch.srcLen.isLt
    rw [hrd]
    omega)
  rw [hrd, ← input_drop_take s _ _ hfit] at hread
  unfold phaseDTree
  cases hdt : deserializeTree ((s.input.drop containerPrefix).take s.eng.treeSize.toNat) with
  | none =>
    rw [hdt] at hread hres
    simp only at hread
    rw [hread, bind_error]
    exact .fails _ hres
  | some root =>
    rw [hdt] at hread hres
    obtain ⟨rd, bu, hread⟩ := hread
    rw [hread, bind_ok]
    have hroot : (atTree s rd bu root []).eng.root = root := rfl
    have hlatch : (atTree s rd bu root []).latch = s.latch := rfl
    rw [hroot, hlatch]
    cases hdeg : (isSingleLeaf root && s.latch.degen) with
    | false =>
      rw [Bool.not_false, check_true, bind_ok, pure_eq_ok]
      refine .goes _ (by rw [hp]; rfl) (by simp) rfl hi.dstWf hi.dstBelow hi.freq hi.code ?_ (fun _ _ _ _ _ => rfl)
      intro _
      exact ⟨hsrc, hfit, hh, hdt, hdeg⟩
    | true =>
      rw [Bool.not_true, check_false, bind_error]
      refine .fails _ ?_
      simp only [hdeg, if_true] at hres
      exact hres

/-- The payload's first bits, as the unpacker reads them. -/
theorem payload_bits (s : State) (ts n : Nat) (hfit : containerPrefix + ts ≤ s.latch.srcLen.toNat)
    (hn : n ≤ 8 * (s.latch.srcLen.toNat - containerPrefix - ts)) :
    (payloadBits (s.input.drop (containerPrefix + ts))).take n = bitsFrom s (containerPrefix + ts) 0 n := by
  rw [input_drop s _ hfit, payloadBits_take]
  omega

/-- R207, R239: from the bytes written to the outcome of D_UNPACK. -/
theorem unpack_finish {s s1 : State} (hi : s.Inv) (hp : s.phase = .dUnpack) (h1 : sameButDatapath s s1)
    (hw1 : s1.eng.wrPtr = 0#32) (hd1 : s1.dst = s.dst) (hf1 : s1.eng.freq = s.eng.freq) (hc1 : s1.eng.code = s.eng.code)
    {out : Bytes} {mid : Bool} {run : Except Stop State}
    (hok : fits s1 out → ∃ t, run = .ok t ∧ Wrote s1 t out ∧ t.eng.mid = mid ∧ t.eng.freq = s1.eng.freq ∧ t.eng.code = s1.eng.code)
    (hfull : ¬ fits s1 out → run = .error (.raise .sinkUnwritable))
    (hres : s.commandResult =
      match unpackOutcome s.params.dstMax.toNat out mid with
      | .error e => .error e
      | .ok out => .ok (out, headerPack s.eng.garbage s.eng.treeSize)) :
    PhaseOutcome s (run >>= fun s => check (!s.eng.mid) .corruptPayload s >>= fun s =>
      .ok (completeOk s.eng.wrPtr (headerPack s.eng.garbage s.eng.treeSize) s)) := by
  have hw0 : s1.eng.wrPtr.toNat = 0 := by rw [hw1]; rfl
  by_cases hfit : out.length ≤ s.params.dstMax.toNat
  · obtain ⟨t, hrun, hwrote, hmid, hfr, hco⟩ := hok (.inr (by rw [hw0, h1.params]; omega))
    rw [hrun, bind_ok, hmid]
    rw [unpackOutcome, if_neg (by omega)] at hres
    cases mid with
    | true =>
      rw [Bool.not_true, check_false, bind_error]
      exact .fails _ hres
    | false =>
      rw [Bool.not_false, check_true, bind_ok]
      have hst := h1.trans hwrote.same
      have hdst : t.dst = Memory.storeAll s.dst 0 out := by rw [hwrote.dst, hw0, hd1]
      rw [hst.2.1, hst.2.2.1]
      have hlt := s.params.dstMax.isLt
      refine .finishes t _ out _ (by rw [hp]; rfl) hres ?_ hst.1 ?_ ?_ (by rw [hfr, hf1]; exact hi.freq)
        (by rw [hco, hc1]; exact hi.code) ?_ ?_
      · rw [hwrote.wr, hw1, BitVec.toNat_add, BitVec.toNat_ofNat, BitVec.toNat_ofNat]
        omega
      · rw [hdst]
        exact Memory.storeAll_wf hi.dstWf _ _
      · rw [hdst]
        exact Memory.storeAll_below hi.dstBelow (.inr (by omega))
      · intro i hlt
        rw [hdst, Memory.lookup_storeAll hi.dstWf, if_pos (by omega), Nat.sub_zero]
      · intro i hle
        rw [hdst, Memory.lookup_storeAll hi.dstWf, if_neg (by omega)]
  · have hnf : ¬ fits s1 out := by
      unfold fits
      rw [hw0, h1.params]
      omega
    rw [hfull hnf, bind_error]
    rw [unpackOutcome, if_pos (by omega)] at hres
    exact .fails _ hres

theorem emitLoop_tables (v : Byte) (n : Nat) {s t : State} (h : emitLoop v n s = .ok t) :
    t.eng.freq = s.eng.freq ∧ t.eng.code = s.eng.code := by
  induction n generalizing s with
  | zero => cases h; exact ⟨rfl, rfl⟩
  | succ n ih =>
    obtain ⟨u, hu, h⟩ := bind_eq_ok.1 h
    have := ih h
    rw [emit, dstPut_eq] at hu
    split at hu
    · cases hu; exact this
    · cases hu

theorem payloadBit_tables (s : State) :
    (payloadBit s).2.eng.freq = s.eng.freq ∧ (payloadBit s).2.eng.code = s.eng.code := by
  unfold payloadBit loadPayloadByte
  split <;> exact ⟨rfl, rfl⟩

theorem descend_tables {bit : Bool} {s t : State} (h : descend bit s = .ok t) :
    t.eng.freq = s.eng.freq ∧ t.eng.code = s.eng.code := by
  unfold descend at h
  split at h
  · split at h
    · obtain ⟨u, hu, h⟩ := bind_eq_ok.1 h
      rw [emit, dstPut_eq] at hu
      split at hu
      · cases hu; cases h; exact ⟨rfl, rfl⟩
      · cases hu
    · cases h; exact ⟨rfl, rfl⟩
  · cases h

theorem unpackLoop_tables (n : Nat) {s t : State} (h : unpackLoop n s = .ok t) :
    t.eng.freq = s.eng.freq ∧ t.eng.code = s.eng.code := by
  induction n generalizing s with
  | zero => cases h; exact ⟨rfl, rfl⟩
  | succ n ih =>
    obtain ⟨u, hu, h⟩ := bind_eq_ok.1 h
    have h1 := ih h
    have h2 := descend_tables hu
    have h3 := payloadBit_tables s
    exact ⟨h1.1.trans (h2.1.trans h3.1), h1.2.trans (h2.2.trans h3.2)⟩

theorem phaseDUnpack_spec {s : State} (hi : s.Inv) (hd : s.DataInv) (ht : s.tainted = false) (hp : s.phase = .dUnpack) :
    PhaseOutcome s (phaseDUnpack s) := by
  have hop : s.latch.op = 2#4 := by have := hi.op; rwa [hp] at this
  have hd' := hd ht
  rw [hp] at hd'
  obtain ⟨hsrc, hfit, hh, hdt, hdeg⟩ := hd'
  have hres := decodeResult hop hsrc hfit hh
  rw [hdt] at hres
  simp only [hdeg, Bool.false_eq_true, if_false] at hres
  have hF := s.latch.srcLen.isLt
  unfold phaseDUnpack startUnpack
  cases hbc : unpackBitCount s.latch.srcLen.toNat s.eng.garbage.toNat s.eng.treeSize.toNat with
  | none =>
    rw [hbc] at hres
    simp only [bind_error]
    exact .fails _ hres
  | some n =>
    rw [hbc] at hres
    have hn : n ≤ 8 * (s.latch.srcLen.toNat - containerPrefix - s.eng.treeSize.toNat) := by
      unfold unpackBitCount at hbc
      split at hbc
      · cases hbc
      · cases hbc; omega
    simp only at hres
    rw [payload_bits s _ n hfit hn] at hres
    simp only [bind_ok]
    generalize hs1 : ({ s with eng := { s.eng with
        bitsLeft := BitVec.ofNat 35 n, bitIdx := 0#3, cur := s.eng.root, mid := false
        rdPtr := BitVec.ofNat 32 (containerPrefix + s.eng.treeSize.toNat), wrPtr := 0#32 } } : State) = s1
    have hsame : sameButDatapath s s1 := by rw [← hs1]; exact ⟨rfl, rfl, rfl, rfl⟩
    have hw1 : s1.eng.wrPtr = 0#32 := by rw [← hs1]
    have hd1 : s1.dst = s.dst := by rw [← hs1]
    have hf1 : s1.eng.freq = s.eng.freq := by rw [← hs1]
    have hc1 : s1.eng.code = s.eng.code := by rw [← hs1]
    have hmid1 : s1.eng.mid = false := by rw [← hs1]
    have hcur1 : s1.eng.cur = s.eng.root := by rw [← hs1]
    have hroot1 : s1.eng.root = s.eng.root := by rw [← hs1]
    have hleft : s1.eng.bitsLeft = BitVec.ofNat 35 n := by rw [← hs1]
    have hleftn : s1.eng.bitsLeft.toNat = n := by
      rw [hleft, BitVec.toNat_ofNat, Nat.mod_eq_of_lt]
      omega
    have hat : AtBit s1 (containerPrefix + s.eng.treeSize.toNat) 0 := by
      rw [← hs1]
      refine ⟨rfl, ?_, fun h => absurd rfl h⟩
      simp only [BitVec.toNat_ofNat]
      rw [Nat.mod_eq_of_lt (by omega)]
      omega
    rw [unpackPayload, hroot1, hleftn]
    cases hroot : s.eng.root with
    | none =>
      rw [hroot] at hres
      simp only [unpackTree] at hres
      simp only
      by_cases h0 : n = 0
      · subst h0
        have hnil : bitsFrom s (containerPrefix + s.eng.treeSize.toNat) 0 0 = [] := rfl
        rw [hnil, if_pos rfl] at hres
        refine unpack_finish hi hp hsame hw1 hd1 hf1 hc1 (out := []) (mid := false) (fun _ => ⟨s1, ?_, ⟨.refl s1, rfl, ?_⟩, hmid1, rfl, rfl⟩)
          (fun h => absurd (.inl rfl) h) ?_
        · rw [hleft, decide_eq_true rfl, check_true]
        · simp
        · rw [hres]
          rfl
      · have hne : bitsFrom s (containerPrefix + s.eng.treeSize.toNat) 0 n ≠ [] := by
          intro e
          have := congrArg List.length e
          rw [bitsFrom_length] at this
          exact h0 this
        rw [if_neg hne] at hres
        have hb0 : s1.eng.bitsLeft ≠ 0#35 := by
          intro e
          rw [e] at hleftn
          exact h0 hleftn.symm
        rw [decide_eq_false hb0, check_false, bind_error]
        exact .fails _ hres
    | some t =>
      cases t with
      | leaf v f =>
        rw [hroot] at hres
        simp only [unpackTree, bitsFrom_length] at hres
        obtain ⟨h1, h2⟩ := emitLoop_spec v n s1
        refine unpack_finish hi hp hsame hw1 hd1 hf1 hc1 (out := List.replicate n v) (mid := false) (fun h => ?_) h2 ?_
        · obtain ⟨t, e1, e2, e3⟩ := h1 h
          have e4 := emitLoop_tables v n e1
          exact ⟨t, e1, e2, e3.trans hmid1, e4.1, e4.2⟩
        · exact hres
      | node f l r =>
        rw [hroot] at hres hcur1 hroot1
        simp only [unpackTree] at hres
        obtain ⟨h1, h2⟩ := unpackLoop_spec n s1 (containerPrefix + s.eng.treeSize.toNat) 0 hroot1 hcur1 hat (by omega)
        rw [hmid1, bitsFrom_congr hsame.src] at h1 h2
        refine unpack_finish hi hp hsame hw1 hd1 hf1 hc1
          (out := (unpackBits l r l r false (bitsFrom s (containerPrefix + s.eng.treeSize.toNat) 0 n)).1)
          (mid := (unpackBits l r l r false (bitsFrom s (containerPrefix + s.eng.treeSize.toNat) 0 n)).2) (fun h => ?_) h2 ?_
        · obtain ⟨t, e1, e2, e3⟩ := h1 h
          have e4 := unpackLoop_tables n e1
          exact ⟨t, e1, e2, e3, e4.1, e4.2⟩
        · exact hres

/-! ### Every phase -/

/-- R22, R232, R233, R238: from a state with the invariants, a running phase goes on, finishes with the result the command owes, or
raises the error it owes. In particular no internal fault is reached. -/
theorem runPhase_spec {s : State} (hi : s.Inv) (hd : s.DataInv) (ht : s.tainted = false) (hb : s.phase ≠ .idle) :
    PhaseOutcome s (runPhase s) := by
  cases hp : s.phase with
  | idle => exact absurd hp hb
  | cFreq => simp only [runPhase, hp]; exact phaseCFreq_spec hi hp
  | cBuild => simp only [runPhase, hp]; exact phaseCBuild_spec hi hd ht hp
  | cCodes => simp only [runPhase, hp]; exact phaseCCodes_spec hi hd ht hp
  | cPrefix => simp only [runPhase, hp]; exact phaseCPrefix_spec hi hd ht hp
  | cTree => simp only [runPhase, hp]; exact phaseCTree_spec hi hd ht hp
  | cPack => simp only [runPhase, hp]; exact phaseCPack_spec hi hd ht hp
  | cPatch => simp only [runPhase, hp]; exact phaseCPatch_spec hi hd ht hp
  | dHdr => simp only [runPhase, hp]; exact phaseDHdr_spec hi hp
  | dTree => simp only [runPhase, hp]; exact phaseDTree_spec hi hd ht hp
  | dUnpack => simp only [runPhase, hp]; exact phaseDUnpack_spec hi hd ht hp
  | xBad =>
    simp only [runPhase, hp]
    refine .fails _ (commandResult_reserved ?_)
    have := hi.op
    rwa [hp] at this

end Sys2Proof.Machine
end

