-- ==== Sys2Proof/Laws/EngineStep.lean ====
section
/-! SUPPORT. Everything one engine step can do from a state with the invariants, and that the invariants and the command's frame
survive it (43_container_codec.md R232, R233, R239; 60_exceptions.md R270, R279). -/

namespace Sys2Proof.Machine

/-- The four ways an engine step from `s` can end. -/
inductive EngineMove (s : State) : State → Prop
  /-- R305: the host wrote SRC while the command ran. -/
  | inDoubt (ht : s.tainted = true) : EngineMove s (completeTainted s)
  /-- The next phase. -/
  | goes (u : State) (ht : s.tainted = false) (hphase : u.phase = s.phase.next) (hbusy : u.phase ≠ .idle)
      (hframe : u = { s with phase := u.phase, eng := u.eng, dst := u.dst })
      (hwf : Memory.wf u.dst) (hbelow : Memory.below u.dst s.params.dstMax.toNat)
      (hfreq : u.eng.freq.length = 256) (hcode : u.eng.code.length = 256)
      (hdata : u.DataInv)
      (hbeyond : ∀ out h, s.commandResult = .ok (out, h) → ∀ i, out.length ≤ i → Memory.lookup u.dst i = Memory.lookup s.dst i) :
      EngineMove s u.drawStall
  /-- Success. -/
  | finishes (u : State) (n : Word) (out : Bytes) (h : BitVec 16) (ht : s.tainted = false) (hnext : s.phase.next = .idle)
      (hresult : s.commandResult = .ok (out, h)) (hn : n.toNat = out.length)
      (hframe : u = { s with eng := u.eng, dst := u.dst })
      (hwf : Memory.wf u.dst) (hbelow : Memory.below u.dst s.params.dstMax.toNat)
      (hfreq : u.eng.freq.length = 256) (hcode : u.eng.code.length = 256)
      (hholds : u.dstHolds out)
      (hbeyond : ∀ i, out.length ≤ i → Memory.lookup u.dst i = Memory.lookup s.dst i) :
      EngineMove s (completeOk n h u)
  /-- Error. -/
  | fails (e : CmdError) (ht : s.tainted = false) (hresult : s.commandResult = .error e) : EngineMove s (completeError e s)

/-- An engine step of a running command answers a next state, one of the four. -/
theorem engineStep_move {s : State} (hi : s.Inv) (hd : s.DataInv) (hb : s.phase ≠ .idle) :
    ∃ t, engineStep s = .next t ∧ EngineMove s t := by
  unfold engineStep
  by_cases ht : s.tainted = true
  · rw [if_pos ht]
    exact ⟨_, rfl, .inDoubt ht⟩
  · have ht : s.tainted = false := by simpa using ht
    rw [if_neg (by simp [ht])]
    have hrun := runPhase_spec hi hd ht hb
    generalize runPhase s = r at hrun ⊢
    cases hrun with
    | goes t hphase hbusy hframe hwf hbelow hfreq hcode hdata hbeyond =>
      refine ⟨_, rfl, ?_⟩
      rw [if_pos ((busy_eq_true t).2 hbusy)]
      exact .goes t ht hphase hbusy hframe hwf hbelow hfreq hcode hdata hbeyond
    | finishes u n out h hnext hresult hn hframe hwf hbelow hfreq hcode hholds hbeyond =>
      refine ⟨_, rfl, ?_⟩
      rw [if_neg (by simp)]
      exact .finishes u n out h ht hnext hresult hn hframe hwf hbelow hfreq hcode hholds hbeyond
    | fails e hresult => exact ⟨_, rfl, .fails e ht hresult⟩

/-- An engine step with no command running changes nothing. -/
theorem engineStep_idle {s : State} (hi : s.Inv) (hb : s.phase = .idle) : engineStep s = .next s := by
  have ht : s.tainted = false := by
    cases h : s.tainted with
    | false => rfl
    | true => exact absurd (hi.tainted h).1 (by simp [hb])
  unfold engineStep
  rw [if_neg (by simp [ht])]
  simp [runPhase, hb]

/-! ### The invariants after an engine step -/

theorem phaseOfOp_next {p : Phase} {op : BitVec 4} (h : phaseOfOp p op) (hn : p.next ≠ .idle) : phaseOfOp p.next op := by
  cases p <;> first | exact h | exact absurd rfl hn

theorem CmdError.code_ne_zero (e : CmdError) : e.code ≠ 0#4 := by
  cases e <;> decide

theorem CmdError.code_le (e : CmdError) : e.code.toNat ≤ 6 := by
  cases e <;> decide

theorem EngineMove.inv {s t : State} (hm : EngineMove s t) (hi : s.Inv) (hb : s.phase ≠ .idle) : t.Inv := by
  have hbusy := (busy_eq_true s).2 hb
  have hnd := hi.busyNotDone hbusy
  have hzero := hi.notDone hnd
  cases hm with
  | inDoubt ht =>
    have hf := (hi.tainted ht).2
    exact {
      params := hi.params, srcWf := hi.srcWf, srcBelow := hi.srcBelow
      dstWf := List.Pairwise.nil, dstBelow := fun c hc => absurd hc List.not_mem_nil
      busyNotDone := fun h => absurd h (by simp [completeTainted])
      notDone := fun h => absurd h (by simp [completeTainted, Status.completed])
      errCode := by simp [completeTainted, Status.completed]
      errEmpty := fun h => absurd (h.symm.trans (show (completeTainted s).fault = true from hf)) (by decide)
      codeRange := fun h => absurd (h.symm.trans (show (completeTainted s).fault = true from hf)) (by decide)
      drop := fun _ => .inr (by simp [completeTainted, Status.completed])
      tainted := fun h => absurd h (by simp [completeTainted])
      unread := fun h => absurd h (by simp [completeTainted])
      dstGen := by simp [completeTainted]
      freq := hi.freq, code := hi.code
      op := trivial }
  | goes u ht hphase hb' hframe hwf hbelow hfreq hcode hdata hbeyond =>
    have hst : u.status = s.status := by rw [hframe]
    have hpar : u.params = s.params := by rw [hframe]
    have hlat : u.latch = s.latch := by rw [hframe]
    have hec : u.errcode = s.errcode := by rw [hframe]
    have hdl : u.dstLen = s.dstLen := by rw [hframe]
    have hh : u.hdr = s.hdr := by rw [hframe]
    have hsrc : u.src = s.src := by rw [hframe]
    have hta : u.tainted = s.tainted := by rw [hframe]
    have hdg : u.dstGen = s.dstGen := by rw [hframe]
    have hdr : u.draws = s.draws := by rw [hframe]
    have hun : u.unread = s.unread := by rw [hframe]
    exact {
      params := by simpa [hpar] using hi.params
      srcWf := by simpa [hsrc] using hi.srcWf
      srcBelow := by simpa [hsrc, hpar] using hi.srcBelow
      dstWf := hwf, dstBelow := by simpa [hpar] using hbelow
      unread := fun _ => by simpa [hun] using hi.unread hbusy
      busyNotDone := fun _ => by simpa [hst] using hnd
      notDone := fun _ => by simpa [hst, hec, hdl, hh] using hzero
      errCode := by simpa [hst, hec] using hi.errCode
      errEmpty := fun _ h => absurd h (by simp [hst, hzero.1])
      codeRange := fun _ => by simp [hec, hzero.2.1]
      drop := fun _ => .inl ((busy_eq_true _).2 hb')
      tainted := fun h => absurd h (by simp [hta, ht])
      dstGen := by simpa [hdg, hdr] using Nat.lt_succ_of_lt hi.dstGen
      freq := hfreq, code := hcode
      op := by
        show phaseOfOp u.phase u.latch.op
        rw [hphase] at hb' ⊢
        rw [hlat]
        exact phaseOfOp_next hi.op hb' }
  | finishes u n out h ht hnext hresult hn hframe hwf hbelow hfreq hcode hholds hbeyond =>
    have hpar : u.params = s.params := by rw [hframe]
    have hsrc : u.src = s.src := by rw [hframe]
    have hta : u.tainted = s.tainted := by rw [hframe]
    have hdg : u.dstGen = s.dstGen := by rw [hframe]
    have hdr : u.draws = s.draws := by rw [hframe]
    exact {
      params := by simpa [hpar] using hi.params
      srcWf := by simpa [hsrc] using hi.srcWf
      srcBelow := by simpa [hsrc, hpar] using hi.srcBelow
      dstWf := hwf, dstBelow := by simpa [hpar] using hbelow
      busyNotDone := fun h => absurd h (by simp)
      notDone := fun h => absurd h (by simp [Status.completed])
      errCode := by simp [Status.completed]
      errEmpty := fun _ h => absurd h (by simp [Status.completed])
      codeRange := fun _ => by simp
      drop := fun _ => .inr (by simp [Status.completed])
      tainted := fun h => absurd h (by simp [hta, ht])
      unread := fun h => absurd h (by simp)
      dstGen := by simpa [hdg, hdr] using hi.dstGen
      freq := hfreq, code := hcode
      op := trivial }
  | fails e ht hresult =>
    by_cases he : e = .badCommand
    · subst he
      exact {
        params := hi.params, srcWf := hi.srcWf, srcBelow := hi.srcBelow, dstWf := hi.dstWf, dstBelow := hi.dstBelow
        busyNotDone := fun h => absurd h (by simp [completeError])
        notDone := fun h => absurd h (by simp [completeError, Status.completed])
        errCode := by simp [completeError, Status.completed, CmdError.code]
        errEmpty := fun _ _ => ⟨rfl, rfl⟩
        codeRange := fun _ => by simp [completeError, CmdError.code]
        drop := fun _ => .inr (by simp [completeError, Status.completed])
        tainted := fun h => absurd (show s.tainted = true from h) (by simp [ht])
        unread := fun h => absurd h (by simp [completeError])
        dstGen := hi.dstGen
        freq := hi.freq, code := hi.code
        op := trivial }
    · rw [completeError, if_neg he]
      exact {
        params := hi.params, srcWf := hi.srcWf, srcBelow := hi.srcBelow
        dstWf := List.Pairwise.nil, dstBelow := fun c hc => absurd hc List.not_mem_nil
        busyNotDone := fun h => absurd h (by simp)
        notDone := fun h => absurd h (by simp [Status.completed])
        errCode := by simpa [Status.completed] using e.code_ne_zero
        errEmpty := fun _ _ => ⟨rfl, rfl⟩
        codeRange := fun _ => by simpa using e.code_le
        drop := fun _ => .inr (by simp [Status.completed])
        tainted := fun h => absurd (show s.tainted = true from h) (by simp [ht])
        unread := fun h => absurd h (by simp)
        dstGen := by simp
        freq := hi.freq, code := hi.code
        op := trivial }

/-- With no command running the internal structures are unread. -/
theorem dataInv_of_idle {s : State} (h : s.phase = .idle) : s.DataInv := by
  intro _
  rw [h]
  trivial

/-- What the internal structures hold depends on the fields named here only. -/
theorem dataInv_congr {s t : State} (h : s.DataInv) (hta : t.tainted = false → s.tainted = false) (hph : t.phase = s.phase)
    (hl : t.latch = s.latch) (hp : t.params = s.params) (hs : t.src = s.src) (he : t.eng = s.eng) (hd : t.dst = s.dst) :
    t.DataInv := by
  intro h0
  have h := h (hta h0)
  have hin := input_congr hs hl
  have hrd : t.srcRead = s.srcRead := by funext i; rw [State.srcRead, State.srcRead, hs]
  rw [hph]
  have hg : CompressGoing s → CompressGoing t := fun g => g.congr hs hl hp
  have hk : ∀ bytes, SinkAt s bytes → SinkAt t bytes := fun _ k => k.congr hd (by rw [he]) hp
  cases hp' : s.phase <;> simp only [hp', hin, hrd, hl, hp, he] at h ⊢
  case cFreq => exact h
  case cBuild => exact h
  case cCodes => exact ⟨hg h.1, h.2⟩
  case cPrefix => exact ⟨hg h.1, h.2⟩
  case cTree => exact ⟨hg h.1, h.2.1, h.2.2.1, hk _ h.2.2.2⟩
  case cPack => exact ⟨hg h.1, h.2.1, h.2.2.1, hk _ h.2.2.2⟩
  case cPatch => exact ⟨hg h.1, h.2.1, h.2.2.1, hk _ h.2.2.2⟩
  case dTree => exact h
  case dUnpack => exact h

theorem EngineMove.dataInv {s t : State} (hm : EngineMove s t) : t.DataInv := by
  cases hm with
  | inDoubt => exact dataInv_of_idle rfl
  | goes u ht hphase hbusy hframe hwf hbelow hfreq hcode hdata hbeyond => exact dataInv_congr hdata id rfl rfl rfl rfl rfl rfl
  | finishes => exact dataInv_of_idle rfl
  | fails e => exact dataInv_of_idle (by unfold completeError; split <;> rfl)

/-! ### The command's result -/

theorem commandResult_congr {s t : State} (hl : t.latch = s.latch) (hp : t.params = s.params) (hs : t.src = s.src) :
    t.commandResult = s.commandResult := by
  rw [State.commandResult, State.commandResult, hl, hp, input_congr hs hl]

theorem dstRead_congr {s t : State} {i : Nat} (h : Memory.lookup t.dst i = Memory.lookup s.dst i) (hg : t.dstGen = s.dstGen) :
    t.dstRead i = s.dstRead i := by
  rw [State.dstRead, State.dstRead, h, hg]

theorem dstBytes_of_holds {s : State} {bytes : Bytes} (h : s.dstHolds bytes) : s.dstBytes bytes.length = bytes := by
  apply List.ext_getElem
  · simp [State.dstBytes]
  · intro i h1 h2
    simp [State.dstBytes, State.dstRead, h i h2, h2]

/-- What an engine step leaves alone while the command goes on. -/
structure StaysBusy (s t : State) : Prop where
  keeps : KeepsHostSide s t
  busy : t.phase ≠ .idle
  phase : t.phase = s.phase.next
  status : t.status = s.status
  latch : t.latch = s.latch
  dstGen : t.dstGen = s.dstGen
  draws : t.draws = s.draws + 1
  tainted : t.tainted = false
  unread : t.unread = s.unread
  stall : t.stall = Config.freeStall s.draws
  beyond : ∀ out h, s.commandResult = .ok (out, h) → ∀ i, out.length ≤ i → t.dstRead i = s.dstRead i

/-- R239, R279: an undoubted command either goes on or completes with the result it owes. -/
theorem EngineMove.result {s t : State} (hm : EngineMove s t) (ht : s.tainted = false) :
    StaysBusy s t ∨ (KeepsHostSide s t ∧ ShowsResult s t s.commandResult ∧ t.tainted = false ∧ t.latch = s.latch ∧
      (s.phase.next = .idle ∨ t.status.err = true)) := by
  cases hm with
  | inDoubt h => rw [ht] at h; cases h
  | goes u ht hphase hbusy hframe hwf hbelow hfreq hcode hdata hbeyond =>
    left
    have hdg : u.dstGen = s.dstGen := by rw [hframe]
    refine { keeps := ?_, busy := hbusy, phase := hphase, status := ?_, latch := ?_, dstGen := ?_, draws := ?_, tainted := ?_, unread := ?_, stall := ?_,
             beyond := fun out h hr i hle => dstRead_congr (hbeyond out h hr i hle) hdg }
    · constructor <;> simp <;> rw [hframe]
    all_goals simp
    all_goals first | (rw [hframe]; done) | (rw [hframe]; exact ht)
  | finishes u n out h ht hnext hresult hn hframe hwf hbelow hfreq hcode hholds hbeyond =>
    right
    have hdg : u.dstGen = s.dstGen := by rw [hframe]
    refine ⟨?_, ?_, ?_, ?_, .inl hnext⟩
    · constructor <;> simp <;> rw [hframe]
    · rw [hresult]
      refine { idle := rfl, done := rfl, drop := ?_, unread := ?_, ok := ?_, error := fun e he => by cases he }
      · show u.status.drop = s.status.drop
        rw [hframe]
      · show u.unread = s.unread
        rw [hframe]
      · intro out' h' he
        cases he
        exact ⟨rfl, rfl, hn, rfl, dstBytes_of_holds hholds, fun i hle => dstRead_congr (hbeyond i hle) hdg⟩
    · simp; rw [hframe]; exact ht
    · simp; rw [hframe]
  | fails e ht hresult =>
    right
    by_cases he : e = .badCommand
    · subst he
      refine ⟨⟨rfl, rfl, rfl, rfl, rfl, rfl, rfl⟩, ?_, ht, rfl, .inr rfl⟩
      rw [hresult]
      refine { idle := rfl, done := rfl, drop := rfl, unread := rfl, ok := fun _ _ h => (by cases h), error := ?_ }
      intro e' h'
      cases h'
      exact ⟨rfl, rfl, rfl, rfl, fun _ => ⟨rfl, rfl⟩, fun h => absurd rfl h⟩
    · rw [completeError, if_neg he]
      refine ⟨⟨rfl, rfl, rfl, rfl, rfl, rfl, rfl⟩, ?_, ht, rfl, .inr rfl⟩
      rw [hresult]
      refine { idle := rfl, done := rfl, drop := rfl, unread := rfl, ok := fun _ _ h => (by cases h), error := ?_ }
      intro e' h'
      cases h'
      exact ⟨rfl, rfl, rfl, rfl, fun h => absurd h he, fun _ => ⟨rfl, Nat.le_refl _⟩⟩

/-! ### The engine alone -/

theorem Phase.left_next {p : Phase} (h : p ≠ .idle) : p.next.left + 1 = p.left := by
  cases p <;> first | rfl | exact absurd rfl h

/-- R277: BadCommand is the reserved opcodes' alone. -/
theorem compressBytes_ne_badCommand (src : Bytes) (degen : Bool) (m n : Nat) :
    compressBytes src degen m n ≠ .error .badCommand := by
  unfold compressBytes
  repeat' split
  all_goals simp

theorem decompressBytes_ne_badCommand (src : Bytes) (degen : Bool) (m n : Nat) :
    decompressBytes src degen m n ≠ .error .badCommand := by
  unfold decompressBytes decodeBody
  simp only []
  repeat' split
  all_goals try simp
  rename_i e h
  intro he
  subst he
  unfold unpackTree unpackOutcome at h
  revert h
  repeat' split
  all_goals simp

theorem commandResult_bad {s : State} (h : s.commandResult = .error .badCommand) : s.latch.op ≠ 1#4 ∧ s.latch.op ≠ 2#4 := by
  constructor
  · intro e
    rw [commandResult_compress e] at h
    exact compressBytes_ne_badCommand _ _ _ _ h
  · intro e
    rw [commandResult_decompress e] at h
    exact decompressBytes_ne_badCommand _ _ _ _ h

theorem xBad_of_bad {s : State} (hi : s.Inv) (hb : s.phase ≠ .idle) (h : s.commandResult = .error .badCommand) :
    s.phase = .xBad := by
  have hop := hi.op
  obtain ⟨h1, h2⟩ := commandResult_bad h
  cases hp : s.phase <;> rw [hp] at hop hb <;> first | rfl | exact absurd rfl hb | exact absurd hop h1 | exact absurd hop h2

theorem ShowsResult.of_goes {s u t : State} {r : Except CmdError (Bytes × BitVec 16)} (hi : s.Inv) (hb : s.phase ≠ .idle)
    (hr : r = s.commandResult) (hu : StaysBusy s u) (h : ShowsResult u t r) : ShowsResult s t r where
  idle := h.idle
  done := h.done
  drop := by rw [h.drop, hu.status]
  unread := by rw [h.unread, hu.unread]
  ok := fun out hd he => by
    obtain ⟨h1, h2, h3, h4, h5, h6⟩ := h.ok out hd he
    exact ⟨h1, h2, h3, h4, h5, fun i hle => (h6 i hle).trans (hu.beyond out hd (by rw [← hr, he]) i hle)⟩
  error := fun e he => by
    obtain ⟨h1, h2, h3, h4, h5, h6⟩ := h.error e he
    refine ⟨h1, h2, h3, h4, fun hbad => ?_, fun hne => ?_⟩
    · subst hbad
      have hx := xBad_of_bad hi hb (by rw [← hr, he])
      have := hu.phase
      rw [hx] at this
      exact absurd this hu.busy
    · obtain ⟨h7, h8⟩ := h6 hne
      refine ⟨h7, ?_⟩
      have := hu.draws
      omega

theorem KeepsHostSide.trans {s u t : State} (h : KeepsHostSide s u) (k : KeepsHostSide u t) : KeepsHostSide s t :=
  ⟨k.params.trans h.params, k.src.trans h.src, k.srcLen.trans h.srcLen, k.degen.trans h.degen, k.fault.trans h.fault,
    k.host.trans h.host, k.rdata.trans h.rdata⟩

theorem engineRun_succ (n : Nat) {s t : State} (h : engineStep s = .next t) : engineRun (n + 1) s = engineRun n t := by
  rw [engineRun, h]

theorem engineRun_idle {s : State} (hi : s.Inv) (hb : s.phase = .idle) (n : Nat) : engineRun n s = .next s := by
  induction n with
  | zero => rfl
  | succ n ih => rw [engineRun_succ n (engineStep_idle hi hb), ih]

/-- R232, R233, R238, R239: the engine alone brings an undoubted command to completion in as many steps as it has phases left, with
the result it owes. -/
theorem engineRun_result (n : Nat) {s : State} (hi : s.Inv) (hd : s.DataInv) (ht : s.tainted = false) (hb : s.phase ≠ .idle)
    (hn : s.phase.left ≤ n) :
    ∃ t, engineRun n s = .next t ∧ t.Inv ∧ KeepsHostSide s t ∧ ShowsResult s t s.commandResult ∧ t.tainted = false := by
  induction n generalizing s with
  | zero =>
    have := Phase.left_next hb
    omega
  | succ n ih =>
    obtain ⟨u, hu, hm⟩ := engineStep_move hi hd hb
    have hiu := hm.inv hi hb
    rw [engineRun_succ n hu]
    rcases hm.result ht with hgo | ⟨hk, hs, htu, _, _⟩
    · have hleft := Phase.left_next hb
      rw [← hgo.phase] at hleft
      obtain ⟨t, h1, h2, h3, h4, h5⟩ := ih hiu hm.dataInv hgo.tainted hgo.busy (by omega)
      have hr : u.commandResult = s.commandResult := commandResult_congr hgo.latch hgo.keeps.params hgo.keeps.src
      rw [hr] at h4
      exact ⟨t, h1, h2, hgo.keeps.trans h3, .of_goes hi hb rfl hgo h4, h5⟩
    · exact ⟨u, engineRun_idle hiu hs.idle n, hiu, hk, hs, htu⟩

end Sys2Proof.Machine
end

