-- ==== Sys2Proof/Laws/Grammar.lean ====
section
/-! SUPPORT. The deserializer accepts exactly the streams of the grammar (30_encoding.md R98; 41_tree_serializer.md R173). -/

namespace Sys2Proof.Machine

/-- R173: what the descent takes is the stream of the node it gives. -/
theorem stream_of_deserNode (n : Nat) : ∀ (field : Bytes) (t : HuffTree) (rest : Bytes), deserNode n field = some (t, rest) →
    ∃ pre, field = pre ++ rest ∧ TreeStream pre t := by
  induction n with
  | zero => intro field t rest h; cases h
  | succ n ih =>
    intro field t rest h
    match field with
    | [] => cases h
    | b :: field =>
      rw [deserNode_cons] at h
      split at h
      · rename_i hb
        subst hb
        match field, h with
        | v :: field, h => cases h; exact ⟨[esc, v], rfl, .escaped v⟩
      · rename_i hb
        split at h
        · rename_i hm
          subst hm
          rw [Option.bind_eq_bind, Option.bind_eq_some_iff] at h
          obtain ⟨⟨l, r1⟩, h1, h⟩ := h
          simp only at h
          rw [Option.bind_eq_some_iff] at h
          obtain ⟨⟨r, r2⟩, h2, h⟩ := h
          cases h
          obtain ⟨p1, e1, s1⟩ := ih _ _ _ h1
          obtain ⟨p2, e2, s2⟩ := ih _ _ _ h2
          exact ⟨mark :: (p1 ++ p2), by rw [e1, e2]; simp, .node s1 s2⟩
        · rename_i hm
          cases h
          exact ⟨[b], rfl, .plain b hm hb⟩

theorem treeStream_pos {pre : Bytes} {t : HuffTree} (h : TreeStream pre t) : 0 < pre.length := by
  cases h <;> simp

/-- R173: the descent takes the stream of a node and stops behind it. -/
theorem deserNode_of_stream {pre : Bytes} {t : HuffTree} (h : TreeStream pre t) : ∀ (rest : Bytes) (n : Nat), (pre ++ rest).length ≤ n →
    deserNode n (pre ++ rest) = some (t, rest) := by
  induction h with
  | @node l r tl tr hl hr ihl ihr =>
    intro rest n hn
    obtain ⟨n, rfl⟩ : ∃ m, n = m + 1 := ⟨n - 1, by simp at hn; omega⟩
    simp only [List.cons_append, List.append_assoc, List.length_cons, List.length_append] at hn ⊢
    rw [deserNode_mark, ihl _ n (by simp only [List.length_append]; omega)]
    simp [ihr rest n (by simp only [List.length_append]; omega)]
  | escaped b =>
    intro rest n hn
    obtain ⟨n, rfl⟩ : ∃ m, n = m + 1 := ⟨n - 1, by simp at hn; omega⟩
    rfl
  | plain b hm he =>
    intro rest n hn
    obtain ⟨n, rfl⟩ : ∃ m, n = m + 1 := ⟨n - 1, by simp at hn; omega⟩
    show deserNode (n+1) (b :: rest) = _
    rw [deserNode_cons, if_neg he, if_neg hm]

theorem unweighted_internals (t : HuffTree) : t.unweighted.internals = t.internals := by
  induction t with
  | leaf => rfl
  | node f l r ihl ihr => simp [HuffTree.unweighted, HuffTree.internals, ihl, ihr]

end Sys2Proof.Machine
end

