-- ==== Sys2Proof/Laws/Step.lean ====
section
/-! SUPPORT. Everything a command write and every other host access can do, and what one step of the block can do
(43_container_codec.md R234; 70_reset_and_hazards.md R300–R307). -/

namespace Sys2Proof.Machine

/-- R234: what a write of a command does. -/
theorem exec_eq (i : Instr) (h : i.wellFormed = true) (s : State) :
    exec i s = .next (if i.op = 0#4 then s else startCommand i.op (firstPhase i.op) s) := by
  cases i with
  | nop => rfl
  | compress => rfl
  | decompress => rfl
  | reserved3 => rfl
  | reserved4to7 op =>
    have h1 : op ≠ 0#4 ∧ op ≠ 1#4 ∧ op ≠ 2#4 := by revert op; decide
    simp [exec, execReserved4to7, Instr.op, firstPhase, h1]
  | reserved8toF op =>
    have h1 : op ≠ 0#4 ∧ op ≠ 1#4 ∧ op ≠ 2#4 := by revert op; decide
    simp [exec, execReserved8toF, Instr.op, firstPhase, h1]

/-- The four things a host access can do to the block. -/
inductive HostMove (a : HostItem) (s : State) : State → Prop
  /-- R234, R304: a nonzero opcode is accepted or dropped. -/
  | starts (w : Word) (ha : a = .wreg regCmd w) (hop : opField w ≠ 0#4) :
      HostMove a s (startCommand (opField w) (firstPhase (opField w)) s)
  /-- The access concerns only the host's side and the two writable registers. -/
  | keeps (t : State) (hframe : t = { s with
        srcLen := t.srcLen, degen := t.degen, host := t.host, rdata := t.rdata, draws := t.draws, unread := t.unread })
      (hunread : s.status.done = false → t.unread = s.unread)
      (hdraws : s.draws ≤ t.draws) (hrst : HostItem.rst ∈ t.host → HostItem.rst ∈ s.host) : HostMove a s t
  /-- R39, R305: a byte of SRC. -/
  | stores (i : Nat) (b : Byte) (ha : a = .wsrc i b) (hi : i < s.params.srcMax.toNat) :
      HostMove a s { s with src := Memory.store s.src i b, fault := s.fault || s.busy, tainted := s.tainted || s.busy }
  /-- R300. -/
  | resets (ha : a = .rst) : HostMove a s (resetSignal s)

theorem hostWriteReg_move (r : RegNum) (v : Word) (s : State) :
    ∃ t, hostWriteReg r v s = .next t ∧ HostMove (.wreg r v) s t := by
  by_cases hr : r = regCmd
  · subst hr
    simp only [hostWriteReg, if_true, writeCmd, exec_eq _ (decode_wellFormed v), decode_op]
    split
    · exact ⟨_, rfl, .keeps s rfl (fun _ => rfl) (Nat.le_refl _) id⟩
    · rename_i hop
      exact ⟨_, rfl, .starts v rfl hop⟩
  · simp only [hostWriteReg, if_neg hr, State.regWrite]
    refine ⟨_, rfl, .keeps _ ?_ ?_ ?_ ?_⟩ <;> (repeat' split) <;> first | rfl | exact id | exact fun _ => rfl

/-- R72: only a read with DONE = 1 is the DONE read. -/
theorem hostReadReg_unread (r : RegNum) {s : State} (h : s.status.done = false) : (hostReadReg r s).unread = s.unread := by
  simp [hostReadReg, h]

theorem hostReadDst_frame (i : Nat) (s : State) :
    hostReadDst i s = { s with rdata := (hostReadDst i s).rdata, draws := (hostReadDst i s).draws } := by
  unfold hostReadDst
  repeat' split
  all_goals rfl

theorem hostReadDst_draws (i : Nat) (s : State) : s.draws ≤ (hostReadDst i s).draws := by
  unfold hostReadDst
  repeat' split
  all_goals simp

/-- Every host access answers a next state, one of the four. -/
theorem hostAccess_move (a : HostItem) (s : State) : ∃ t, hostAccess a s = .next t ∧ HostMove a s t := by
  cases a with
  | wreg r v => exact hostWriteReg_move r v s
  | rreg r => exact ⟨_, rfl, .keeps _ rfl (hostReadReg_unread r) (Nat.le_refl _) id⟩
  | wsrc i b =>
    simp only [hostAccess, hostWriteSrc]
    split
    · rename_i hi
      exact ⟨_, rfl, .stores i b rfl hi⟩
    · exact ⟨_, rfl, .keeps s rfl (fun _ => rfl) (Nat.le_refl _) id⟩
  | rsrc i => exact ⟨_, rfl, .keeps _ rfl (fun _ => rfl) (Nat.le_refl _) id⟩
  | rdst i =>
    have hf := hostReadDst_frame i s
    exact ⟨_, rfl, .keeps _ (by rw [hf]) (fun _ => by rw [hf]) (hostReadDst_draws i s) (by rw [hf]; exact id)⟩
  | wdst i b => exact ⟨_, rfl, .keeps s rfl (fun _ => rfl) (Nat.le_refl _) id⟩
  | rst => exact ⟨_, rfl, .resets rfl⟩
  | waitDone =>
    refine ⟨_, rfl, .keeps _ ?_ ?_ ?_ ?_⟩ <;> unfold hostWaitDone <;> simp only [] <;> split <;>
      first | rfl | exact id | exact hostReadReg_unread _ | simp [State.hostFirst, hostReadReg]
  | copyDstToSrc =>
    refine ⟨_, rfl, .keeps _ rfl (hostReadReg_unread _) (Nat.le_refl _) ?_⟩
    simp [hostCopy, State.hostFirst, hostReadReg]
  | copyByte i =>
    have hf := hostReadDst_frame i s
    refine ⟨_, rfl, .keeps _ ?_ (fun _ => ?_) (hostReadDst_draws i s) ?_⟩
    · unfold hostCopyByte State.hostFirst
      simp only []
      rw [hf]
    · show (hostReadDst i s).unread = s.unread
      rw [hf]
    · simp only [hostCopyByte, hostFirst_host, List.cons_append, List.nil_append, List.mem_cons]
      rw [hf]
      simp

/-! ### The invariants after a host access -/

theorem accept_frame (op : BitVec 4) (first : Phase) (s : State) :
    accept op first s = { s with
      latch := { op := op, srcLen := s.srcLen, degen := s.degen }, status := Status.accepted, errcode := 0#4, dstLen := 0#32
      hdr := 0#16, phase := first, eng := { s.eng with queue := [] }, unread := true, tainted := false
      stall := (accept op first s).stall, draws := (accept op first s).draws } := by
  unfold accept
  split <;> rfl

theorem accept_draws (op : BitVec 4) (first : Phase) (s : State) : s.draws ≤ (accept op first s).draws := by
  unfold accept
  split
  · exact Nat.le_refl _
  · exact Nat.le_succ _

theorem phaseOfOp_first {op : BitVec 4} (h : op ≠ 0#4) : phaseOfOp (firstPhase op) op := by
  unfold firstPhase
  split
  · assumption
  · split
    · assumption
    · rename_i h1 h2
      show 3 ≤ op.toNat
      revert op
      decide

theorem firstPhase_ne_idle (op : BitVec 4) : firstPhase op ≠ .idle := by
  unfold firstPhase
  repeat' split
  all_goals simp

theorem accept_inv {op : BitVec 4} (hop : op ≠ 0#4) {s : State} (hi : s.Inv) : (accept op (firstPhase op) s).Inv := by
  rw [accept_frame]
  have hd := accept_draws op (firstPhase op) s
  exact {
    params := hi.params, srcWf := hi.srcWf, srcBelow := hi.srcBelow, dstWf := hi.dstWf, dstBelow := hi.dstBelow
    unread := fun _ => rfl, busyNotDone := fun _ => rfl, notDone := fun _ => ⟨rfl, rfl, rfl, rfl⟩, errCode := by simp [Status.accepted]
    errEmpty := fun _ _ => ⟨rfl, rfl⟩, codeRange := fun _ => Nat.zero_le _, drop := fun h => absurd h (by simp [Status.accepted])
    tainted := fun h => absurd h (by simp), dstGen := Nat.lt_of_lt_of_le hi.dstGen hd, freq := hi.freq, code := hi.code
    op := phaseOfOp_first hop }

/-- A first phase starts from an empty queue (R35) and needs nothing else. -/
theorem dataInv_of_first {s : State} (h : s.phase = .cFreq ∨ s.phase = .dHdr ∨ s.phase = .xBad) (hq : s.eng.queue = []) :
    s.DataInv := by
  intro _
  rcases h with h | h | h <;> rw [h] <;> first | exact hq | trivial

theorem accept_dataInv (op : BitVec 4) (s : State) : (accept op (firstPhase op) s).DataInv := by
  refine dataInv_of_first ?_ (by rw [accept_frame])
  rw [accept_frame]
  show firstPhase op = .cFreq ∨ firstPhase op = .dHdr ∨ firstPhase op = .xBad
  unfold firstPhase
  repeat' split
  all_goals simp

theorem reset_inv {s : State} (hi : s.Inv) : (resetSignal s).Inv := by
  unfold resetSignal
  split
  · exact {
      params := hi.params, srcWf := hi.srcWf, srcBelow := hi.srcBelow
      dstWf := List.Pairwise.nil, dstBelow := fun c hc => absurd hc List.not_mem_nil
      busyNotDone := fun h => absurd h (by simp [State.reset]), notDone := fun _ => ⟨rfl, rfl, rfl, rfl⟩, errCode := by simp [State.reset]
      errEmpty := fun _ _ => ⟨rfl, rfl⟩, codeRange := fun _ => Nat.zero_le _, drop := fun h => absurd h (by simp [State.reset])
      tainted := fun h => absurd h (by simp [State.reset]), unread := fun h => absurd h (by simp [State.reset]), dstGen := Nat.lt_succ_self _
      freq := List.length_replicate, code := List.length_replicate, op := trivial }
  · exact {
      params := hi.params, srcWf := hi.srcWf, srcBelow := hi.srcBelow, dstWf := hi.dstWf, dstBelow := hi.dstBelow
      busyNotDone := fun h => absurd h (by simp [State.reset]), notDone := fun _ => ⟨rfl, rfl, rfl, rfl⟩, errCode := by simp [State.reset]
      errEmpty := fun _ _ => ⟨rfl, rfl⟩, codeRange := fun _ => Nat.zero_le _, drop := fun h => absurd h (by simp [State.reset])
      tainted := fun h => absurd h (by simp [State.reset]), unread := fun h => absurd h (by simp [State.reset]), dstGen := hi.dstGen
      freq := List.length_replicate, code := List.length_replicate, op := trivial }

theorem resetSignal_phase (s : State) : (resetSignal s).phase = .idle := by
  unfold resetSignal
  split <;> rfl

theorem HostMove.inv {a : HostItem} {s t : State} (hm : HostMove a s t) (hi : s.Inv) : t.Inv := by
  cases hm with
  | starts w ha hop =>
    unfold startCommand
    split
    · rename_i hb
      exact { hi with drop := fun _ => .inl hb }
    · exact accept_inv hop hi
  | keeps t hframe hunread hdraws hrst =>
    have hdg := hi.dstGen
    rw [hframe]
    exact { hi with
      dstGen := by simp only; omega
      unread := fun hb => by
        have hb : s.busy = true := hb
        show t.unread = true
        rw [hunread (hi.busyNotDone hb), hi.unread hb] }
  | stores i b ha hlt =>
    exact { hi with
      srcWf := Memory.store_wf hi.srcWf i b
      srcBelow := Memory.store_below hi.srcBelow hlt b
      errEmpty := fun hf => hi.errEmpty (by simpa using (Bool.or_eq_false_iff.1 hf).1)
      codeRange := fun hf => hi.codeRange (by simpa using (Bool.or_eq_false_iff.1 hf).1)
      tainted := fun h => by
        show s.busy = true ∧ (s.fault || s.busy) = true
        have h : (s.tainted || s.busy) = true := h
        rcases (Bool.or_eq_true _ _ ▸ h) with h | h
        · exact ⟨(hi.tainted h).1, by simp [(hi.tainted h).2]⟩
        · exact ⟨h, by simp [h]⟩ }
  | resets => exact reset_inv hi

theorem HostMove.dataInv {a : HostItem} {s t : State} (hm : HostMove a s t) (hd : s.DataInv) : t.DataInv := by
  cases hm with
  | starts w ha hop =>
    unfold startCommand
    split
    · exact dataInv_congr hd id rfl rfl rfl rfl rfl rfl
    · exact accept_dataInv _ s
  | keeps t hframe hunread hdraws hrst =>
    rw [hframe]
    exact dataInv_congr hd id rfl rfl rfl rfl rfl rfl
  | stores i b ha hlt =>
    by_cases hb : s.phase = .idle
    · exact dataInv_of_idle hb
    · intro h
      have h : (s.tainted || s.busy) = false := h
      have := (Bool.or_eq_false_iff.1 h).2
      exact absurd ((busy_eq_false s).1 this) hb
  | resets => exact dataInv_of_idle (resetSignal_phase s)

/-! ### One step of the block -/

theorem takeItem_inv {s : State} (hi : s.Inv) (rest : List HostItem) : (s.takeItem rest).Inv :=
  { hi with }

theorem takeItem_dataInv {s : State} (hd : s.DataInv) (rest : List HostItem) : (s.takeItem rest).DataInv :=
  dataInv_congr hd id rfl rfl rfl rfl rfl rfl

/-- The three things a step of the block can be. -/
inductive BlockMove (s : State) : State → Prop
  | engine (t : State) (hturn : s.engineTurn = true) (hm : EngineMove s t) : BlockMove s t
  | host (a : HostItem) (rest : List HostItem) (t : State) (hturn : s.engineTurn = false) (hhost : s.host = a :: rest)
      (hm : HostMove a (s.takeItem rest) t) : BlockMove s t
  | waits (hturn : s.engineTurn = false) (hhost : s.host = []) (hidle : s.phase = .idle) : BlockMove s s

theorem step_move {s : State} (hi : s.Inv) (hd : s.DataInv) : ∃ t, step s = .next t ∧ BlockMove s t := by
  unfold step blockStep
  cases hturn : s.engineTurn with
  | true =>
    have hb : s.phase ≠ .idle := by
      simp only [State.engineTurn, Bool.and_eq_true] at hturn
      exact (busy_eq_true s).1 hturn.1
    obtain ⟨t, h1, h2⟩ := engineStep_move hi hd hb
    exact ⟨t, by rw [if_pos rfl, h1], .engine t hturn h2⟩
  | false =>
    rw [if_neg (by simp)]
    cases hhost : s.host with
    | nil =>
      refine ⟨s, rfl, .waits hturn hhost ?_⟩
      simp only [State.engineTurn, hhost, List.isEmpty_nil, Bool.true_or, Bool.and_true] at hturn
      exact (busy_eq_false s).1 hturn
    | cons a rest =>
      obtain ⟨t, h1, h2⟩ := hostAccess_move a (s.takeItem rest)
      exact ⟨t, h1, .host a rest t hturn hhost h2⟩

theorem engineTurn_busy {s : State} (h : s.engineTurn = true) : s.phase ≠ .idle := by
  simp only [State.engineTurn, Bool.and_eq_true] at h
  exact (busy_eq_true s).1 h.1

theorem BlockMove.inv {s t : State} (hm : BlockMove s t) (hi : s.Inv) : t.Inv := by
  cases hm with
  | engine _ hturn hm => exact hm.inv hi (engineTurn_busy hturn)
  | host a rest _ hturn hhost hm => exact hm.inv (takeItem_inv hi rest)
  | waits => exact hi

theorem BlockMove.dataInv {s t : State} (hm : BlockMove s t) (hd : s.DataInv) : t.DataInv := by
  cases hm with
  | engine _ hturn hm => exact hm.dataInv
  | host a rest _ hturn hhost hm => exact hm.dataInv (takeItem_dataInv hd rest)
  | waits => exact hd

theorem hostMove_of {a : HostItem} {s t : State} (h : hostAccess a s = .next t) : HostMove a s t := by
  obtain ⟨t', h1, h2⟩ := hostAccess_move a s
  rw [h1] at h
  cases h
  exact h2

theorem blockMove_of {s t : State} (hi : s.Inv) (hd : s.DataInv) (h : step s = .next t) : BlockMove s t := by
  obtain ⟨t', h1, h2⟩ := step_move hi hd
  rw [h1] at h
  cases h
  exact h2

/-- A run is a step and then a run. -/
theorem run_succ (n : Nat) {s t : State} (h : step s = .next t) : Host.Core.run core (n + 1) s = Host.Core.run core n t := by
  have h' : core.step s = .next t := h
  simp only [Host.Core.run, h']

end Sys2Proof.Machine
end

