-- ==== Sys2Proof/Laws/HostRun.lean ====
section
/-! SUPPORT. Runs of the host's script on an idle block (30_encoding.md R104), the bits of STATUS (10_state.md R25), and what is left
to do after an engine step (70_reset_and_hazards.md R308). -/

namespace Sys2Proof.Machine

theorem status_bits (b : Bool) (f : Status) : (statusWord b f).getLsbD 0 = b ∧ (statusWord b f).getLsbD 1 = f.done ∧
    (statusWord b f).getLsbD 2 = f.err ∧ (statusWord b f).getLsbD 3 = f.drop := by
  rcases f with ⟨d, e, r⟩
  revert b d e r; decide

theorem status_high (b : Bool) (f : Status) (k : Nat) (hk : 4 ≤ k) : (statusWord b f).getLsbD k = false := by
  by_cases h : k < 32
  · rcases f with ⟨d, e, r⟩
    have : ∀ k : Fin 32, 4 ≤ k.val → ∀ b d e r : Bool, (statusWord b ⟨d, e, r⟩).getLsbD k.val = false := by decide
    exact this ⟨k, h⟩ hk b d e r
  · exact BitVec.getLsbD_of_ge _ _ (by omega)

theorem engineTurn_of_stall {s : State} (hb : s.busy = true) (h : s.stall = 0) : s.engineTurn = true := by
  simp [State.engineTurn, hb, h]

/-- R234: acceptance leaves the host's side. -/
theorem accept_keeps (op : BitVec 4) (p : Phase) (s : State) : KeepsHostSide s (accept op p s) := by
  constructor <;> rw [accept_frame]

/-- R308: an engine step ends the command or leaves fewer phases. -/
theorem EngineMove.left {s t : State} (hm : EngineMove s t) (hb : s.phase ≠ .idle) :
    (t.phase = .idle ∧ t.status.done = true) ∨ (t.phase ≠ .idle ∧ t.phase.left < s.phase.left ∧ t.host = s.host) := by
  cases hm with
  | inDoubt => exact .inl ⟨rfl, rfl⟩
  | goes u ht hphase hbusy hframe =>
    right
    have := Phase.left_next hb
    refine ⟨hbusy, ?_, ?_⟩
    · show u.phase.left < _
      rw [hphase]; omega
    · show u.host = _
      rw [hframe]
  | finishes => exact .inl ⟨rfl, rfl⟩
  | fails e => left; unfold completeError; split <;> exact ⟨rfl, rfl⟩

/-- R282: the engine never touches the sticky fault. -/
theorem EngineMove.fault {s t : State} (hm : EngineMove s t) : t.fault = s.fault := by
  cases hm with
  | inDoubt => rfl
  | goes u ht hphase hbusy hframe => show u.fault = _; rw [hframe]
  | finishes u n out h ht hnext hresult hn hframe => show u.fault = _; rw [hframe]
  | fails e => unfold completeError; split <;> rfl

/-- An idle block takes the host's next item. -/
theorem step_host {s : State} {a : HostItem} {rest : List HostItem} (hb : s.busy = false) (hh : s.host = a :: rest) :
    step s = hostAccess a (s.takeItem rest) := by
  have ht : s.engineTurn = false := by simp [State.engineTurn, hb]
  simp only [step, blockStep, ht, hh]
  rfl

/-- A run is a run and then a run. -/
theorem run_add (m n : Nat) : ∀ {s t : State}, Host.Core.run core m s = .next t → Host.Core.run core (m + n) s = Host.Core.run core n t := by
  induction m with
  | zero => intro s t h; cases h; rw [Nat.zero_add]
  | succ m ih =>
    intro s t h
    cases hs : step s with
    | next u =>
      rw [run_succ m hs] at h
      rw [Nat.add_right_comm, run_succ (m + n) hs]
      exact ih h
    | fault f =>
      have h' : core.step s = .fault f := hs
      simp only [Host.Core.run, h'] at h
      cases h
    | refused r => cases r; have h' : core.step s = _ := hs; simp only [Host.Core.run, h'] at h; cases h

/-- R72: with no command running and no DONE read owed, a host read of DST sees the byte. -/
theorem hostReadDst_idle {s : State} {i : Nat} (h : i < s.params.dstMax.toNat) (hb : s.busy = false) (hu : s.unread = false) :
    hostReadDst i s = { s with rdata := (s.dstRead i).setWidth 32 } := by
  rw [hostReadDst, if_pos h, if_neg (by simp [hb, hu])]

/-- What a sequence of SRC writes of the bytes `f` at the indices `l` leaves. -/
structure Stored (s t : State) (l : List Nat) (f : Nat → Byte) : Prop where
  frame : t = { s with src := t.src, host := t.host, stall := t.stall, rdata := t.rdata }
  wf : Memory.wf t.src
  lookup : ∀ j, Memory.lookup t.src j = if j ∈ l then some (f j) else Memory.lookup s.src j

/-- R104: a row of `wsrc`. -/
theorem run_wsrc (f : Nat → Byte) (rest : List HostItem) (l : List Nat) : ∀ s : State, s.busy = false → Memory.wf s.src → (∀ i ∈ l, i < s.params.srcMax.toNat) →
    s.host = l.map (fun i => HostItem.wsrc i (f i)) ++ rest →
    ∃ t, Host.Core.run core l.length s = .next t ∧ t.host = rest ∧ Stored s t l f := by
  induction l with
  | nil => intro s hb hwf hl hh; exact ⟨s, rfl, hh, rfl, hwf, fun j => by simp⟩
  | cons i l ih =>
    intro s hb hwf hl hh
    have hs := step_host hb hh
    have hlt : i < (s.takeItem (l.map (fun i => HostItem.wsrc i (f i)) ++ rest)).params.srcMax.toNat := hl i (by simp)
    generalize hv : s.takeItem (l.map (fun i => HostItem.wsrc i (f i)) ++ rest) = v at hs hlt
    have hvb : v.busy = false := by rw [← hv]; exact hb
    have hvsrc : v.src = s.src := by rw [← hv]; rfl
    have hstep : step s = .next { v with src := Memory.store s.src i (f i) } := by
      refine hs.trans ?_
      show Host.Outcome.next (hostWriteSrc i (f i) v) = _
      rw [hostWriteSrc, if_pos hlt, hvb, hvsrc, Bool.or_false, Bool.or_false]
    obtain ⟨t, h1, h2, h3⟩ := ih { v with src := Memory.store s.src i (f i) } hvb (Memory.store_wf hwf i (f i))
      (fun j hj => by rw [← hv]; exact hl j (by simp [hj])) (by rw [← hv]; rfl)
    refine ⟨t, by rw [List.length_cons, run_succ _ hstep, h1], h2, ?_, h3.wf, fun j => ?_⟩
    · rw [h3.frame, ← hv]; rfl
    · rw [h3.lookup]
      show (if j ∈ l then some (f j) else Memory.lookup (Memory.store s.src i (f i)) j) = _
      rw [Memory.lookup_store hwf]
      by_cases hj : j ∈ l
      · simp [hj]
      · by_cases hji : j = i <;> simp [hj, hji]

/-- R104: a row of copies from DST to SRC. -/
theorem run_copy (rest : List HostItem) (d : State) (l : List Nat) : ∀ s : State, s.busy = false → s.unread = false → Memory.wf s.src → (∀ i ∈ l, i < s.params.srcMax.toNat) →
    (∀ i ∈ l, i < s.params.dstMax.toNat) → s.dst = d.dst → s.dstGen = d.dstGen →
    s.host = l.map HostItem.copyByte ++ rest →
    ∃ t, Host.Core.run core (2 * l.length) s = .next t ∧ t.host = rest ∧ Stored s t l d.dstRead := by
  induction l with
  | nil => intro s hb hu hwf hl hl' hd hg hh; exact ⟨s, rfl, hh, rfl, hwf, fun j => by simp⟩
  | cons i l ih =>
    intro s hb hu hwf hl hl' hd hg hh
    have hs := step_host hb hh
    have hlt : i < s.params.srcMax.toNat := hl i (by simp)
    have hlt' : i < s.params.dstMax.toNat := hl' i (by simp)
    have hrd : s.dstRead i = d.dstRead i := by rw [State.dstRead, State.dstRead, hd, hg]
    have hstep : step s = .next { s with host := .wsrc i (d.dstRead i) :: (l.map HostItem.copyByte ++ rest), stall := s.stall - 1, rdata := (d.dstRead i).setWidth 32 } := by
      refine hs.trans ?_
      have hr : hostReadDst i (s.takeItem (l.map HostItem.copyByte ++ rest)) =
          { s.takeItem (l.map HostItem.copyByte ++ rest) with rdata := (d.dstRead i).setWidth 32 } := by
        rw [hostReadDst_idle (s := s.takeItem _) hlt' hb hu, show (s.takeItem _).dstRead i = s.dstRead i from rfl, hrd]
      show Host.Outcome.next (hostCopyByte i (s.takeItem (l.map HostItem.copyByte ++ rest))) = _
      unfold hostCopyByte
      rw [hr]
      simp [State.hostFirst, State.takeItem]
    obtain ⟨u, h1, h2, h3⟩ := run_wsrc d.dstRead (l.map HostItem.copyByte ++ rest) [i]
      { s with host := .wsrc i (d.dstRead i) :: (l.map HostItem.copyByte ++ rest), stall := s.stall - 1, rdata := (d.dstRead i).setWidth 32 }
      hb hwf (fun j hj => by simp at hj; subst hj; exact hlt) rfl
    obtain ⟨t, h4, h5, h6⟩ := ih u (by rw [h3.frame]; exact hb) (by rw [h3.frame]; exact hu) h3.wf (fun j hj => by rw [h3.frame]; exact hl j (by simp [hj]))
      (fun j hj => by rw [h3.frame]; exact hl' j (by simp [hj])) (by rw [h3.frame]; exact hd) (by rw [h3.frame]; exact hg) h2
    refine ⟨t, ?_, h5, ?_, h6.wf, fun j => ?_⟩
    · rw [List.length_cons, show 2 * (l.length + 1) = (1 + 2 * l.length) + 1 by omega, run_succ _ hstep, run_add 1 _ h1, h4]
    · rw [h6.frame, h3.frame]
    · rw [h6.lookup, h3.lookup]
      by_cases hj : j ∈ l
      · simp [hj]
      · by_cases hji : j = i <;> simp [hj, hji]

theorem run_srcLen {s : State} (v : Word) (rest : List HostItem) (hb : s.busy = false) (hh : s.host = .wreg regSrcLen v :: rest) :
    Host.Core.run core 1 s = .next { s with srcLen := v, host := rest, stall := s.stall - 1 } := by
  rw [run_succ 0 (step_host hb hh)]; rfl

end Sys2Proof.Machine
end

