-- ==== Sys2Proof/Laws/Payload.lean ====
section
/-! SUPPORT. The payload bit by bit, unpacking code by code, and what success of either command says (20_memory.md R61;
42_bit_packer.md R201–R210; 43_container_codec.md R236, R237). -/

namespace Sys2Proof.Machine

/-- R61: the place of a payload bit. -/
theorem payloadBits_getElem (payload : Bytes) (k : Nat) (hk : k < 8 * payload.length) :
    (payloadBits payload)[k]? = some (streamBit (payload.getD (k / 8) 0#8) (k % 8)) := by
  induction payload generalizing k with
  | nil => simp at hk
  | cons b bs ih =>
    rw [payloadBits_cons]
    by_cases h : k < 8
    · rw [List.getElem?_append_left (by rw [streamBits_length]; exact h)]
      have h0 : k / 8 = 0 := by omega
      have h1 : k % 8 = k := by omega
      rw [h0, h1]
      simp [streamBits, h]
    · rw [List.getElem?_append_right (by rw [streamBits_length]; omega), streamBits_length, ih (k - 8) (by simp at hk; omega)]
      have h0 : k / 8 = (k - 8) / 8 + 1 := by omega
      have h1 : (k - 8) % 8 = k % 8 := by omega
      rw [h0, h1]; rfl

/-- R201: the total of the code lengths. -/
theorem codeBits_length (code : List (Option Bits)) (src : Bytes) :
    (codeBits code src).length = (src.map (fun b => ((codeOf code b).getD []).length)).sum := by
  unfold codeBits
  induction src with
  | nil => rfl
  | cons b src ih => simp [List.flatMap_cons, ih]

/-- R204: codes first, then the rest from the root. -/
theorem unpackBits_codes {f : Word} {l r : HuffTree} (codes : List (Byte × Bits)) (tail : Bits)
    (h : ∀ p ∈ codes, (HuffTree.node f l r).leadsTo p.2 p.1) :
    unpackBits l r l r false (codes.flatMap Prod.snd ++ tail) =
      (codes.map Prod.fst ++ (unpackBits l r l r false tail).1, (unpackBits l r l r false tail).2) := by
  induction codes with
  | nil => rfl
  | cons p codes ih =>
    rw [List.flatMap_cons, List.append_assoc, unpackBits_code l r false _ (h p (by simp)), ih (fun q hq => h q (by simp [hq]))]
    rfl

/-- R207: bits that end inside a code emit nothing and leave the cursor inside it. -/
theorem unpackBits_cut (L R : HuffTree) {f : Word} {l r : HuffTree} {c d : Bits} {v : Byte} (mid : Bool)
    (h : (HuffTree.node f l r).leadsTo (c ++ d) v) (hd : d ≠ []) :
    unpackBits L R l r mid c = ([], if c = [] then mid else true) := by
  induction c generalizing f l r mid with
  | nil => rfl
  | cons bit c ih =>
    have h' : (if bit then r else l).leadsTo (c ++ d) v := by
      cases bit <;> simpa [HuffTree.leadsTo] using h
    rw [unpackBits]
    cases ht : (if bit then r else l) with
    | leaf w g =>
      rw [ht] at h'
      have := h'.1
      simp at this
      exact absurd this.2 hd
    | node g l' r' =>
      rw [ht] at h'
      simp only []
      rw [ih true h']
      simp

/-- R236: what success of COMPRESS says. -/
theorem compress_ok {src : Bytes} {degen : Bool} {srcMax dstMax : Nat} {out : Bytes} {h : BitVec 16}
    (he : compressBytes src degen srcMax dstMax = .ok (out, h)) :
    out = container src ∧ h = containerHeader src ∧ src.length ≤ srcMax ∧ out.length ≤ dstMax := by
  unfold compressBytes at he
  split at he
  · cases he
  · split at he
    · cases he
    · split at he
      · cases he
      · cases he; exact ⟨rfl, rfl, by omega, by omega⟩

/-- R237: what success of DECOMPRESS says. -/
theorem decompress_ok {src : Bytes} {degen : Bool} {srcMax dstMax : Nat} {out : Bytes} {h : BitVec 16}
    (he : decompressBytes src degen srcMax dstMax = .ok (out, h)) :
    h = headerOfBytes (src.getD 2 0#8) (src.getD 3 0#8) ∧ 4 + (headerTreeSize h).toNat ≤ src.length ∧
    ∃ root n, deserializeTree ((src.drop 4).take (headerTreeSize h).toNat) = some root ∧
      unpackBitCount src.length (headerGarbage h).toNat (headerTreeSize h).toNat = some n ∧
      unpackTree root ((payloadBits (src.drop (4 + (headerTreeSize h).toNat))).take n) dstMax = .ok out := by
  unfold decompressBytes at he
  split at he
  · cases he
  · split at he
    · cases he
    · simp only [] at he
      split at he
      · cases he
      · rename_i h3
        unfold decodeBody at he
        simp only [] at he
        split at he
        · cases he
        · rename_i root hr
          split at he
          · cases he
          · split at he
            · cases he
            · rename_i n hn
              split at he
              · cases he
              · rename_i o ho
                cases he
                exact ⟨rfl, Nat.le_of_not_lt h3, root, n, hr, hn, ho⟩

/-- R209: the bounds of a successful unpacking. -/
theorem unpackTree_ok (root : Option HuffTree) (bits : Bits) (dstMax : Nat) (out : Bytes) (h : unpackTree root bits dstMax = .ok out) :
    out.length ≤ bits.length ∧ out.length ≤ dstMax ∧ (∀ v f, root = some (.leaf v f) → out.length = bits.length) := by
  cases root with
  | none =>
    simp only [unpackTree] at h
    by_cases hb : bits = []
    · rw [if_pos hb] at h; cases h; simp
    · rw [if_neg hb] at h; cases h
  | some t =>
    cases t with
    | leaf v f =>
      simp only [unpackTree, unpackOutcome] at h
      split at h
      · cases h
      · rename_i hd
        cases h
        simp at hd
        simp [hd]
    | node f l r =>
      simp only [unpackTree, unpackOutcome] at h
      split at h
      · cases h
      · rename_i hd
        split at h
        · cases h
        · cases h
          exact ⟨unpackBits_length _ _ _ _ _ _, by omega, fun v f e => by cases e⟩

/-- R176: parsing back keeps the shape. -/
theorem isSingleLeaf_unweighted (t : Option HuffTree) : isSingleLeaf (t.map HuffTree.unweighted) = isSingleLeaf t := by
  match t with
  | none => rfl
  | some (.leaf _ _) => rfl
  | some (.node _ _ _) => rfl

end Sys2Proof.Machine
end

