-- ==== Sys2Proof/Laws/PerInstr.lean ====
section
/-! SUPPORT. Statements made command by command (30_encoding.md R90–R92). -/

namespace Sys2Proof.Laws.OpcodeRow

/-- R91, spec/opcode_table.json: whatever the ignored bits, a well-formed command's word carries its opcode in bits 3:0, and among the
table's rows exactly the row of its own mnemonic has its mask and pattern in that word. -/
def Statement (i : Instr) : Prop :=
  i.wellFormed = true → ∀ ignored : BitVec 28,
    opField (encodeWith ignored i) = i.op ∧
    (opcodeTable.filter (fun row => encode i &&& row.mask == row.pattern)).map OpcodeRow.mnemonic = [i.mnemonic]

theorem nop : Statement .nop :=
  fun _ ignored => ⟨opField_encodeWith ignored _, by decide⟩

theorem compress : Statement .compress :=
  fun _ ignored => ⟨opField_encodeWith ignored _, by decide⟩

theorem decompress : Statement .decompress :=
  fun _ ignored => ⟨opField_encodeWith ignored _, by decide⟩

theorem reserved3 : Statement .reserved3 :=
  fun _ ignored => ⟨opField_encodeWith ignored _, by decide⟩

theorem reserved4to7 (op : BitVec 4) : Statement (.reserved4to7 op) :=
  fun h ignored => ⟨opField_encodeWith ignored _, by revert op; decide⟩

theorem reserved8toF (op : BitVec 4) : Statement (.reserved8toF op) :=
  fun h ignored => ⟨opField_encodeWith ignored _, by revert op; decide⟩

end Sys2Proof.Laws.OpcodeRow
end

