-- ==== Sys2Proof/Tests/Slice0.lean ====
section
/-! SUPPORT. Tests: expected values from spec/95_test_vectors.md and by hand from the rules; and for every obligation with
hypotheses, a state and operands that meet them together. -/

namespace Sys2Proof.Tests

open Sys2Proof Sys2Proof.Machine

/-! ### Well-formed terms -/

/-- R91: a reserved row holds its own opcodes only. -/
theorem test_wellFormed_refuses :
    (Instr.reserved4to7 3#4).wellFormed = false ∧ (Instr.reserved4to7 8#4).wellFormed = false ∧
    (Instr.reserved4to7 0#4).wellFormed = false ∧ (Instr.reserved8toF 7#4).wellFormed = false ∧
    (Instr.reserved8toF 2#4).wellFormed = false := by decide

theorem test_wellFormed_accepts :
    Instr.nop.wellFormed = true ∧ Instr.compress.wellFormed = true ∧ Instr.decompress.wellFormed = true ∧
    Instr.reserved3.wellFormed = true ∧ (Instr.reserved4to7 4#4).wellFormed = true ∧ (Instr.reserved4to7 7#4).wellFormed = true ∧
    (Instr.reserved8toF 8#4).wellFormed = true ∧ (Instr.reserved8toF 15#4).wellFormed = true := by decide

/-! ### Decoding: words written out bit by bit from R90, R91 -/

theorem test_decode_nop : decode 0b00000000000000000000000000010000#32 = .nop := by decide
theorem test_decode_compress : decode 0b00010010001101000101011001110001#32 = .compress := by decide
theorem test_decode_decompress : decode 0b11111111111111111111111111110010#32 = .decompress := by decide
theorem test_decode_reserved3 : decode 0b00000000000000000000000000000011#32 = .reserved3 := by decide
theorem test_decode_reserved4to7 : decode 0b00000000000000000000000000000110#32 = .reserved4to7 6#4 := by decide
theorem test_decode_reserved8toF : decode 0b10000000000000000000000000001010#32 = .reserved8toF 10#4 := by decide

theorem test_decodeTableWord : decodeTableWord 32 2 = some .decompress ∧ decodeTableWord 33 2 = none := by decide

/-! ### The pure functions, from spec/95_test_vectors.md -/

/-- 95 §2.9. -/
theorem test_header : headerUnpack 0x61#8 0x00#8 = (3#3, 256#13) ∧ headerPack 4#3 15#13 = 0x800F#16 := by decide

/-- 95 §2.2: the newest of equal frequencies is first. -/
theorem test_pqInsert :
    pqInsert [.leaf 0x43#8 2#32, .leaf 0x42#8 3#32, .leaf 0x41#8 5#32] (.leaf 0x5A#8 5#32) =
      [.leaf 0x43#8 2#32, .leaf 0x42#8 3#32, .leaf 0x5A#8 5#32, .leaf 0x41#8 5#32] := by decide

/-- 95 §2.5, §2.6: both escaped values, and an escape at the last budget byte. -/
theorem test_serialize_escapes :
    serialize (some (.node 0#32 (.leaf 0x5C#8 0#32) (.leaf 0x2A#8 0#32))) = [0x2A#8, 0x5C#8, 0x5C#8, 0x5C#8, 0x2A#8] ∧
    deserializeTree [0x5C#8] = none ∧ deserializeTree [0x41#8, 0x42#8, 0x43#8] = none ∧
    deserializeTree [0x5C#8, 0x41#8] = some (some (.leaf 0x41#8 0#32)) := by decide

/-- 95 §2.10, "ABRACADABRA". -/
theorem test_compress_abracadabra :
    compressBytes [0x41#8, 0x42#8, 0x52#8, 0x41#8, 0x43#8, 0x41#8, 0x44#8, 0x41#8, 0x42#8, 0x52#8, 0x41#8] false 16 16 =
      .ok ([0x41#8, 0x42#8, 0x20#8, 0x09#8, 0x2A#8, 0x41#8, 0x2A#8, 0x42#8, 0x2A#8, 0x2A#8, 0x44#8, 0x43#8, 0x52#8, 0x5D#8,
        0xAC#8, 0x5C#8], 0x2009#16) := by decide +kernel

/-- 95 §2.10: DegenerateAlphabet comes before SinkUnwritable. -/
theorem test_compress_degenerate : compressBytes [0x5A#8, 0x5A#8] true 16 3 = .error .degenerateAlphabet := by decide +kernel

/-- 95 §2.11: SinkUnwritable comes before the cut-short check. -/
theorem test_decompress_priority :
    decompressBytes [0x41#8, 0x42#8, 0x00#8, 0x05#8, 0x2A#8, 0x2A#8, 0x43#8, 0x42#8, 0x41#8, 0xFA#8, 0xA0#8] false 16 9 =
      .error .sinkUnwritable ∧
    decompressBytes [0x41#8, 0x42#8, 0x00#8, 0x05#8, 0x2A#8, 0x2A#8, 0x43#8, 0x42#8, 0x41#8, 0xFA#8, 0xA0#8] false 16 16 =
      .error .corruptPayload := by decide +kernel

/-- 95 §2.11: a leaf tree emits the leaf once per payload bit. -/
theorem test_decompress_leaf :
    decompressBytes [0x41#8, 0x42#8, 0x00#8, 0x02#8, 0x5C#8, 0x41#8, 0xF0#8] false 16 8 =
      .ok (List.replicate 8 0x41#8, 0x0002#16) := by decide +kernel

/-! ### States -/

/-- Idle, capacities 16 and 16, SRC = "AB", SRC_LEN = 2. -/
def idleAB : State :=
  { State.reset with params := { srcMax := 16#32, dstMax := 16#32 }, src := [(0, 0x41#8), (1, 0x42#8)], srcLen := 2#32 }

/-- COMPRESS of "AB" has just been accepted. -/
def busyAB : State :=
  { idleAB with phase := .cFreq, latch := { op := 1#4, srcLen := 2#32, degen := false }, stall := 3, unread := true }

/-- The same with a SRC_LEN beyond the capacity. -/
def busyTooLong : State :=
  { busyAB with latch := { op := 1#4, srcLen := 17#32, degen := false } }

/-- DECOMPRESS of a container with one leaf and no payload (95 §2.11) has just been accepted. -/
def busyLeaf : State :=
  { idleAB with
    src := [(0, 0x41#8), (1, 0x42#8), (2, 0x00#8), (3, 0x01#8), (4, 0x41#8)], srcLen := 5#32
    phase := .dHdr, latch := { op := 2#4, srcLen := 5#32, degen := false }, unread := true }

/-- The same at its last phase. -/
def unpackLeaf : State :=
  { busyLeaf with phase := .dUnpack, eng := { busyLeaf.eng with root := some (.leaf 0x41#8 0#32), treeSize := 1#13 } }

/-- Opcode 7 has just been accepted. -/
def busyBad : State :=
  { idleAB with phase := .xBad, latch := { op := 7#4, srcLen := 2#32, degen := false }, unread := true }

/-- The host has written SRC while COMPRESS runs. -/
def taintedAB : State :=
  { busyAB with tainted := true, fault := true }

/-- An error has completed. -/
def errorAB : State :=
  { idleAB with status := { done := true, err := true, drop := true }, errcode := 6#4 }

/-- The part of the invariant that does not speak of the engine, decidable. -/
theorem inv_of {s : State}
    (h : (s.params.srcMax ≠ 0#32 ∧ s.params.dstMax ≠ 0#32) ∧ Memory.wf s.src ∧ Memory.below s.src s.params.srcMax.toNat ∧ s.dst = [] ∧
      (s.busy = true → s.status.done = false) ∧
      (s.status.done = false → s.status.err = false ∧ s.errcode = 0#4 ∧ s.dstLen = 0#32 ∧ s.hdr = 0#16) ∧
      (s.status.err = true ↔ s.errcode ≠ 0#4) ∧ (s.status.err = true → s.dstLen = 0#32 ∧ s.hdr = 0#16) ∧ s.errcode.toNat ≤ 6 ∧
      (s.status.drop = true → s.busy = true ∨ s.status.done = true) ∧ (s.tainted = true → s.busy = true ∧ s.fault = true) ∧
      (s.busy = true → s.unread = true) ∧ s.dstGen < s.draws)
    (hf : s.eng.freq = List.replicate 256 0#32) (hc : s.eng.code = List.replicate 256 none) (ho : phaseOfOp s.phase s.latch.op) :
    s.Inv := by
  obtain ⟨h1, h2, h3, h4, h5, h6, h7, h8, h9, h10, h11, h12, h13⟩ := h
  exact {
    params := h1, srcWf := h2, srcBelow := h3, dstWf := h4 ▸ List.Pairwise.nil, dstBelow := fun c hc => by rw [h4] at hc; cases hc
    busyNotDone := h5, notDone := h6, errCode := h7, errEmpty := fun _ => h8, codeRange := fun _ => h9, drop := h10, tainted := h11
    unread := h12, dstGen := h13, freq := by rw [hf, List.length_replicate], code := by rw [hc, List.length_replicate], op := ho }

theorem idleAB_inv : idleAB.Inv ∧ idleAB.DataInv := ⟨inv_of (by decide) rfl rfl trivial, fun _ => trivial⟩
theorem busyAB_inv : busyAB.Inv ∧ busyAB.DataInv := ⟨inv_of (by decide) rfl rfl rfl, fun _ => rfl⟩
theorem busyTooLong_inv : busyTooLong.Inv ∧ busyTooLong.DataInv := ⟨inv_of (by decide) rfl rfl rfl, fun _ => rfl⟩
theorem busyLeaf_inv : busyLeaf.Inv ∧ busyLeaf.DataInv := ⟨inv_of (by decide) rfl rfl rfl, fun _ => trivial⟩
theorem busyBad_inv : busyBad.Inv ∧ busyBad.DataInv :=
  ⟨inv_of (by decide) rfl rfl (show 3 ≤ (7#4).toNat by decide), fun _ => trivial⟩
theorem taintedAB_inv : taintedAB.Inv ∧ taintedAB.DataInv :=
  ⟨inv_of (by decide) rfl rfl rfl, fun h => absurd h (by decide)⟩
theorem errorAB_inv : errorAB.Inv ∧ errorAB.DataInv := ⟨inv_of (by decide) rfl rfl trivial, fun _ => trivial⟩
theorem unpackLeaf_inv : unpackLeaf.Inv ∧ unpackLeaf.DataInv :=
  ⟨inv_of (by decide) rfl rfl rfl, fun _ => by
    show _ ∧ _ ∧ _ ∧ _ ∧ _
    decide +kernel⟩

/-- The outcome is a next state with a property. -/
def endsWith (o : Host.Outcome State Fault Refusal) (p : State → Bool) : Bool :=
  match o with
  | .next t => p t
  | .fault _ => false
  | .refused _ => false

theorem endsWith_next {o : Host.Outcome State Fault Refusal} {p : State → Bool} (h : endsWith o p = true) :
    ∃ t, o = .next t ∧ p t = true := by
  cases o with
  | next t => exact ⟨t, rfl, h⟩
  | fault f => exact absurd h (by simp [endsWith])
  | refused r => exact absurd h (by simp [endsWith])

/-- 95 §2.10: the container of "AB". -/
def containerAB : Memory :=
  [(0, 0x41#8), (1, 0x42#8), (2, 0xC0#8), (3, 0x03#8), (4, 0x2A#8), (5, 0x42#8), (6, 0x41#8), (7, 0x80#8)]

/-! ### One step -/

/-- 95 §2.12: a NOP with ignored bits set, busy or not. -/
theorem test_nop : hostAccess (.wreg 0 0x10#32) errorAB = .next errorAB ∧ hostAccess (.wreg 0 0x0#32) busyAB = .next busyAB :=
  ⟨rfl, rfl⟩

/-- 95 §2.12: acceptance after an error. -/
theorem test_compress_accepted :
    ∃ t, exec .compress errorAB = .next t ∧ t.regRead 1 = 1#32 ∧ t.regRead 2 = 0#32 ∧ t.latch.srcLen = 2#32 ∧ t.phase = .cFreq :=
  ⟨_, rfl, by decide, by decide, by decide, by decide⟩

/-- 95 §2.12: `wreg CMD, 0x2` while busy. -/
theorem test_decompress_dropped : ∃ t, exec .decompress busyAB = .next t ∧ t.regRead 1 = 9#32 ∧ t.phase = .cFreq :=
  ⟨_, rfl, by decide, by decide⟩

/-- 95 §2.12: a reserved opcode ends with STATUS = 0x6, ERRCODE = 6. -/
theorem test_reserved_completes : ∃ t, engineStep busyBad = .next t ∧ t.regRead 1 = 6#32 ∧ t.regRead 2 = 6#32 ∧ t.dst = busyBad.dst :=
  ⟨_, rfl, by decide, by decide, rfl⟩

/-- 95 §2.10, "AB": the whole command on the machine, phase by phase. -/
theorem test_compress_runs :
    endsWith (engineRun 7 busyAB) (fun t => decide (t.regRead 1 = 2#32 ∧ t.regRead 4 = 8#32 ∧ t.regRead 5 = 0xC003#32 ∧
      t.dst = containerAB)) = true := by
  decide +kernel

/-- 95 §2.11: a leaf tree with no payload gives the empty output. -/
theorem test_decompress_runs :
    endsWith (engineRun 3 busyLeaf) (fun t => decide (t.regRead 1 = 2#32 ∧ t.regRead 4 = 0#32 ∧ t.regRead 5 = 1#32 ∧
      t.dst = [])) = true := by
  decide +kernel

/-- 95 §2.12: SRC_LEN beyond the capacity. -/
theorem test_source_unreadable : ∃ t, engineStep busyTooLong = .next t ∧ t.regRead 1 = 6#32 ∧ t.regRead 2 = 1#32 :=
  ⟨_, rfl, by decide, by decide⟩

/-- 95 §2.12: a write beyond SRC_MAX is ignored, and a read there gives 0. -/
theorem test_out_of_range : hostAccess (.wsrc 16 0x55#8) busyAB = .next busyAB ∧
    hostAccess (.rsrc 16) idleAB = .next { idleAB with rdata := 0#32 } := ⟨rfl, rfl⟩

/-! ### Witnesses: each hypothesis of each obligation is met -/

theorem witness_DecoderAgreesWithOpcodeTable :
    opcodeTable.getLast? = some ⟨"RESERVED_8_F", 8#32, 8#32⟩ ∧ (decode 0xF#32).mnemonic = "RESERVED_8_F" := by decide
theorem witness_DecodeEncodeRoundTrip :
    decode (encodeWith 0xFFFFFFF#28 (.reserved4to7 4#4)) = .reserved4to7 4#4 ∧
    decode (encodeWith 0xFFFFFFF#28 (.reserved8toF 15#4)) = .reserved8toF 15#4 := by decide
theorem witness_NopHasNoEffect : (0xFFFFFFF0#32).extractLsb' 0 4 = 0#4 := by decide
theorem witness_CommandAcceptance_nop : (0x10#32).extractLsb' 0 4 = 0#4 := by decide
theorem witness_CommandAcceptance_drop : (0xF#32).extractLsb' 0 4 ≠ 0#4 ∧ busyAB.busy = true := by decide
theorem witness_CommandAcceptance_accept : (0x1#32).extractLsb' 0 4 ≠ 0#4 ∧ idleAB.busy = false := by decide
theorem witness_EveryCommandStarts :
    idleAB.busy = false ∧
    (∀ i ∈ [Instr.compress, .decompress, .reserved3, .reserved4to7 4#4, .reserved4to7 7#4, .reserved8toF 8#4, .reserved8toF 15#4],
      i.wellFormed = true ∧ i ≠ .nop) := by decide
theorem witness_ReservedOpcodeCompletes :
    idleAB.busy = false ∧
    (∀ i ∈ [Instr.reserved3, .reserved4to7 4#4, .reserved8toF 15#4], i.wellFormed = true ∧ 3 ≤ i.op.toNat) := by decide
theorem witness_BusyCommandIsDropped :
    busyAB.busy = true ∧ Instr.nop.wellFormed = true ∧ (Instr.reserved8toF 15#4).wellFormed = true := by decide
theorem witness_CompressResult : idleAB.Inv ∧ idleAB.busy = false := ⟨idleAB_inv.1, by decide⟩
theorem witness_DecompressResult : errorAB.Inv ∧ errorAB.busy = false := ⟨errorAB_inv.1, by decide⟩
theorem witness_CompletionShowsResult_error :
    busyBad.Inv ∧ busyBad.DataInv ∧ busyBad.tainted = false ∧ busyBad.busy = true ∧
      ∃ t, engineStep busyBad = .next t ∧ t.busy = false :=
  ⟨busyBad_inv.1, busyBad_inv.2, by decide, by decide, _, rfl, by decide⟩
theorem unpackLeaf_step :
    endsWith (engineStep unpackLeaf) (fun t => decide (t.busy = false ∧ t.status.err = false)) = true := by decide +kernel
theorem witness_CompletionShowsResult_ok :
    unpackLeaf.Inv ∧ unpackLeaf.DataInv ∧ unpackLeaf.tainted = false ∧ unpackLeaf.busy = true ∧
      ∃ t, engineStep unpackLeaf = .next t ∧ t.busy = false ∧ t.status.err = false := by
  refine ⟨unpackLeaf_inv.1, unpackLeaf_inv.2, by decide, by decide, ?_⟩
  obtain ⟨t, h1, h2⟩ := endsWith_next unpackLeaf_step
  exact ⟨t, h1, of_decide_eq_true h2⟩
theorem witness_ErrorCompletion_badCommand :
    busyBad.tainted = false ∧ runPhase busyBad = .error (.raise .badCommand) := ⟨by decide, rfl⟩
theorem witness_ErrorCompletion_sourceUnreadable :
    busyTooLong.tainted = false ∧ runPhase busyTooLong = .error (.raise .sourceUnreadable) := ⟨by decide, rfl⟩
theorem witness_ErrorPriority : (2 ^ 32 - 1 < 2 ^ 32) ∧ 3 ≤ busyBad.latch.op.toNat := by decide
theorem witness_EnginePhaseOrder_next :
    busyAB.Inv ∧ busyAB.DataInv ∧ busyAB.tainted = false ∧ ∃ t, engineStep busyAB = .next t ∧ t.phase = .cBuild :=
  ⟨busyAB_inv.1, busyAB_inv.2, by decide, _, rfl, by decide⟩
theorem witness_EnginePhaseOrder_error :
    busyTooLong.Inv ∧ busyTooLong.DataInv ∧ busyTooLong.tainted = false ∧
      ∃ t, engineStep busyTooLong = .next t ∧ t.phase = .idle :=
  ⟨busyTooLong_inv.1, busyTooLong_inv.2, by decide, _, rfl, by decide⟩
theorem witness_RunningCommandUndisturbed :
    busyAB.busy = true ∧ HostItem.wreg 3 1#32 ≠ .rst ∧
      ∃ t, hostAccess (.wreg 3 1#32) busyAB = .next t ∧ t.tainted = false ∧ t.srcLen = 1#32 :=
  ⟨by decide, by decide, _, rfl, by decide, by decide⟩
theorem witness_CommandCompletes :
    busyAB.Inv ∧ busyAB.DataInv ∧ busyAB.busy = true ∧ HostItem.rst ∉ busyAB.host := ⟨busyAB_inv.1, busyAB_inv.2, by decide, by decide⟩
theorem witness_SourceWriteWhileBusy_store :
    Memory.wf busyAB.src ∧ busyAB.busy = true ∧ 15 < busyAB.params.srcMax.toNat := by decide
theorem witness_SourceWriteWhileBusy_complete : taintedAB.tainted = true := by decide
theorem witness_FaultIsSticky_stays :
    taintedAB.Inv ∧ taintedAB.DataInv ∧ taintedAB.fault = true ∧ ∃ t, step taintedAB = .next t :=
  ⟨taintedAB_inv.1, taintedAB_inv.2, by decide, _, rfl⟩
/-- A host with one write of SRC, at the last index. -/
def writerAB : State := { busyAB with host := [.wsrc 15 0x00#8] }
theorem writerAB_inv : writerAB.Inv ∧ writerAB.DataInv := ⟨inv_of (by decide) rfl rfl rfl, fun _ => rfl⟩
theorem witness_FaultIsSticky_sets :
    writerAB.Inv ∧ writerAB.DataInv ∧ writerAB.fault = false ∧ ∃ t, step writerAB = .next t ∧ t.fault = true :=
  ⟨writerAB_inv.1, writerAB_inv.2, by decide, _, rfl, by decide⟩
theorem witness_OnlyResetCancels_stays :
    writerAB.Inv ∧ writerAB.DataInv ∧ writerAB.busy = true ∧ ∃ t, step writerAB = .next t ∧ t.busy = true :=
  ⟨writerAB_inv.1, writerAB_inv.2, by decide, _, rfl, by decide⟩
theorem witness_OnlyResetCancels_ends :
    busyBad.Inv ∧ busyBad.DataInv ∧ busyBad.busy = true ∧ ∃ t, step busyBad = .next t ∧ t.busy = false :=
  ⟨busyBad_inv.1, busyBad_inv.2, by decide, _, rfl, by decide⟩
/-- A host about to reset a running block. -/
def resetterAB : State := { busyAB with host := [.rst] }
theorem witness_OnlyResetCancels_reset :
    resetterAB.Inv ∧ resetterAB.DataInv ∧ resetterAB.busy = true ∧ resetterAB.engineTurn = false ∧
      ∃ t, step resetterAB = .next t ∧ t.busy = false :=
  ⟨inv_of (by decide) rfl rfl rfl, fun _ => rfl, by decide, by decide, _, rfl, by decide⟩
theorem witness_RegisterReads_done : errorAB.status.done = true ∧ busyAB.status.done = false := by decide
theorem witness_RegisterReads : (7 : RegNum) ≤ 7 ∧ (7 : RegNum) ≤ 15 ∧ 4 ≤ 31 ∧ errorAB.regRead 15 = 0#32 := by decide
theorem witness_RegisterWrites : (∀ r ∈ [(1 : RegNum), 2, 4, 5, 7, 15], r ≠ 0 ∧ r ≠ 3 ∧ r ≠ 6) := by decide
theorem witness_SourcePort :
    Memory.wf idleAB.src ∧ 15 < idleAB.params.srcMax.toNat ∧ idleAB.params.srcMax.toNat ≤ 16 ∧ idleAB.busy = false := by decide
theorem witness_SinkPort :
    idleAB.params.dstMax.toNat ≤ 16 ∧ 15 < idleAB.params.dstMax.toNat ∧ idleAB.busy = false ∧ idleAB.unread = false ∧
    15 < busyAB.params.dstMax.toNat ∧ busyAB.busy = true := by decide
/-- A command has completed, and the host is about to read STATUS. -/
def pollAB : State := { errorAB with unread := true, host := [.rreg 1] }
theorem pollAB_inv : pollAB.Inv ∧ pollAB.DataInv := ⟨inv_of (by decide) rfl rfl trivial, fun _ => trivial⟩
theorem witness_SinkPort_unread : pollAB.busy = false ∧ pollAB.unread = true ∧ 15 < pollAB.params.dstMax.toNat := by decide
theorem witness_SinkPort_doneRead :
    pollAB.Inv ∧ pollAB.DataInv ∧ pollAB.unread = true ∧ ∃ t, step pollAB = .next t ∧ t.unread = false :=
  ⟨pollAB_inv.1, pollAB_inv.2, by decide, _, rfl, by decide⟩
theorem witness_EngineSinkWrite :
    Memory.wf busyAB.dst ∧ 15 < busyAB.params.dstMax.toNat ∧ busyAB.params.dstMax.toNat ≤ 16 := by decide
theorem witness_ResetSignal : idleAB.busy = false ∧ busyAB.busy = true := by decide
/-- A host about to write CMD. -/
def commandAB : State := { idleAB with host := [.wreg 0 0x12345671#32] }
theorem witness_StepRunsCommand_host :
    commandAB.host = .wreg 0 0x12345671#32 :: [] ∧ commandAB.engineTurn = false := by decide
theorem witness_StepRunsCommand_engine : busyAB.engineTurn = true := by decide
theorem witness_StepRunsCommand_waits : idleAB.host = [] ∧ idleAB.busy = false := by decide
/-- 95 §2.12: COMPRESS with ignored bits set, as the next step. -/
theorem test_withFetchWord : ∃ t, step (idleAB.withFetchWord 32 0x12345671) = .next t ∧ t.phase = .cFreq ∧ t.latch.op = 1#4 :=
  ⟨_, rfl, by decide, by decide⟩
theorem witness_InvariantKept :
    taintedAB.Inv ∧ taintedAB.DataInv ∧ ∃ t, step taintedAB = .next t := ⟨taintedAB_inv.1, taintedAB_inv.2, _, rfl⟩
theorem witness_StepNeverStops : unpackLeaf.Inv ∧ unpackLeaf.DataInv := unpackLeaf_inv
theorem witness_StatusRegisterInvariants :
    errorAB.Inv ∧ (errorAB.regRead 1).getLsbD 2 = true ∧ errorAB.fault = false ∧ errorAB.regRead 2 ≠ 0#32 ∧
    busyAB.Inv ∧ (busyAB.regRead 1).getLsbD 0 = true := ⟨errorAB_inv.1, by decide, by decide, by decide, busyAB_inv.1, by decide⟩
theorem witness_FrequencyTable_count : ([0x41#8, 0x42#8] : Bytes).length < 2 ^ 32 := by decide
theorem witness_FrequencyTable_phase :
    busyAB.Inv ∧ busyAB.tainted = false ∧ busyAB.phase = .cFreq ∧ busyAB.latch.srcLen ≤ busyAB.params.srcMax :=
  ⟨busyAB_inv.1, by decide, by decide, by decide⟩
theorem witness_QueueOrder : pqSorted [.leaf 0x43#8 2#32, .leaf 0x42#8 2#32, .leaf 0x41#8 5#32] := by unfold pqSorted; decide
theorem witness_QueueFill : freqZero.length = 256 := List.length_replicate
theorem witness_TreeBuildMerges :
    [HuffTree.leaf 0x43#8 2#32, .leaf 0x42#8 3#32] ≠ [] ∧
    ∀ t ∈ [HuffTree.leaf 0x43#8 2#32, .leaf 0x42#8 3#32], t.internals = 0 := by decide
/-- 95 §2.3, "AB" and the tie rule: B, filled last, comes out first. -/
theorem witness_TreeInvariants :
    ([0x41#8, 0x42#8] : Bytes).length < 2 ^ 32 ∧
    treeOf [0x41#8, 0x42#8] = some (.node 2#32 (.leaf 0x42#8 1#32) (.leaf 0x41#8 1#32)) := by decide +kernel
theorem witness_DegenerateTrees : (4 ≤ 4) ∧ (0 < 1) ∧ (1 < 2 ^ 32) ∧ (1 ≤ 1) ∧ (2 ^ 32 - 1 < 2 ^ 32) := by decide
theorem witness_CodeBookPaths :
    (HuffTree.node 2#32 (.leaf 0x42#8 1#32) (.leaf 0x41#8 1#32)).values.Nodup ∧ ([] : Bytes).length < 2 ^ 32 := by decide
theorem witness_CodesPrefixFree :
    (HuffTree.node 2#32 (.leaf 0x42#8 1#32) (.leaf 0x41#8 1#32)).values.Nodup ∧
    2 ≤ (HuffTree.node 2#32 (.leaf 0x42#8 1#32) (.leaf 0x41#8 1#32)).values.length ∧
    codeOf (codeBook (some (.node 2#32 (.leaf 0x42#8 1#32) (.leaf 0x41#8 1#32)))) 0x42#8 = some [false] ∧
    codeOf (codeBook (some (.node 2#32 (.leaf 0x42#8 1#32) (.leaf 0x41#8 1#32)))) 0x41#8 = some [true] := by decide +kernel
theorem witness_CompressCapacities : ∃ t, treeOf [0x41#8, 0x42#8] = some t := ⟨_, witness_TreeInvariants.2⟩
/-- R98, the grammar's three forms. -/
theorem witness_TreeStreamLength : TreeStream [0x2A#8, 0x5C#8, 0x2A#8, 0x41#8] (.node 0#32 (.leaf 0x2A#8 0#32) (.leaf 0x41#8 0#32)) :=
  .node (l := [0x5C#8, 0x2A#8]) (r := [0x41#8]) (.escaped 0x2A#8) (.plain 0x41#8 (by decide) (by decide))
theorem witness_ParsedTreeBounds :
    ([0x2A#8, 0x41#8, 0x41#8] : Bytes).length ≤ 8191 ∧
    deserializeTree [0x2A#8, 0x41#8, 0x41#8] = some (some (.node 0#32 (.leaf 0x41#8 0#32) (.leaf 0x41#8 0#32))) := by decide
/-- The stack of a descent that is full, and the marker at the read pointer. -/
def fullStack : State :=
  { idleAB with
    src := [(0, 0x2A#8)], eng := { Engine.reset with stack := List.replicate 4095 none, budget := 3#13, treeSize := 3#13 } }
theorem witness_ParsedTreeBounds_stack : fullStack.eng.stack.length = 4095 ∧ fullStack.srcRead fullStack.eng.rdPtr.toNat = 0x2A#8 :=
  ⟨List.length_replicate, by decide⟩
theorem witness_ParsedTreeBounds_field :
    fullStack.eng.budget = fullStack.eng.treeSize ∧ fullStack.eng.rdPtr.toNat + fullStack.eng.treeSize.toNat < 2 ^ 32 := by decide
theorem witness_ParsedTreeBounds_head :
    ([none] : List (Option HuffTree)).length ≤ 4095 ∧
      ∃ t, deserHead { fullStack with eng := { fullStack.eng with stack := [none] } } = .ok t :=
  ⟨by decide, _, rfl⟩
theorem witness_PayloadBitOrder : 15 < 8 * ([0xFA#8, 0xA0#8] : Bytes).length := by decide
theorem witness_CodeBitTotal : oneSymbol [0x5A#8, 0x5A#8] = true ∧ ([0x5A#8, 0x5A#8] : Bytes).length < 2 ^ 32 := by decide
/-- 95 §2.8: "none, (empty), g = 3" and "none, FF, g = 0". -/
theorem witness_UnpackOutcomes :
    (4 < 2 ^ 32 ∧ 3 < 8 ∧ 4 + 0 ≤ 4 ∧ unpackBitCount 4 3 0 = none) ∧ unpackBitCount 5 0 0 = some 8 ∧
    unpackBitCount (2 ^ 32 - 1) 0 0 = some (8 * (2 ^ 32 - 5)) := by decide
theorem witness_UnpackFollowsCodes :
    (∀ p ∈ [((0x41#8 : Byte), ([true] : Bits))], (HuffTree.node 0#32 (.node 0#32 (.leaf 0x43#8 0#32) (.leaf 0x42#8 0#32))
      (.leaf 0x41#8 0#32)).leadsTo p.2 p.1) ∧
    (HuffTree.node 0#32 (.node 0#32 (.leaf 0x43#8 0#32) (.leaf 0x42#8 0#32)) (.leaf 0x41#8 0#32)).leadsTo ([false] ++ [true]) 0x42#8 := by
  simp [HuffTree.leadsTo]
/-- 95 §2.11: the padding bit of FA A0 and FA A1. -/
theorem witness_GarbageBitsIgnored :
    4 + ((headerOfBytes 0x20#8 0x05#8).extractLsb' 0 13).toNat ≤ 10 ∧ ((headerOfBytes 0x20#8 0x05#8).extractLsb' 13 3).toNat = 1 ∧
    (∀ k < 8, 1 ≤ k → (0xA0#8).getLsbD k = (0xA1#8).getLsbD k) := by decide
theorem witness_OutputBound :
    decompressBytes [0x41#8, 0x42#8, 0xE0#8, 0x01#8, 0x41#8, 0x00#8] false 16 1 = .ok ([0x41#8], 0xE001#16) ∧
    deserializeTree (([0x41#8, 0x42#8, 0xE0#8, 0x01#8, 0x41#8, 0x00#8].drop 4).take ((0xE001#16).extractLsb' 0 13).toNat) =
      some (some (.leaf 0x41#8 0#32)) := by decide +kernel
/-- 95 §2.10, "AB". -/
theorem witness_RoundTrip :
    ([0x41#8, 0x42#8] : Bytes).length < 2 ^ 32 ∧
    compressBytes [0x41#8, 0x42#8] true 2 8 = .ok ([0x41#8, 0x42#8, 0xC0#8, 0x03#8, 0x2A#8, 0x42#8, 0x41#8, 0x80#8], 0xC003#16) ∧
    2 ≤ ([0x41#8, 0x42#8] : Bytes).dedup.length := by decide +kernel
theorem witness_ContainerLayout :
    compressBytes [0x41#8, 0x42#8] false 16 16 = .ok ([0x41#8, 0x42#8, 0xC0#8, 0x03#8, 0x2A#8, 0x42#8, 0x41#8, 0x80#8], 0xC003#16) ∧
    decompressBytes [0x41#8, 0x42#8, 0xE0#8, 0x01#8, 0x41#8, 0x00#8] false 16 16 = .ok ([0x41#8], 0xE001#16) := by decide +kernel
theorem witness_ResultRestsOnInputAlone :
    { busyAB with srcLen := 9#32 }.latch = busyAB.latch ∧ (∀ i < 2, { busyAB with srcLen := 9#32 }.srcRead i = busyAB.srcRead i) ∧
    busyTooLong.latch.op = 1#4 ∧ busyTooLong.params.srcMax < busyTooLong.latch.srcLen :=
  ⟨rfl, fun _ _ => rfl, by decide, by decide⟩
theorem witness_TreeRestsOnFrequencies : ([0x41#8, 0x42#8] : Bytes).Perm [0x42#8, 0x41#8] := by decide

/-- Idle, with the container of "AB" in SRC. -/
def idleContainer : State :=
  { idleAB with
    src := containerAB, srcLen := 8#32 }
theorem idleContainer_inv : idleContainer.Inv := inv_of (by decide) rfl rfl trivial
theorem compressAB_accepted_run :
    endsWith (engineRun 7 (startCommand 1#4 .cFreq idleAB)) (fun u => decide (u.status.err = false ∧ idleContainer.srcLen = u.dstLen ∧ u.dstLen ≤ 16#32 ∧
      u.dst = containerAB)) = true := by
  decide +kernel
theorem witness_MachineRoundTrip_error : 2 ≤ (idleAB.srcBytes idleAB.srcLen.toNat).dedup.length := by decide
theorem witness_MachineRoundTrip :
    ∃ t u, idleAB.Inv ∧ idleAB.busy = false ∧ exec .compress idleAB = .next t ∧ engineRun 7 t = .next u ∧ u.status.err = false ∧
      idleContainer.Inv ∧ idleContainer.busy = false ∧ idleContainer.params = idleAB.params ∧ (idleContainer.degen = false ∨ 2 ≤ (idleAB.srcBytes idleAB.srcLen.toNat).dedup.length) ∧
      idleContainer.srcLen = u.dstLen ∧ idleContainer.srcBytes idleContainer.srcLen.toNat = u.dstBytes u.dstLen.toNat ∧
      u.dstLen ≤ idleAB.params.srcMax ∧ idleAB.srcLen ≤ idleAB.params.dstMax := by
  obtain ⟨u, hu, h⟩ := endsWith_next compressAB_accepted_run
  obtain ⟨h1, h2, h3, h4⟩ := of_decide_eq_true h
  refine ⟨_, u, idleAB_inv.1, by decide, rfl, hu, h1, idleContainer_inv, by decide, by decide, .inl (by decide), h2, ?_, h3, by decide⟩
  rw [← h2]
  refine List.map_congr_left fun i hi => ?_
  have hi : i < 8 := List.mem_range.1 hi
  have hs : ∀ i < 8, (Memory.lookup containerAB i).isSome = true := by decide
  obtain ⟨b, hb⟩ := Option.isSome_iff_exists.1 (hs i hi)
  unfold State.srcRead State.dstRead
  rw [h4, show idleContainer.src = containerAB from rfl, hb]
  rfl

/-- A host about to load one byte, one about to copy an empty result, and one that waits. -/
def loadOne : State := { idleAB with host := scriptLoadSrc [0x5A#8] }
def copyNone : State := { idleAB with host := [.copyDstToSrc] }
def waiting : State := { busyAB with host := [.waitDone] }
def commandScripts : List State :=
  [{ idleAB with host := scriptCompress }, { idleAB with host := scriptDecompress }, { idleAB with host := scriptNop }]
theorem witness_HostScripts_commands : ∀ s ∈ commandScripts, s.engineTurn = false := by decide
theorem witness_HostScripts_load :
    Memory.wf loadOne.src ∧ loadOne.busy = false ∧ loadOne.host = scriptLoadSrc [0x5A#8] ++ [] ∧
    ([0x5A#8] : Bytes).length ≤ loadOne.params.srcMax.toNat := by decide
theorem witness_HostScripts_copy :
    Memory.wf copyNone.src ∧ copyNone.busy = false ∧ copyNone.unread = false ∧ copyNone.host = .copyDstToSrc :: [] ∧
    copyNone.dstLen ≤ copyNone.params.srcMax ∧ copyNone.dstLen ≤ copyNone.params.dstMax := by decide
theorem witness_HostScripts_wait : waiting.host = .waitDone :: [] ∧ waiting.engineTurn = false := by decide

end Sys2Proof.Tests
end

section
/-! The branches of the block's step, and the place of a command word in the host's script (00_scope.md R9, R20, R66). -/

namespace Sys2Proof.Machine

/-- R20: the engine's branch of `step`. -/
theorem step_of_engineTurn {s : State} (ht : s.engineTurn = true) : step s = engineStep s := by
  unfold step blockStep
  rw [if_pos ht]

/-- R20: the host's branch of `step`, whether or not a command runs. -/
theorem step_of_hostTurn {s : State} {a : HostItem} {rest : List HostItem} (hh : s.host = a :: rest)
    (ht : s.engineTurn = false) : step s = hostAccess a (s.takeItem rest) := by
  simp only [step, blockStep, ht, hh]
  rfl

theorem engineTurn_of_idle {s : State} (hb : s.busy = false) : s.engineTurn = false := by
  rw [State.engineTurn, hb, Bool.false_and]

/-- R20: with no command and no access the block waits. -/
theorem step_of_waits {s : State} (hh : s.host = []) (hb : s.busy = false) : step s = .next s := by
  simp only [step, blockStep, engineTurn_of_idle hb, hh]
  rfl

/-- R9, R66: a host write to CMD is the execution of the decoded word. -/
theorem hostAccess_wreg_regCmd (w : Word) (s : State) : hostAccess (.wreg regCmd w) s = exec (decode w) s := by
  rw [hostAccess, hostWriteReg, if_pos rfl, writeCmd]

/-- A command placed in the script comes before the engine's next step: while a command runs, `stall` is at least 1. -/
theorem withCommand_engineTurn (s : State) (w : Word) : (s.withCommand w).engineTurn = false := by
  cases hb : s.busy with
  | false => exact engineTurn_of_idle hb
  | true =>
    have hstall : max s.stall 1 ≠ 0 := by omega
    simp [State.engineTurn, State.withCommand, hb, hstall]

/-- R9, R66: on the host's turn a pending write to CMD runs its command. -/
theorem step_of_command {s : State} {w : Word} {rest : List HostItem} (hh : s.host = .wreg regCmd w :: rest)
    (ht : s.engineTurn = false) : step s = exec (decode w) (s.takeItem rest) := by
  rw [step_of_hostTurn hh ht, hostAccess_wreg_regCmd]

/-- Settles O27: each clause is one branch of `step`, and a word placed by `withFetchWord` is a pending write to CMD on the host's
turn. -/
theorem stepRunsCommand : Obligations.StepRunsCommand := by
  unfold Obligations.StepRunsCommand
  refine ⟨?command, ?access, ?engine, ?waits, ?placed⟩
  case command => exact fun _ _ _ hh ht => step_of_command hh ht
  case access => exact fun _ _ _ hh ht => step_of_hostTurn hh ht
  case engine => exact fun _ ht => step_of_engineTurn ht
  case waits => exact fun _ hh hb => step_of_waits hh hb
  case placed => exact fun s _ w => step_of_command rfl (withCommand_engineTurn s (BitVec.ofNat 32 w))

end Sys2Proof.Machine
end

section
/-! The invariants along every step, and the order of the phases (10_state.md R22, R25–R40; 43_container_codec.md R232, R233). -/

namespace Sys2Proof.Machine

/-- Settles O28: what a step can do is a `BlockMove`, the engine's, the host's or none, and each of them keeps both invariants. -/
theorem invariantKept : Obligations.InvariantKept := by
  unfold Obligations.InvariantKept
  intro s t hi hd hstep
  have hmove : BlockMove s t := blockMove_of hi hd hstep
  exact ⟨hmove.inv hi, hmove.dataInv hd⟩

/-- The engine step of a running command is one of the four moves. -/
theorem engineMove_of {s t : State} (hi : s.Inv) (hd : s.DataInv) (hb : s.phase ≠ .idle) (h : engineStep s = .next t) :
    EngineMove s t := by
  obtain ⟨u, hu, hmove⟩ := engineStep_move hi hd hb
  rw [hu] at h
  cases h
  exact hmove

/-- Settles O14: an idle block's engine does nothing; an undoubted command goes on to the next phase, or completes, as the last phase of
its order or with ERR set. -/
theorem enginePhaseOrder : Obligations.EnginePhaseOrder := by
  unfold Obligations.EnginePhaseOrder
  intro s t hi hd hta hstep
  by_cases hb : s.phase = .idle
  · rw [engineStep_idle hi hb] at hstep
    cases hstep
    left
    rw [hb]
    rfl
  · rcases (engineMove_of hi hd hb hstep).result hta with hgoes | ⟨-, hshows, -, -, hlast | herr⟩
    · exact .inl hgoes.phase
    · exact .inl (hshows.idle.trans hlast.symm)
    · exact .inr ⟨hshows.idle, herr⟩

end Sys2Proof.Machine
end

section
/-! The register port (10_state.md R23–R31): what each register reads as, and what a write of it does. -/

namespace Sys2Proof.Machine

@[simp] theorem regRead_cmd (s : State) : s.regRead 0 = 0#32 := rfl
@[simp] theorem regRead_status (s : State) : s.regRead 1 = statusWord s.busy s.status := rfl
@[simp] theorem regRead_errcode (s : State) : s.regRead 2 = s.errcode.setWidth 32 := rfl
@[simp] theorem regRead_srcLen (s : State) : s.regRead 3 = s.srcLen := rfl
@[simp] theorem regRead_dstLen (s : State) : s.regRead 4 = s.dstLen := rfl
@[simp] theorem regRead_hdr (s : State) : s.regRead 5 = s.hdr.setWidth 32 := rfl
@[simp] theorem regRead_cfg (s : State) : s.regRead 6 = (BitVec.ofBool s.degen).setWidth 32 := rfl

/-- R23: the reserved register numbers read as 0. -/
theorem regRead_reserved (s : State) {r : RegNum} (hr : 7 ≤ r) : s.regRead r = 0#32 := by
  have hne : r ≠ regStatus ∧ r ≠ regErrcode ∧ r ≠ regSrcLen ∧ r ≠ regDstLen ∧ r ≠ regHdr ∧ r ≠ regCfg := by
    revert r
    decide
  obtain ⟨h1, h2, h3, h4, h5, h6⟩ := hne
  simp only [State.regRead, if_neg h1, if_neg h2, if_neg h3, if_neg h4, if_neg h5, if_neg h6]

theorem setWidth_ofBool (b : Bool) : (BitVec.ofBool b).setWidth 32 = if b then 1#32 else 0#32 := by
  cases b <;> rfl

/-- R72: a register read that is not the DONE read clears nothing. -/
theorem hostReadReg_of_not_doneRead {r : RegNum} {s : State} (h : r ≠ 1 ∨ s.status.done = false) :
    hostReadReg r s = { s with rdata := s.regRead r } := by
  have hkeep : (s.unread && !(r == regStatus && s.status.done)) = s.unread := by
    rcases h with hr | hd
    · rw [show (r == regStatus) = false from beq_false_of_ne hr, Bool.false_and, Bool.not_false, Bool.and_true]
    · rw [hd, Bool.and_false, Bool.not_false, Bool.and_true]
  rw [hostReadReg, hkeep]

/-- R72, R73: the DONE read. -/
theorem hostReadReg_of_doneRead {s : State} (hd : s.status.done = true) :
    hostReadReg 1 s = { s with rdata := s.regRead 1, unread := false } := by
  rw [hostReadReg, hd, show ((1 : RegNum) == regStatus) = true from rfl, Bool.and_self, Bool.not_true, Bool.and_false]

/-- Settles O20: the two kinds of register read, the bits of STATUS, and the fields the other registers read as. -/
theorem registerReads : Obligations.RegisterReads := by
  unfold Obligations.RegisterReads
  intro s
  obtain ⟨hbusy, hdone, herr, hdrop⟩ := status_bits s.busy s.status
  refine ⟨fun r h => ?_, fun hd => ?_, rfl, ?_, hdone, herr, hdrop, status_high s.busy s.status, rfl, rfl, rfl, rfl,
    setWidth_ofBool s.degen, fun r hr => regRead_reserved s hr, hdone.symm⟩
  · rw [hostAccess, hostReadReg_of_not_doneRead h]
  · rw [hostAccess, hostReadReg_of_doneRead hd]
  · rw [regRead_status, hbusy, busy_eq_true]

/-- R23–R31: a register that is neither CMD, SRC_LEN nor CFG cannot be written. -/
theorem hostWriteReg_readOnly {r : RegNum} (h0 : r ≠ 0) (h3 : r ≠ 3) (h6 : r ≠ 6) (v : Word) (s : State) :
    hostWriteReg r v s = .next s := by
  rw [hostWriteReg, if_neg (show r ≠ regCmd from h0), State.regWrite, if_neg (show r ≠ regSrcLen from h3),
    if_neg (show r ≠ regCfg from h6)]

/-- Settles O21: the branches of the register write, and what SRC_LEN and CFG then read as. -/
theorem registerWrites : Obligations.RegisterWrites := by
  unfold Obligations.RegisterWrites
  intro s v
  refine ⟨⟨_, rfl, rfl, rfl⟩, ⟨_, rfl, rfl, ?cfg⟩, ?readOnly⟩
  case cfg => exact BitVec.and_one_eq_setWidth_ofBool_getLsbD.symm
  case readOnly => exact fun r h0 h3 h6 => hostWriteReg_readOnly h0 h3 h6 v s

theorem setWidth_errcode_eq_zero (c : BitVec 4) : c.setWidth 32 = 0#32 ↔ c = 0#4 := by
  revert c
  decide

/-- Settles O31: the bits of STATUS are BUSY and its stored flags, and the invariant says how these go with the result registers. -/
theorem statusRegisterInvariants : Obligations.StatusRegisterInvariants := by
  unfold Obligations.StatusRegisterInvariants
  intro s hi
  obtain ⟨hbusy, hdone, herr, -⟩ := status_bits s.busy s.status
  simp only [regRead_status, regRead_errcode, regRead_dstLen, regRead_hdr, hbusy, hdone, herr, ne_eq, setWidth_errcode_eq_zero]
  refine ⟨?busyDone, ?errDone, ?busyClear, hi.errCode, ?range, ?empty⟩
  case busyDone =>
    cases hb : s.busy with
    | false => rfl
    | true => rw [hi.busyNotDone hb, Bool.true_and]
  case errDone =>
    intro he
    by_contra hd
    obtain ⟨he', -⟩ := hi.notDone (Bool.eq_false_iff.2 hd)
    rw [he] at he'
    cases he'
  case busyClear =>
    intro hb
    obtain ⟨-, hcode, hlen, hhdr⟩ := hi.notDone (hi.busyNotDone hb)
    exact ⟨hcode, hlen, by rw [hhdr]; rfl⟩
  case range =>
    intro hf
    have hle := hi.codeRange hf
    rw [BitVec.toNat_setWidth_of_le (by decide)]
    exact hle
  case empty =>
    intro hf hc
    obtain ⟨hlen, hhdr⟩ := hi.errEmpty hf (hi.errCode.2 hc)
    exact ⟨hlen, by rw [hhdr]; rfl⟩

end Sys2Proof.Machine
end

section
/-! Commands given to an idle block (43_container_codec.md R234, R238). -/

namespace Sys2Proof.Machine

/-- R234: an idle block accepts every command but NOP. -/
theorem exec_of_idle {i : Instr} (hwf : i.wellFormed = true) (hop : i.op ≠ 0#4) {s : State} (hb : s.busy = false) :
    exec i s = .next (accept i.op (firstPhase i.op) s) := by
  rw [exec_eq i hwf s, if_neg hop, startCommand, if_neg (by rw [hb]; decide)]

theorem accept_phase (op : BitVec 4) (first : Phase) (s : State) : (accept op first s).phase = first := by
  rw [accept_frame]

theorem accept_tainted (op : BitVec 4) (first : Phase) (s : State) : (accept op first s).tainted = false := by
  rw [accept_frame]

theorem accept_busy (op : BitVec 4) (s : State) : (accept op (firstPhase op) s).busy = true := by
  rw [busy_eq_true, accept_phase]
  exact firstPhase_ne_idle op

theorem accept_status (op : BitVec 4) (first : Phase) (s : State) : (accept op first s).status = Status.accepted := by
  rw [accept_frame]

/-- R25, R234: BUSY alone. -/
theorem accept_regRead_status (op : BitVec 4) (s : State) : (accept op (firstPhase op) s).regRead 1 = 1#32 := by
  rw [regRead_status, accept_busy, accept_status]
  decide

/-- Settles O6: the block accepts the command, and acceptance changes what `accept_frame` says. -/
theorem everyCommandStarts : Obligations.EveryCommandStarts := by
  unfold Obligations.EveryCommandStarts
  intro i s hwf hnop hb
  have hop : i.op ≠ 0#4 := fun h => hnop ((op_eq_zero hwf).1 h)
  refine ⟨_, exec_of_idle hwf hop hb, accept_busy i.op s, accept_regRead_status i.op s, ?_, ?_, ?_, accept_frame _ _ s⟩
  all_goals
    rw [accept_frame]
    rfl

/-- R22, R238: a reserved opcode enters X_BAD. -/
theorem firstPhase_reserved {op : BitVec 4} (h : 3 ≤ op.toNat) : firstPhase op = .xBad := by
  revert op
  decide

/-- R22, R238: X_BAD's step comes at once: no host access is left before it. -/
theorem accept_xBad_engineTurn (op : BitVec 4) (s : State) : (accept op .xBad s).engineTurn = true := by
  refine engineTurn_of_stall ?_ rfl
  rw [busy_eq_true, accept_phase]
  decide

/-- R238, R277: phase X_BAD completes the command with BadCommand. -/
theorem engineStep_xBad {s : State} (hta : s.tainted = false) (hp : s.phase = .xBad) :
    engineStep s = .next (completeError .badCommand s) := by
  rw [engineStep, if_neg (by rw [hta]; decide), runPhase, hp]

/-- Settles O7: acceptance enters X_BAD with the engine's turn next, and that step is the completion with BadCommand. -/
theorem reservedOpcodeCompletes : Obligations.ReservedOpcodeCompletes := by
  unfold Obligations.ReservedOpcodeCompletes
  intro i s hwf hres hb
  have hop : i.op ≠ 0#4 := fun h => by rw [h] at hres; exact absurd hres (by decide)
  have hexec : exec i s = .next (accept i.op .xBad s) := by
    rw [exec_of_idle hwf hop hb, firstPhase_reserved hres]
  have hstep : step (accept i.op .xBad s) = .next (completeError .badCommand (accept i.op .xBad s)) := by
    rw [step_of_engineTurn (accept_xBad_engineTurn i.op s), engineStep_xBad (accept_tainted _ _ s) (accept_phase _ _ s)]
  exact ⟨_, _, hexec, hstep, rfl⟩

end Sys2Proof.Machine
end

section
/-! What the host's accesses leave alone while a command runs, and what a result rests on (10_state.md R33, R43; 20_memory.md R68;
70_reset_and_hazards.md R304, R306, R307). -/

namespace Sys2Proof.Machine

/-- Settles O15: of the four things a host access can do, a command write is dropped, a reset is shut out, a store of SRC puts the result
in doubt, and the rest concerns fields the command does not rest on. -/
theorem runningCommandUndisturbed : Obligations.RunningCommandUndisturbed := by
  unfold Obligations.RunningCommandUndisturbed
  intro a s t hb hrst hacc
  cases hostMove_of hacc with
  | starts w ha hop =>
    rw [startCommand, if_pos hb]
    exact ⟨rfl, rfl, rfl, rfl, rfl, rfl, rfl, rfl, rfl, rfl, rfl, rfl, fun _ => ⟨rfl, rfl⟩⟩
  | keeps _ hframe hunread hdraws hrst' =>
    rw [hframe]
    exact ⟨rfl, rfl, rfl, rfl, rfl, rfl, rfl, rfl, rfl, rfl, rfl, rfl, fun _ => ⟨rfl, rfl⟩⟩
  | stores i b ha hi =>
    refine ⟨rfl, rfl, rfl, rfl, rfl, rfl, rfl, rfl, rfl, rfl, rfl, rfl, fun hta => ?_⟩
    have hdoubt : (s.tainted || s.busy) = true := by rw [hb, Bool.or_true]
    exact absurd (hdoubt.symm.trans hta) (by decide)
  | resets ha => exact absurd ha hrst

/-- R43: the input is the bytes below the latched length, whatever the rest of SRC holds. -/
theorem input_congr_below {s t : State} (hl : t.latch = s.latch)
    (h : ∀ i, i < s.latch.srcLen.toNat → t.srcRead i = s.srcRead i) : t.input = s.input := by
  rw [State.input, State.input, hl, State.srcBytes, State.srcBytes]
  exact List.map_congr_left fun i hi => h i (List.mem_range.1 hi)

/-- R272: the length is COMPRESS's first check. -/
theorem compressBytes_too_long {src : Bytes} {srcMax : Nat} (h : srcMax < src.length) (degen : Bool) (dstMax : Nat) :
    compressBytes src degen srcMax dstMax = .error .sourceUnreadable := by
  rw [compressBytes, if_pos h]

/-- R272: the length is DECOMPRESS's first check. -/
theorem decompressBytes_too_long {src : Bytes} {srcMax : Nat} (h : srcMax < src.length) (degen : Bool) (dstMax : Nat) :
    decompressBytes src degen srcMax dstMax = .error .sourceUnreadable := by
  rw [decompressBytes, if_pos h]

/-- Settles O57: the result is a function of the input, the latch and the capacities, whose first check is that of the length. -/
theorem resultRestsOnInputAlone : Obligations.ResultRestsOnInputAlone := by
  unfold Obligations.ResultRestsOnInputAlone
  refine ⟨fun s t hl hp hsrc => ?_, fun s hop hlong => ?_⟩
  · rw [State.commandResult, State.commandResult, input_congr_below hl hsrc, hl, hp]
  · have hlen : s.params.srcMax.toNat < s.input.length := by
      rw [input_length]
      exact BitVec.lt_def.1 hlong
    rcases hop with hop | hop
    · rw [commandResult_compress hop, compressBytes_too_long hlen]
    · rw [commandResult_decompress hop, decompressBytes_too_long hlen]

end Sys2Proof.Machine
end

section
/-! The host's ports of SRC and DST (10_state.md R39, R40; 20_memory.md R70, R72, R73). -/

namespace Sys2Proof.Machine

/-- R39: a stored byte is read back, and every other byte is as it was. -/
theorem srcRead_store {s t : State} (hwf : Memory.wf s.src) {i : Nat} {b : Byte} (ht : t.src = Memory.store s.src i b) (j : Nat) :
    t.srcRead j = if j = i then b else s.srcRead j := by
  rw [State.srcRead, ht, Memory.lookup_store hwf]
  split <;> rfl

/-- R39: a host write of SRC on an idle block only stores its byte. -/
theorem hostWriteSrc_of_idle {i : Nat} {s : State} (hi : i < s.params.srcMax.toNat) (hb : s.busy = false) (b : Byte) :
    hostWriteSrc i b s = { s with src := Memory.store s.src i b } := by
  rw [hostWriteSrc, if_pos hi, hb, Bool.or_false, Bool.or_false]

/-- Settles O22: the branches of the two accesses, and what SRC reads as after a store. -/
theorem sourcePort : Obligations.SourcePort := by
  unfold Obligations.SourcePort
  intro s i hwf
  refine ⟨fun hi => ?readIn, fun hi => ?readOut, fun b hi => ?writeOut, fun b hi hb => ?writeIn⟩
  case readIn => rw [hostAccess, hostReadSrc, if_pos hi]
  case readOut => rw [hostAccess, hostReadSrc, if_neg (Nat.not_lt.2 hi)]
  case writeOut => rw [hostAccess, hostWriteSrc, if_neg (Nat.not_lt.2 hi)]
  case writeIn =>
    refine ⟨_, by rw [hostAccess, hostWriteSrc_of_idle hi hb], rfl, ?_, fun j hj => ?_⟩
    · rw [srcRead_store hwf rfl, if_pos rfl]
    · rw [srcRead_store hwf rfl, if_neg hj]

/-! ### The DONE read -/

/-- R72: acceptance makes a DONE read owed, and a dropped command leaves one owed. -/
theorem startCommand_unread {s : State} (hu : s.unread = true) (op : BitVec 4) (first : Phase) :
    (startCommand op first s).unread = true := by
  rw [startCommand]
  split
  · exact hu
  · rw [accept_frame]

theorem regWrite_unread (r : RegNum) (v : Word) (s : State) : (s.regWrite r v).unread = s.unread := by
  rw [State.regWrite]
  repeat' split
  all_goals rfl

theorem hostWriteReg_unread {r : RegNum} {v : Word} {s t : State} (hu : s.unread = true) (h : hostWriteReg r v s = .next t) :
    t.unread = true := by
  rw [hostWriteReg] at h
  split at h
  · rw [writeCmd, exec_eq _ (decode_wellFormed v)] at h
    cases h
    split
    · exact hu
    · exact startCommand_unread hu _ _
  · cases h
    rw [regWrite_unread, hu]

theorem hostWriteSrc_unread (i : Nat) (b : Byte) (s : State) : (hostWriteSrc i b s).unread = s.unread := by
  rw [hostWriteSrc]
  split <;> rfl

theorem hostReadDst_unread (i : Nat) (s : State) : (hostReadDst i s).unread = s.unread := by
  rw [hostReadDst_frame]

/-- R73: a reset is no synchronisation point. -/
theorem resetSignal_unread (s : State) : (resetSignal s).unread = s.unread := by
  rw [resetSignal]
  split <;> rfl

theorem hostWaitDone_unread (s : State) : (hostWaitDone s).unread = (hostReadReg regStatus s).unread := by
  rw [hostWaitDone]
  split <;> rfl

/-- R72: a register read that ends the time is a read of STATUS with DONE = 1. -/
theorem doneRead_of_hostReadReg {r : RegNum} {s : State} (hu : s.unread = true) (h : (hostReadReg r s).unread = false) :
    r = 1 ∧ s.status.done = true := by
  by_contra hnot
  have hkeep : r ≠ 1 ∨ s.status.done = false := by
    rwa [not_and_or, Bool.not_eq_true] at hnot
  rw [hostReadReg_of_not_doneRead hkeep, hu] at h
  cases h

/-- R72, R73: of the host's accesses only a read of STATUS with DONE = 1 ends the time in which a DONE read is owed. -/
theorem doneRead_of_hostAccess {a : HostItem} {s t : State} (hacc : hostAccess a s = .next t) (hu : s.unread = true)
    (ht : t.unread = false) : s.status.done = true ∧ (a = .rreg 1 ∨ a = .waitDone) := by
  have hstays : t.unread ≠ true := by rw [ht]; decide
  cases a with
  | wreg r v => exact absurd (hostWriteReg_unread hu hacc) hstays
  | rreg r =>
    cases hacc
    obtain ⟨rfl, hd⟩ := doneRead_of_hostReadReg hu ht
    exact ⟨hd, .inl rfl⟩
  | wsrc i b =>
    cases hacc
    exact absurd ((hostWriteSrc_unread i b s).trans hu) hstays
  | rsrc i =>
    cases hacc
    exact absurd hu hstays
  | rdst i =>
    cases hacc
    exact absurd ((hostReadDst_unread i s).trans hu) hstays
  | wdst i b =>
    cases hacc
    exact absurd hu hstays
  | rst =>
    cases hacc
    exact absurd ((resetSignal_unread s).trans hu) hstays
  | waitDone =>
    cases hacc
    rw [hostWaitDone_unread] at ht
    exact ⟨(doneRead_of_hostReadReg hu ht).2, .inr rfl⟩
  | copyDstToSrc =>
    cases hacc
    obtain ⟨hr, -⟩ := doneRead_of_hostReadReg (r := regDstLen) hu ht
    exact absurd hr (by decide)
  | copyByte i =>
    cases hacc
    exact absurd ((hostReadDst_unread i s).trans hu) hstays

/-- R72: the engine leaves the DONE read owed. -/
theorem EngineMove.unread {s t : State} (hm : EngineMove s t) : t.unread = s.unread := by
  cases hm with
  | inDoubt => rfl
  | goes u ht hphase hbusy hframe => rw [drawStall_unread, hframe]
  | finishes u n out h ht hnext hresult hn hframe => rw [completeOk_unread, hframe]
  | fails e => unfold completeError; split <;> rfl

/-- R40, R70: beyond the capacity DST reads as 0. -/
theorem hostReadDst_beyond {s : State} {i : Nat} (hi : s.params.dstMax.toNat ≤ i) : hostReadDst i s = { s with rdata := 0#32 } := by
  rw [hostReadDst, if_neg (Nat.not_lt.2 hi)]

/-- R72, R307: until the DONE read a read of DST takes a free value. -/
theorem hostReadDst_owed {s : State} {i : Nat} (hi : i < s.params.dstMax.toNat) (h : s.busy = true ∨ s.unread = true) :
    hostReadDst i s = { s with rdata := (Config.freeBusyRead s.draws).setWidth 32, draws := s.draws + 1 } := by
  rw [hostReadDst, if_pos hi, if_pos (Bool.or_eq_true_iff.2 h)]

/-- Settles O23: the branches of the read, and of the moves of a step only a read of STATUS with DONE = 1 ends the time in which the DONE
read is owed. -/
theorem sinkPort : Obligations.SinkPort := by
  unfold Obligations.SinkPort
  refine ⟨fun s i => ⟨fun hi => ?beyond, fun hi hb hu => ?synced, fun hi h => ?owed, fun _ => rfl⟩, ?doneRead⟩
  case beyond => rw [hostAccess, hostReadDst_beyond hi]
  case synced => rw [hostAccess, hostReadDst_idle hi hb hu]
  case owed => rw [hostAccess, hostReadDst_owed hi h]
  case doneRead =>
    intro s t hi hd hstep hu ht
    have hstays : t.unread ≠ true := by rw [ht]; decide
    cases blockMove_of hi hd hstep with
    | engine _ hturn hm => exact absurd (hm.unread.trans hu) hstays
    | host a rest _ hturn hhost hm =>
      rw [step_of_hostTurn hhost hturn] at hstep
      obtain ⟨hdone, ha⟩ := doneRead_of_hostAccess hstep hu ht
      refine ⟨hturn, hdone, rest, ?_⟩
      rw [hhost]
      rcases ha with rfl | rfl
      · exact .inl rfl
      · exact .inr rfl
    | waits hturn hhost hidle => exact absurd hu hstays

end Sys2Proof.Machine
end

section
/-! The capacities of the decompress path (10_state.md R38; 41_tree_serializer.md R173–R176). -/

namespace Sys2Proof.Machine

/-- R98, R174: an accepted field with a tree is the stream of that tree. -/
theorem treeStream_of_deserializeTree {field : Bytes} {t : HuffTree} (h : deserializeTree field = some (some t)) :
    TreeStream field t := by
  rw [deserializeTree] at h
  split at h
  · cases h
  · generalize hread : deserNode field.length field = r at h
    match r, h with
    | some (u, []), h =>
      cases h
      obtain ⟨pre, hpre, hstream⟩ := stream_of_deserNode _ _ _ _ hread
      rw [List.append_nil] at hpre
      rwa [hpre]

/-- R175: each node takes at least one byte of its stream. -/
theorem TreeStream.nodes_le {field : Bytes} {t : HuffTree} (h : TreeStream field t) :
    t.internals + t.values.length ≤ field.length := by
  induction h with
  | node _ _ ihl ihr =>
    simp only [HuffTree.internals, HuffTree.values, List.length_cons, List.length_append]
    omega
  | escaped b => exact Nat.le_succ 1
  | plain b hm he => exact Nat.le_refl 1

/-- R176: a parsed tree has no frequencies. -/
theorem TreeStream.eq_unweighted {field : Bytes} {t : HuffTree} (h : TreeStream field t) : t = t.unweighted := by
  induction h with
  | node _ _ ihl ihr => rw [HuffTree.unweighted, ← ihl, ← ihr]
  | escaped b => rfl
  | plain b hm he => rfl

/-- R38: a complete subtree never makes the stack longer. -/
theorem attach_stack_le (t : HuffTree) (stack : List (Option HuffTree)) : (attach t stack).2.length ≤ stack.length := by
  induction stack generalizing t with
  | nil => exact Nat.le_refl 0
  | cons top stack ih =>
    cases top with
    | none => exact Nat.le_refl _
    | some l => exact Nat.le_succ_of_le (ih _)

/-- R173: taking a byte of the tree field leaves the stack. -/
theorem treeByte_stack {s t : State} {b : Byte} (h : treeByte s = .ok (b, t)) : t.eng.stack = s.eng.stack := by
  rw [treeByte] at h
  split at h
  · cases h
  · cases h
    rfl

theorem deserLeaf_stack_le (v : Byte) (s : State) : (deserLeaf v s).eng.stack.length ≤ s.eng.stack.length :=
  attach_stack_le _ _

/-- R38: a marker is taken only where the stack has room for it. -/
theorem deserMark_stack_le {s t : State} (h : deserMark s = .ok t) : t.eng.stack.length ≤ decStack := by
  rw [deserMark] at h
  split at h
  · rename_i hroom
    cases h
    exact hroom
  · cases h

/-- R38: reading a head keeps the stack inside its capacity. -/
theorem deserHead_stack_le {s t : State} (hs : s.eng.stack.length ≤ decStack) (h : deserHead s = .ok t) :
    t.eng.stack.length ≤ decStack := by
  rw [deserHead, bind_eq_ok] at h
  obtain ⟨⟨b, s1⟩, hb, h⟩ := h
  have hs1 : s1.eng.stack.length ≤ decStack := by rwa [treeByte_stack hb]
  dsimp only at h
  split at h
  · rw [bind_eq_ok] at h
    obtain ⟨⟨v, s2⟩, hv, h⟩ := h
    cases h
    have hs2 : s2.eng.stack.length ≤ decStack := by rwa [treeByte_stack hv]
    exact (deserLeaf_stack_le v s2).trans hs2
  · split at h
    · exact deserMark_stack_le h
    · cases h
      exact (deserLeaf_stack_le b s1).trans hs1

/-- R38, R173: a marker read with the stack full is CorruptTree, and so is the want of budget for it. -/
theorem deserHead_mark_full {s : State} (hfull : s.eng.stack.length = decStack) (hmark : srcAtRdPtr s = mark) :
    deserHead s = .error (.raise .corruptTree) := by
  rw [deserHead, treeByte]
  split
  · rfl
  · rw [hmark, bind_ok]
    dsimp only
    rw [if_neg (by decide), if_pos rfl, deserMark, if_neg (by rw [hfull]; exact Nat.lt_irrefl _)]

/-- Settles O44: a parsed tree's stream has a byte for each node; reading a head keeps the stack's bound; and the descent reads what
DeserializeTree gives. -/
theorem parsedTreeBounds : Obligations.ParsedTreeBounds := by
  unfold Obligations.ParsedTreeBounds
  refine ⟨fun field t hlen hparse => ?bounds, fun s t => deserHead_stack_le, fun s => deserHead_mark_full, fun s hbud hrd => ?descent⟩
  case bounds =>
    have hstream := treeStream_of_deserializeTree hparse
    have hnodes := hstream.nodes_le
    have hvals := t.values_length
    have hheight := t.height_le_internals
    exact ⟨hnodes, by omega, by omega, by omega, by omega, hstream.eq_unweighted⟩
  case descent =>
    have hread := readTree_eq s hbud hrd
    refine ⟨fun hnone => ?_, fun root hsome => ?_⟩
    · rw [State.srcFrom, hnone] at hread
      exact hread
    · rw [State.srcFrom, hsome] at hread
      obtain ⟨rd, budget, hok⟩ := hread
      exact ⟨_, hok, rfl, rfl⟩

end Sys2Proof.Machine
end

section
/-! The engine's write of a sink byte, and the order of a payload's bits (20_memory.md R61, R64, R69). -/

namespace Sys2Proof.Machine

/-- R64, R69: a stored byte is read back, and every other byte of the same draw is as it was. -/
theorem dstRead_store {s : State} (hwf : Memory.wf s.dst) (i : Nat) (v : Byte) (j : Nat) :
    State.dstRead { s with dst := Memory.store s.dst i v } j = if j = i then v else s.dstRead j := by
  rw [State.dstRead, Memory.lookup_store hwf]
  split <;> rfl

/-- R69: below the capacity the write only stores its byte. -/
theorem dstWrite_of_lt {s : State} {i : Nat} (hi : i < s.params.dstMax.toNat) (v : Byte) :
    dstWrite i v s = .ok { s with dst := Memory.store s.dst i v } := by
  rw [dstWrite, if_pos hi]

theorem dstWrite_beyond {s : State} {i : Nat} (hi : s.params.dstMax.toNat ≤ i) (v : Byte) :
    dstWrite i v s = .error (.raise .sinkUnwritable) := by
  rw [dstWrite, if_neg (Nat.not_lt.2 hi)]

/-- Settles O24: the two branches of DstWrite, and what DST reads as after a store. -/
theorem engineSinkWrite : Obligations.EngineSinkWrite := by
  unfold Obligations.EngineSinkWrite
  intro s i v hwf
  refine ⟨fun hi => ⟨_, dstWrite_of_lt hi v, rfl, Memory.store_wf hwf i v, ?same, fun j hj => ?other⟩, fun hi => dstWrite_beyond hi v⟩
  case same => rw [dstRead_store hwf, if_pos rfl]
  case other => rw [dstRead_store hwf, if_neg hj]

/-- Settles O45: bit k of a payload is stream bit k mod 8 of its byte k div 8, and stream bit j of a byte is its bit 7 − j. -/
theorem payloadBitOrder : Obligations.PayloadBitOrder := by
  unfold Obligations.PayloadBitOrder
  intro payload k hk
  rw [payloadBits_getElem payload k hk, streamBit]

end Sys2Proof.Machine
end

section
/-! The pseudo-instructions (30_encoding.md R104): each runs as accesses of the host's script on an idle block. -/

namespace Sys2Proof.Machine

/-! ### SRC after a row of writes -/

theorem Stored.srcRead_of_mem {s t : State} {l : List Nat} {f : Nat → Byte} (h : Stored s t l f) {j : Nat} (hj : j ∈ l) :
    t.srcRead j = f j := by
  rw [State.srcRead, h.lookup, if_pos hj, Option.getD_some]

theorem Stored.srcRead_of_notMem {s t : State} {l : List Nat} {f : Nat → Byte} (h : Stored s t l f) {j : Nat} (hj : j ∉ l) :
    t.srcRead j = s.srcRead j := by
  rw [State.srcRead, h.lookup, if_neg hj, State.srcRead]

/-- What `load_src` and `copy_dst_to_src` have in common: the bytes `f 0` to `f (n - 1)` are put into SRC and a length into SRC_LEN, with
the host's script at `rest` afterwards. -/
structure SourceLoaded (s t : State) (n : Nat) (f : Nat → Byte) (len : Word) (rest : List HostItem) : Prop where
  host : t.host = rest
  bytes : t.srcBytes n = (List.range n).map f
  others : ∀ i, n ≤ i → t.srcRead i = s.srcRead i
  srcLen : t.srcLen = len
  idle : t.busy = false
  status : t.status = s.status
  dst : t.dst = s.dst
  fault : t.fault = s.fault

/-- R104: both pseudo-instructions end with the write of SRC_LEN. -/
theorem run_srcLen_loaded {s u : State} {k n : Nat} {f : Nat → Byte} {len : Word} {rest : List HostItem} (hb : s.busy = false)
    (hrun : Host.Core.run core k s = .next u) (hhost : u.host = .wreg regSrcLen len :: rest)
    (hstored : Stored s u (List.range n) f) :
    ∃ t, Host.Core.run core (k + 1) s = .next t ∧ SourceLoaded s t n f len rest := by
  have hub : u.busy = false := by
    rw [hstored.frame]
    exact hb
  refine ⟨_, (run_add k 1 hrun).trans (run_srcLen len rest hub hhost), {
    host := rfl
    bytes := List.map_congr_left fun i hi => hstored.srcRead_of_mem hi
    others := fun i hi => hstored.srcRead_of_notMem fun hmem => Nat.not_lt.2 hi (List.mem_range.1 hmem)
    srcLen := rfl
    idle := hub
    status := ?_
    dst := ?_
    fault := ?_ }⟩
  all_goals rw [hstored.frame]

/-! ### load_src -/

theorem map_range_getD (bytes : Bytes) : (List.range bytes.length).map (fun i => bytes.getD i 0#8) = bytes := by
  refine List.ext_getElem (by simp) fun i h1 h2 => ?_
  simp [h2]

/-- R104: `load_src` on an idle block. -/
theorem run_loadSrc {s : State} {bytes : Bytes} {rest : List HostItem} (hwf : Memory.wf s.src) (hb : s.busy = false)
    (hhost : s.host = scriptLoadSrc bytes ++ rest) (hfit : bytes.length ≤ s.params.srcMax.toNat) :
    ∃ t, Host.Core.run core (bytes.length + 1) s = .next t ∧
      SourceLoaded s t bytes.length (fun i => bytes.getD i 0#8) (BitVec.ofNat 32 bytes.length) rest := by
  have hbelow : ∀ i ∈ List.range bytes.length, i < s.params.srcMax.toNat := fun i hi => (List.mem_range.1 hi).trans_le hfit
  rw [scriptLoadSrc, List.append_assoc] at hhost
  obtain ⟨u, hrun, huhost, hstored⟩ := run_wsrc _ _ _ s hb hwf hbelow hhost
  rw [List.length_range] at hrun
  exact run_srcLen_loaded hb hrun huhost hstored

/-! ### copy_dst_to_src -/

/-- The block after the first access of `copy_dst_to_src`: DST_LEN has been read as n, and n copies and a write of n to SRC_LEN stand in
the script. -/
def State.copyStarted (s : State) (rest : List HostItem) : State :=
  { s with
    host := (List.range s.dstLen.toNat).map .copyByte ++ .wreg regSrcLen s.dstLen :: rest
    stall := s.stall - 1
    rdata := s.dstLen }

theorem step_copyDstToSrc {s : State} {rest : List HostItem} (hb : s.busy = false) (hhost : s.host = .copyDstToSrc :: rest) :
    step s = .next (s.copyStarted rest) := by
  rw [step_host hb hhost, hostAccess, hostCopy, hostReadReg_of_not_doneRead (.inl (by decide)), State.hostFirst, List.append_assoc]
  rfl

/-- R104, R72: `copy_dst_to_src` on an idle block whose DONE read is not owed. -/
theorem run_copyDstToSrc {s : State} {rest : List HostItem} (hwf : Memory.wf s.src) (hb : s.busy = false) (hu : s.unread = false)
    (hhost : s.host = .copyDstToSrc :: rest) (hsrc : s.dstLen ≤ s.params.srcMax) (hdst : s.dstLen ≤ s.params.dstMax) :
    ∃ t, Host.Core.run core (2 * s.dstLen.toNat + 2) s = .next t ∧ SourceLoaded s t s.dstLen.toNat s.dstRead s.dstLen rest := by
  have hbelow : ∀ {cap : Word}, s.dstLen ≤ cap → ∀ i ∈ List.range s.dstLen.toNat, i < cap.toNat :=
    fun hcap i hi => (List.mem_range.1 hi).trans_le (BitVec.le_def.1 hcap)
  obtain ⟨u, hrun, huhost, hstored⟩ :=
    run_copy _ s (List.range s.dstLen.toNat) (s.copyStarted rest) hb hu hwf (hbelow hsrc) (hbelow hdst) rfl rfl rfl
  rw [List.length_range, ← run_succ _ (step_copyDstToSrc hb hhost)] at hrun
  have hstored : Stored s u (List.range s.dstLen.toNat) s.dstRead := ⟨hstored.frame, hstored.wf, hstored.lookup⟩
  exact run_srcLen_loaded hb hrun huhost hstored

/-! ### wait_done -/

/-- R25, R104: `wait_done` reads STATUS, and stays in the script while DONE = 0. -/
theorem hostWaitDone_eq (s : State) :
    hostWaitDone s = { s with
      host := if s.status.done then s.host else .waitDone :: s.host
      unread := s.unread && !s.status.done
      rdata := s.regRead 1 } := by
  obtain ⟨-, hdone, -, -⟩ := status_bits s.busy s.status
  have hbit : (hostReadReg regStatus s).rdata.getLsbD 1 = s.status.done := hdone
  rw [hostWaitDone, hbit]
  split <;> rfl

/-- Settles O59: the command words decode to their commands on the host's turn, and the other clauses are the runs of `load_src`, of
`copy_dst_to_src` and of one reading of STATUS. -/
theorem hostScripts : Obligations.HostScripts := by
  unfold Obligations.HostScripts
  refine ⟨?commands, ?load, ?copy, ?wait⟩
  case commands =>
    exact fun s rest ht => ⟨fun hh => step_of_command hh ht, fun hh => step_of_command hh ht, fun hh => step_of_command hh ht⟩
  case load =>
    intro s bytes rest hwf hb hhost hfit
    obtain ⟨t, hrun, ht⟩ := run_loadSrc hwf hb hhost hfit
    have hlen : bytes.length < 2 ^ 32 := hfit.trans_lt s.params.srcMax.isLt
    refine ⟨t, hrun, ht.host, ht.bytes.trans (map_range_getD bytes), ht.others, ?_, ht.idle, ht.status, ht.dst, ht.fault⟩
    rw [ht.srcLen, BitVec.toNat_ofNat, Nat.mod_eq_of_lt hlen]
  case copy =>
    intro s rest hwf hb hu hhost hsrc hdst
    obtain ⟨t, hrun, ht⟩ := run_copyDstToSrc hwf hb hu hhost hsrc hdst
    exact ⟨t, hrun, ht.host, ht.bytes, ht.others, ht.srcLen, ht.idle, ht.status, ht.dst, ht.fault⟩
  case wait =>
    intro s rest hhost ht
    rw [step_of_hostTurn hhost ht, hostAccess, hostWaitDone_eq]
    rfl

end Sys2Proof.Machine
end

section
/-! The command words (30_encoding.md R90–R92): decoding against encoding, and against the rows of spec/opcode_table.json. -/

namespace Sys2Proof

/-- R90, R91: a well-formed command comes back from its encoding, whatever the ignored bits. -/
theorem decode_encodeWith {i : Instr} (h : i.wellFormed = true) (ignored : BitVec 28) : decode (encodeWith ignored i) = i := by
  rw [decode, opField_encodeWith, decodeOp_of_op i h]

/-- R90: the encoding of a word's command is the word with other bits 31:4. -/
theorem encodeWith_decode (w : Word) (ignored : BitVec 28) : encodeWith ignored (decode w) = ignored ++ opField w := by
  rw [encodeWith, decode_op]

/-- Settles O3: a command is known by its opcode and a word is its ignored bits and its opcode; other ignored bits make the word another
encoding of the same command. -/
theorem decodeEncodeRoundTrip : Obligations.DecodeEncodeRoundTrip := by
  unfold Obligations.DecodeEncodeRoundTrip
  refine ⟨fun i ignored h => decode_encodeWith h ignored, fun w => ⟨decode_wellFormed w, ?same⟩, fun w ignored => ?ignored⟩
  case same => rw [encodeWith_decode, word_split]
  case ignored =>
    have h := decode_encodeWith (decode_wellFormed w) ignored
    rwa [encodeWith_decode] at h

/-- R90: a mask without bits 31:4 sees only the OP field of a word. -/
theorem and_mask_eq_opField (w : Word) {mask : Word} (h : mask.extractLsb' 4 28 = 0#28) :
    w &&& mask = 0#28 ++ (opField w &&& opField mask) := by
  conv_lhs => rw [← word_split w, ← word_split mask, h]
  rw [BitVec.and_append, BitVec.and_zero]

/-- R90: no row of the table looks at bits 31:4. -/
theorem opcodeTable_mask_high : ∀ row ∈ opcodeTable, row.mask.extractLsb' 4 28 = 0#28 := by
  decide

/-- R91: of the sixteen opcodes, a row's mask and pattern pick out those that decode to the row's command. -/
theorem opcodeTable_op_iff : ∀ row ∈ opcodeTable, ∀ op : BitVec 4,
    (0#28 ++ (op &&& opField row.mask) : Word) = row.pattern ↔ (decodeOp op).mnemonic = row.mnemonic := by
  decide

/-- Settles O2: a row's mask sees only the OP field, and for each of the sixteen opcodes the row and the decoder agree. -/
theorem decoderAgreesWithOpcodeTable : Obligations.DecoderAgreesWithOpcodeTable := by
  unfold Obligations.DecoderAgreesWithOpcodeTable
  intro w row hrow
  rw [and_mask_eq_opField w (opcodeTable_mask_high row hrow), decode]
  exact opcodeTable_op_iff row hrow (opField w)

/-- Settles O1: the decoder, run on the twelve words. -/
theorem tableRowWordsDecode : Obligations.TableRowWordsDecode := by
  unfold Obligations.TableRowWordsDecode
  decide

end Sys2Proof
end

section
/-! The length of a tree stream (30_encoding.md R98, R100). -/

namespace Sys2Proof.Machine

/-- Settles O42: the serializer writes one byte for each node and one more for each escaped leaf, and the grammar spends at least one byte
on each node. -/
theorem treeStreamLength : Obligations.TreeStreamLength := by
  unfold Obligations.TreeStreamLength
  exact ⟨serTree_length, fun _ _ hstream => TreeStream.nodes_le hstream⟩

end Sys2Proof.Machine
end

section
/-! Steps that end in a next state, and the frequency pass (10_state.md R22; 40_tree_builder.md R130). -/

namespace Sys2Proof.Machine

/-- Settles O30: from a state with the invariants the block's step is one of its moves. -/
theorem stepNeverStops : Obligations.StepNeverStops := by
  unfold Obligations.StepNeverStops
  intro s hi hd
  obtain ⟨t, hstep, -⟩ := step_move hi hd
  exact ⟨t, hstep⟩

/-- R22, R308: a phase that ends well and leaves the block busy goes on after a fresh number of host accesses. -/
theorem engineStep_of_runPhase_ok {s t : State} (hta : s.tainted = false) (hrun : runPhase s = .ok t) (hbusy : t.busy = true) :
    engineStep s = .next t.drawStall := by
  rw [engineStep, if_neg (by rw [hta]; decide), hrun]
  exact congrArg _ (if_pos hbusy)

/-- R130, R236: the phase C_FREQ on a length inside SRC. -/
theorem phaseCFreq_ok {s : State} (hle : s.latch.srcLen ≤ s.params.srcMax) :
    phaseCFreq s = .ok ({ s with eng := { s.eng with freq := freqCount s.input, rdPtr := 0#32 } }.enter .cBuild) := by
  have hcount := countLoop_eq s.latch.srcLen.toNat { s with eng := { s.eng with freq := freqZero, rdPtr := 0#32 } }
    (by simp only [BitVec.toNat_ofNat, Nat.zero_mod, Nat.zero_add, BitVec.isLt])
  have hinput : (s.srcFrom 0 s.latch.srcLen.toNat).foldl freqBump freqZero = freqCount s.input := by
    rw [srcFrom_zero]
    rfl
  rw [phaseCFreq, check_pos hle, bind_ok, hcount, ← hinput]
  rfl

/-- Settles O32: the counters are the counts of the byte values, and the phase C_FREQ counts the input. -/
theorem frequencyTable : Obligations.FrequencyTable := by
  unfold Obligations.FrequencyTable
  refine ⟨fun src hl => ⟨freqCount_length src, freqCount_toNat hl, freqCount_sum hl⟩, fun s _ hta hp hle => ?phase⟩
  case phase =>
    have hrun : runPhase s = phaseCFreq s := by rw [runPhase, hp]
    rw [phaseCFreq_ok hle] at hrun
    exact ⟨_, engineStep_of_runPhase_ok hta hrun rfl, rfl, rfl, rfl⟩

end Sys2Proof.Machine
end

section
/-! The priority queue and its fill (40_tree_builder.md R131–R133). -/

namespace Sys2Proof.Machine

/-- R131: the new node stands behind the leading entries of smaller frequency. -/
theorem pqInsert_eq_takeWhile (q : List HuffTree) (n : HuffTree) :
    pqInsert q n = q.takeWhile (fun t => decide (t.freq < n.freq)) ++ n :: q.dropWhile (fun t => decide (t.freq < n.freq)) := by
  induction q with
  | nil => rfl
  | cons t q ih =>
    rw [pqInsert]
    split
    next hle =>
      have hnot : ¬ t.freq < n.freq := BitVec.not_lt.2 hle
      simp [hnot]
    next hgt =>
      have hlt : t.freq < n.freq := BitVec.not_le.1 hgt
      simp [hlt, ih]

/-- R132, R134: TreeBuild has an answer on every queue. -/
theorem treeBuild_ne_none (q : List HuffTree) : treeBuild q ≠ none := by
  obtain ⟨q', hq', -⟩ := treeBuild_total q
  rw [hq']
  exact Option.some_ne_none q'

/-- Settles O33: the place of the insertion, the order it keeps, and entry 0 as the least of a queue in order. -/
theorem queueOrder : Obligations.QueueOrder := by
  unfold Obligations.QueueOrder
  refine ⟨pqInsert_eq_takeWhile, fun q n hq => pqInsert_sorted hq n, fun _ _ => rfl, fun q n hq => ?least, rfl, treeBuild_ne_none⟩
  case least =>
    obtain ⟨hleast, hrest⟩ := List.pairwise_cons.1 hq
    exact ⟨hrest, hleast⟩

/-- R133: the entries of the fill. -/
theorem mem_pqFill (freq : List Word) (t : HuffTree) :
    t ∈ pqFill freq ↔ ∃ v : Byte, freq.getD v.toNat 0#32 ≠ 0#32 ∧ t = .leaf v (freq.getD v.toNat 0#32) := by
  rw [(pqFill_perm freq).mem_iff, fillLeaves]
  simp only [List.mem_map, List.mem_filter, List.mem_range, decide_eq_true_eq]
  constructor
  · rintro ⟨v, ⟨hv, hpos⟩, rfl⟩
    have hval : (BitVec.ofNat 8 v).toNat = v := by rw [BitVec.toNat_ofNat, Nat.mod_eq_of_lt hv]
    exact ⟨BitVec.ofNat 8 v, by rwa [hval], by rw [hval]⟩
  · rintro ⟨v, hpos, rfl⟩
    exact ⟨v.toNat, ⟨v.isLt, hpos⟩, by rw [BitVec.ofNat_toNat, BitVec.setWidth_eq]⟩

/-- Settles O34: the fill's entries are the leaves of the positive counters, and each insertion keeps `fillOrder`. -/
theorem queueFill : Obligations.QueueFill := by
  unfold Obligations.QueueFill
  exact fun freq _ => ⟨mem_pqFill freq, pqFill_order freq⟩

end Sys2Proof.Machine
end

section
/-! The tree builder (40_tree_builder.md R134–R136, R140). -/

namespace Sys2Proof.Machine

/-- R134: from a queue with an entry TreeBuild leaves one tree. -/
theorem treeBuild_of_ne_nil {q : List HuffTree} (hq : q ≠ []) : ∃ t, treeBuild q = some [t] := by
  obtain ⟨q', hbuild, hlen⟩ := treeBuild_total q
  have hpos := List.length_pos_of_ne_nil hq
  obtain ⟨t, rfl⟩ : ∃ t, q' = [t] := List.length_eq_one_iff.1 (by omega)
  exact ⟨t, hbuild⟩

/-- R134: a queue of leaves has as many leaf values as entries. -/
theorem queueValues_length_of_leaves {q : List HuffTree} (hq : ∀ t ∈ q, t.internals = 0) : (queueValues q).length = q.length := by
  induction q with
  | nil => rfl
  | cons t q ih =>
    obtain ⟨ht, hrest⟩ := List.forall_mem_cons.1 hq
    rw [queueValues_cons, List.length_append, HuffTree.values_length, ht, ih hrest, List.length_cons, Nat.zero_add, Nat.add_comm]

/-- R134: with k leaves in the queue there are k − 1 merges, as many as internal nodes. -/
theorem treeBuild_internals {q : List HuffTree} {t : HuffTree} (hq : ∀ t ∈ q, t.internals = 0) (h : treeBuild q = some [t]) :
    t.internals + 1 = q.length := by
  have hlen := (treeBuild_values h).length_eq
  rwa [queueValues_length_of_leaves hq, queueValues_cons, List.length_append, HuffTree.values_length] at hlen

/-- Settles O35: the loop merge by merge, and the leaves of the queue as the leaves of the one tree. -/
theorem treeBuildMerges : Obligations.TreeBuildMerges := by
  unfold Obligations.TreeBuildMerges
  refine ⟨rfl, fun _ => rfl, treeBuild_step, fun q hne hleaves => ?merges⟩
  case merges =>
    obtain ⟨t, hbuild⟩ := treeBuild_of_ne_nil hne
    exact ⟨t, hbuild, Nat.eq_sub_of_add_eq (treeBuild_internals hleaves hbuild)⟩

/-! ### The tree of an input -/

/-- R133: the fill has the total of the counters. -/
theorem queueWeight_fillLeaves (freq : List Word) (n : Nat) :
    queueWeight (fillLeaves freq n) = ((List.range n).map (fun v => (freq.getD v 0#32).toNat)).sum := by
  rw [queueWeight, fillLeaves, List.map_map]
  induction List.range n with
  | nil => rfl
  | cons v vs ih =>
    rw [List.map_cons, List.sum_cons, ← ih]
    by_cases h : freq.getD v 0#32 = 0#32
    · rw [List.filter_cons_of_neg (by simpa using h), h, BitVec.toNat_ofNat, Nat.zero_mod, Nat.zero_add]
    · rw [List.filter_cons_of_pos (by simpa using h)]
      rfl

/-- R130: the table is a function of the counts of the 256 byte values. -/
theorem freqCount_eq_map (src : Bytes) :
    freqCount src = (List.range 256).map (fun v => BitVec.ofNat 32 (src.count (BitVec.ofNat 8 v))) := by
  refine List.ext_getElem (by rw [freqCount_length, List.length_map, List.length_range]) fun i hi hi' => ?_
  have hlt : i < 256 := hi.trans_eq (freqCount_length src)
  have hget := freqCount_getD src (BitVec.ofNat 8 i)
  rw [BitVec.toNat_ofNat, Nat.mod_eq_of_lt hlt, List.getD_eq_getElem _ _ hi] at hget
  rw [hget, List.getElem_map, List.getElem_range]

/-- R130, R133: the fill of an input has the input's length as its total. -/
theorem queueWeight_pqFill {src : Bytes} (hl : src.length < 2 ^ 32) : queueWeight (pqFill (freqCount src)) = src.length := by
  have htable : (List.range 256).map (fun v => ((freqCount src).getD v 0#32).toNat) = (freqCount src).map BitVec.toNat := by
    refine List.ext_getElem (by simp [freqCount_length]) fun i _ hi => ?_
    rw [List.length_map] at hi
    rw [List.getElem_map, List.getElem_map, List.getElem_range, List.getD_eq_getElem _ _ hi]
  rw [queueWeight_perm (pqFill_perm _), queueWeight_fillLeaves, htable, freqCount_sum hl]

/-- R133: each leaf of the fill has its value's count. -/
theorem pqFill_weighted {src : Bytes} (hl : src.length < 2 ^ 32) :
    ∀ t ∈ pqFill (freqCount src), t.weighted (fun b => src.count b) := by
  intro t ht
  obtain ⟨v, -, rfl⟩ := (mem_pqFill _ t).1 ht
  exact freqCount_toNat hl v

/-- R135: the frequencies in the tree of an input. -/
theorem treeOf_weight {src : Bytes} {t : HuffTree} (hl : src.length < 2 ^ 32) (h : treeOf src = some t) :
    t.weighted (fun b => src.count b) ∧ t.freq.toNat = src.length := by
  have hbuild := treeBuild_input src
  rw [h] at hbuild
  obtain ⟨htotal, hweighted⟩ := treeBuild_weight hl (queueWeight_pqFill hl) (pqFill_weighted hl) hbuild
  exact ⟨hweighted t (List.mem_singleton_self t), htotal⟩

/-- Settles O36: merging keeps the fill's leaf values, its total and the exactness of its sums. -/
theorem treeInvariants : Obligations.TreeInvariants := by
  unfold Obligations.TreeInvariants
  intro src t hl h
  obtain ⟨hweighted, hroot⟩ := treeOf_weight hl h
  exact ⟨treeOf_nodup h, treeOf_mem hl h, hweighted, hroot⟩

/-- R140: a value has at most one leaf in the fill, and there are 256 values. -/
theorem pqFill_length_le (freq : List Word) : (pqFill freq).length ≤ 256 := by
  rw [(pqFill_perm freq).length_eq, fillLeaves, List.length_map]
  exact (List.length_filter_le _ _).trans_eq List.length_range

/-- Settles O40: the fill has at most one leaf for each value, a merge puts one entry in for two, and a tree with distinct leaf values has
at most 256 of them. -/
theorem compressCapacities : Obligations.CompressCapacities := by
  unfold Obligations.CompressCapacities
  refine ⟨pqFill_length_le, fun a b n q => ?merge, fun src t h => ?tree⟩
  case merge =>
    rw [pqInsert_length]
    exact Nat.lt_succ_self _
  case tree =>
    have hnodup := treeOf_nodup h
    obtain ⟨hnodes, hheight⟩ := tree_bounds hnodup
    exact ⟨nodup_bytes_length hnodup, t.values_length.symm, hnodes, hheight, serTree_le hnodup⟩

/-! ### Equal frequencies -/

/-- R141: the table does not see the order of the input. -/
theorem freqCount_perm {src src' : Bytes} (h : src.Perm src') : freqCount src = freqCount src' := by
  rw [freqCount_eq_map, freqCount_eq_map]
  exact List.map_congr_left fun v _ => by rw [h.count_eq]

/-- R141: the tree is that of the table. -/
theorem treeOf_perm {src src' : Bytes} (h : src.Perm src') : treeOf src = treeOf src' := by
  rw [treeOf, treeOf, freqCount_perm h]

/-- R141, R202: the payload of a reordered input has as many bits. -/
theorem inputBits_length_perm {src src' : Bytes} (h : src.Perm src') : (inputBits src).length = (inputBits src').length := by
  rw [inputBits, inputBits, codeBits_length, codeBits_length, treeOf_perm h]
  exact (h.map _).sum_eq

/-- Settles O58: FREQ is the counts, so the tree and its book are the same, and the payload has as many bits. -/
theorem treeRestsOnFrequencies : Obligations.TreeRestsOnFrequencies := by
  unfold Obligations.TreeRestsOnFrequencies
  intro src src' h
  refine ⟨treeOf_perm h, congrArg codeBook (treeOf_perm h), ?_⟩
  rw [container_length, container_length, packBytes_length, packBytes_length, treeOf_perm h, inputBits_length_perm h]

end Sys2Proof.Machine
end

section
/-! The code book (40_tree_builder.md R137–R139), and the empty and the single-symbol input (R136, R138). -/

namespace Sys2Proof.Machine

/-- R138: the book of a single leaf. -/
theorem codeBook_leaf (v : Byte) (f : Word) (b : Byte) :
    codeOf (codeBook (some (.leaf v f))) b = if b = v then some [false] else none := by
  rw [codeBook, codeOf_set codeAbsent_length, codeOf_absent]

/-- R137: only the values at leaves have codes. -/
theorem mem_values_of_code {t : HuffTree} {b : Byte} {c : Bits} (h : codeOf (codeBook (some t)) b = some c) : b ∈ t.values := by
  by_contra hnot
  rw [codeBook_absent hnot] at h
  cases h

/-- R137: with an internal root and distinct leaf values, the code of a value is the path to its leaf. -/
theorem codeBook_node_iff {f : Word} {l r : HuffTree} (hn : (HuffTree.node f l r).values.Nodup) (b : Byte) (c : Bits) :
    codeOf (codeBook (some (.node f l r))) b = some c ↔ (HuffTree.node f l r).leadsTo c b := by
  constructor
  · intro h
    obtain ⟨d, hd, hpath⟩ := codeBook_node hn (mem_values_of_code h)
    cases h.symm.trans hd
    exact hpath
  · intro h
    obtain ⟨d, hd, hpath⟩ := codeBook_node hn (HuffTree.leadsTo_mem h)
    rw [hd, HuffTree.leadsTo_unique hn h hpath]

/-- R137: exactly the bytes of an input have codes. -/
theorem inputCode_isSome {src : Bytes} (hl : src.length < 2 ^ 32) (b : Byte) :
    (codeOf (codeBook (treeOf src)) b).isSome = true ↔ b ∈ src := by
  constructor
  · intro h
    obtain ⟨c, hc⟩ := Option.isSome_iff_exists.1 h
    cases htree : treeOf src with
    | none =>
      rw [htree, codeBook, codeOf_absent] at hc
      cases hc
    | some t =>
      rw [htree] at hc
      exact (treeOf_mem hl htree b).1 (mem_values_of_code hc)
  · intro h
    obtain ⟨c, hc, -⟩ := inputCode_some hl h
    rw [hc, Option.isSome_some]

/-- Settles O38: the walk records the path to each leaf, and to nothing else. -/
theorem codeBookPaths : Obligations.CodeBookPaths := by
  unfold Obligations.CodeBookPaths
  refine ⟨fun f l r b c hn => codeBook_node_iff hn b c, fun v b f c => ?leaf, codeOf_absent, fun src b hl => inputCode_isSome hl b⟩
  case leaf =>
    rw [codeBook_leaf]
    split
    next h => simp only [h, true_and, Option.some.injEq, eq_comm]
    next h => simp only [h, false_and, reduceCtorEq]

/-- A tree with two leaves or more has an internal root. -/
theorem HuffTree.eq_node_of_two_le {t : HuffTree} (h : 2 ≤ t.values.length) : ∃ f l r, t = .node f l r := by
  cases t with
  | leaf v f => exact absurd h (by simp [HuffTree.values])
  | node f l r => exact ⟨f, l, r, rfl⟩

/-- R139: a code is at most as long as the tree has internal nodes. -/
theorem HuffTree.leadsTo_length_lt {t : HuffTree} {c : Bits} {b : Byte} (h : t.leadsTo c b) : c.length < t.values.length := by
  rw [t.values_length]
  exact Nat.lt_succ_of_le ((HuffTree.leadsTo_length h).trans t.height_le_internals)

/-- R139: no path to a leaf begins a path to a leaf of another value. -/
theorem HuffTree.leadsTo_not_prefix {t : HuffTree} {c d : Bits} {a b : Byte} (hc : t.leadsTo c a) (hd : t.leadsTo d b) (hab : a ≠ b) :
    ¬ c <+: d := by
  rintro ⟨e, rfl⟩
  obtain ⟨-, heq⟩ := HuffTree.leadsTo_prefix_free hc hd
  exact hab heq

/-- Settles O39: the codes are the paths to the leaves of the tree. -/
theorem codesPrefixFree : Obligations.CodesPrefixFree := by
  unfold Obligations.CodesPrefixFree
  intro t hn htwo
  obtain ⟨f, l, r, rfl⟩ := HuffTree.eq_node_of_two_le htwo
  simp only [codeBook_node_iff hn]
  refine ⟨fun b c hc => ⟨hc, ?pos, ?le, ?max⟩, fun a b c d hc hd hab => HuffTree.leadsTo_not_prefix hc hd hab⟩
  case pos => exact List.length_pos_of_ne_nil (HuffTree.leadsTo_node_ne_nil hc)
  case le => exact Nat.le_sub_one_of_lt (HuffTree.leadsTo_length_lt hc)
  case max => exact Nat.sub_le_of_le_add (nodup_bytes_length hn)

/-! ### The empty input -/

theorem treeOf_nil : treeOf [] = none :=
  (treeOf_eq_none (by decide)).2 rfl

/-- R138: the empty input has no payload. -/
theorem inputBits_nil : inputBits [] = [] := rfl

theorem containerHeader_nil : containerHeader [] = 0#16 := by
  rw [containerHeader, inputBits_nil, treeOf_nil]
  decide

/-- R136: the container of the empty input. -/
theorem container_nil : container [] = [0x41#8, 0x42#8, 0x00#8, 0x00#8] := by
  rw [container, containerHeader_nil, inputBits_nil, treeOf_nil]
  decide

/-! ### The input of one byte value -/

/-- R136: the tree of `n` bytes of one value. -/
theorem treeOf_replicate {n : Nat} (hpos : 0 < n) (hlt : n < 2 ^ 32) (v : Byte) :
    treeOf (List.replicate n v) = some (.leaf v (BitVec.ofNat 32 n)) := by
  have hl : (List.replicate n v).length < 2 ^ 32 := by rwa [List.length_replicate]
  cases h : treeOf (List.replicate n v) with
  | none =>
    have hnil := (treeOf_eq_none hl).1 h
    exact absurd ((List.replicate_eq_nil_iff v).1 hnil) hpos.ne'
  | some t =>
    have hvalues : t.values.Perm [v] := (List.perm_ext_iff_of_nodup (treeOf_nodup h) (List.nodup_singleton v)).2 fun b => by
      rw [treeOf_mem hl h, List.mem_replicate, List.mem_singleton, and_iff_right hpos.ne']
    obtain ⟨-, hfreq⟩ := treeOf_weight hl h
    rw [List.length_replicate] at hfreq
    cases t with
    | node f l r =>
      have hlen := hvalues.length_eq
      rw [HuffTree.values_length] at hlen
      exact absurd (Nat.succ.inj hlen) (Nat.succ_ne_zero _)
    | leaf w f =>
      obtain rfl : w = v := List.singleton_perm_singleton.1 hvalues
      rw [← hfreq]
      rw [HuffTree.freq, BitVec.ofNat_toNat, BitVec.setWidth_eq]

/-- R136, R138: the code of the one value. -/
theorem codeOf_replicate {n : Nat} (hpos : 0 < n) (hlt : n < 2 ^ 32) (v : Byte) :
    codeOf (codeBook (treeOf (List.replicate n v))) v = some [false] := by
  rw [treeOf_replicate hpos hlt, codeBook_leaf, if_pos rfl]

/-- R138: the payload of `n` bytes of one value has a 0 bit for each byte. -/
theorem inputBits_replicate {n : Nat} (hpos : 0 < n) (hlt : n < 2 ^ 32) (v : Byte) :
    inputBits (List.replicate n v) = List.replicate n false := by
  rw [inputBits, codeBits, List.flatMap_replicate, codeOf_replicate hpos hlt, Option.getD_some, List.flatten_replicate_singleton]

/-- R136: under the policy ERROR an input of one value is refused. -/
theorem compressBytes_replicate {n srcMax : Nat} (hpos : 0 < n) (hlt : n < 2 ^ 32) (hle : n ≤ srcMax) (v : Byte) (dstMax : Nat) :
    compressBytes (List.replicate n v) true srcMax dstMax = .error .degenerateAlphabet := by
  rw [compressBytes, List.length_replicate, if_neg (Nat.not_lt.2 hle), treeOf_replicate hpos hlt]
  rfl

/-- Settles O37: an input without a byte has no tree, and one of a single value has one leaf. -/
theorem degenerateTrees : Obligations.DegenerateTrees := by
  unfold Obligations.DegenerateTrees
  refine ⟨treeOf_nil, fun degen srcMax dstMax hroom => ?empty, fun v n hpos hlt => ⟨treeOf_replicate hpos hlt v,
    codeOf_replicate hpos hlt v, inputBits_replicate hpos hlt v,
    fun srcMax dstMax hle => compressBytes_replicate hpos hlt hle v dstMax⟩⟩
  case empty =>
    rw [compressBytes, container_nil, containerHeader_nil, treeOf_nil, List.length_nil, if_neg (Nat.not_lt_zero _)]
    exact if_neg (Nat.not_lt.2 hroom)

end Sys2Proof.Machine
end

section
/-! The tree field: the grammar it is read by, and the way back from the serializer (30_encoding.md R98; 41_tree_serializer.md R174, R177). -/

namespace Sys2Proof.Machine

/-- R174: the stream of a node is accepted, for that node's tree, with nothing of the budget left. -/
theorem deserializeTree_of_treeStream {field : Bytes} {t : HuffTree} (h : TreeStream field t) :
    deserializeTree field = some (some t) := by
  have hread := deserNode_of_stream h [] field.length (by rw [List.append_nil])
  rw [List.append_nil] at hread
  rw [deserializeTree, if_neg (List.ne_nil_of_length_pos (treeStream_pos h)), hread, wholeTree]

/-- R98, R174: the fields accepted with a tree are the streams of that tree. -/
theorem deserializeTree_eq_tree_iff {field : Bytes} {t : HuffTree} :
    deserializeTree field = some (some t) ↔ TreeStream field t :=
  ⟨treeStream_of_deserializeTree, deserializeTree_of_treeStream⟩

/-- R174: a descent that is accepted gives a tree. -/
theorem wholeTree_ne_empty (r : Option (HuffTree × Bytes)) : wholeTree r ≠ some none := by
  match r with
  | none | some (_, _ :: _) | some (_, []) => simp [wholeTree]

/-- R174: only the empty field is accepted with the empty tree. -/
theorem deserializeTree_eq_empty_iff {field : Bytes} : deserializeTree field = some none ↔ field = [] := by
  rw [deserializeTree]
  split
  case isTrue hnil => exact iff_of_true rfl hnil
  case isFalse hne => exact iff_of_false (wholeTree_ne_empty _) hne

/-- Settles O41: without a tree only the empty field is accepted, and with a tree the streams of the grammar. -/
theorem treeStreamGrammar : Obligations.TreeStreamGrammar := by
  unfold Obligations.TreeStreamGrammar
  intro field root
  cases root with
  | none => simp [deserializeTree_eq_empty_iff]
  | some t => simp [deserializeTree_eq_tree_iff]

/-- Settles O43: the deserializer gives back the tree without its frequencies, which has the same shape, values and paths. -/
theorem treeRoundTrip : Obligations.TreeRoundTrip := by
  unfold Obligations.TreeRoundTrip
  exact ⟨fun t => ⟨deserializeTree_serialize (some t), unweighted_values t, unweighted_internals t, unweighted_leadsTo t⟩,
    deserializeTree_serialize none⟩

end Sys2Proof.Machine
end

section
/-! The container's layout (30_encoding.md R93–R97; 41_tree_serializer.md R171). -/

namespace Sys2Proof.Machine

/-- R97: container byte 2 is the high byte of the header read. -/
theorem headerHigh_headerOfBytes (b2 b3 : Byte) : headerHigh (headerOfBytes b2 b3) = b2 := by
  apply BitVec.eq_of_getLsbD_eq
  intro i hi
  have hplace : 8 + i < 16 := by omega
  simp [headerHigh, headerOfBytes, hi, hplace]

/-- R97: container byte 3 is the low byte of the header read. -/
theorem headerLow_headerOfBytes (b2 b3 : Byte) : headerLow (headerOfBytes b2 b3) = b3 := by
  apply BitVec.eq_of_getLsbD_eq
  intro i hi
  have hplace : i < 16 := by omega
  simp [headerLow, headerOfBytes, hi, hplace]

/-- Settles O56: a compression's output is the container with its own header, and the header a decompression reports is put together of
container bytes 2 and 3. -/
theorem containerLayout : Obligations.ContainerLayout := by
  unfold Obligations.ContainerLayout
  refine ⟨fun src degen srcMax dstMax out h hc => ?compress, fun src degen srcMax dstMax out h hd => ?decompress⟩
  case compress =>
    obtain ⟨rfl, rfl, -, -⟩ := compress_ok hc
    exact ⟨rfl, containerHeader_treeSize src, containerHeader_garbage src, by rw [container_length, packBytes_length]⟩
  case decompress =>
    obtain ⟨rfl, hlen, -⟩ := decompress_ok hd
    have h2 : 2 < src.length := by omega
    have h3 : 3 < src.length := by omega
    rw [List.getD_eq_getElem src _ h2, List.getD_eq_getElem src _ h3, List.getElem?_eq_getElem h2, List.getElem?_eq_getElem h3]
    exact ⟨congrArg some (headerHigh_headerOfBytes _ _).symm, congrArg some (headerLow_headerOfBytes _ _).symm⟩

end Sys2Proof.Machine
end

section
/-! The bit packer (42_bit_packer.md R201, R202): padding, and the number of code bits. -/

namespace Sys2Proof.Machine

/-- Settles O46: the packed bits read back are the bits and their padding, and the counts are those of R201 and R202. -/
theorem payloadPadding : Obligations.PayloadPadding := by
  unfold Obligations.PayloadPadding
  intro bits
  exact ⟨payloadBits_packBytes bits, packBytes_length bits, packBytes_bits bits, rfl, Nat.le_of_lt_succ (garbageCount_lt bits.length)⟩

/-- R136: an input whose tree is a single leaf repeats the leaf's value. -/
theorem eq_replicate_of_treeOf_leaf {src : Bytes} (hl : src.length < 2 ^ 32) {v : Byte} {f : Word} (h : treeOf src = some (.leaf v f)) :
    src = List.replicate src.length v ∧ 0 < src.length := by
  have hmem (b : Byte) : b = v ↔ b ∈ src := by
    rw [← treeOf_mem hl h b, HuffTree.values, List.mem_singleton]
  exact ⟨List.eq_replicate_iff.2 ⟨rfl, fun b hb => (hmem b).2 hb⟩, List.length_pos_of_mem ((hmem v).1 rfl)⟩

/-- R138: an input whose tree is a single leaf has one 0 bit for each byte. -/
theorem inputBits_of_treeOf_leaf {src : Bytes} (hl : src.length < 2 ^ 32) {v : Byte} {f : Word} (h : treeOf src = some (.leaf v f)) :
    inputBits src = List.replicate src.length false := by
  obtain ⟨hsrc, hpos⟩ := eq_replicate_of_treeOf_leaf hl h
  rw [hsrc, inputBits_replicate hpos hl v, List.length_replicate]

theorem exists_leaf_of_isSingleLeaf {root : Option HuffTree} (h : isSingleLeaf root = true) : ∃ v f, root = some (.leaf v f) := by
  match root, h with
  | some (.leaf v f), _ => exact ⟨v, f, rfl⟩

/-- R139: no code of a book has more than 255 bits. -/
theorem codeBook_length_le {t : HuffTree} (hn : t.values.Nodup) {b : Byte} {c : Bits} (h : codeOf (codeBook (some t)) b = some c) :
    c.length ≤ 255 := by
  cases t with
  | leaf v f =>
    rw [codeBook_leaf] at h
    split at h
    · cases h; decide
    · cases h
  | node f l r =>
    have hlt := HuffTree.leadsTo_length_lt ((codeBook_node_iff hn b c).1 h)
    have hmax := nodup_bytes_length hn
    omega

/-- R139, R202: what a byte of an input adds to the payload is at most 255 bits. -/
theorem inputCode_length_le (src : Bytes) (b : Byte) : ((codeOf (codeBook (treeOf src)) b).getD []).length ≤ 255 := by
  cases hcode : codeOf (codeBook (treeOf src)) b with
  | none => exact Nat.zero_le _
  | some c =>
    cases htree : treeOf src with
    | none =>
      rw [htree, codeBook, codeOf_absent] at hcode
      cases hcode
    | some t => exact codeBook_length_le (treeOf_nodup htree) (htree ▸ hcode)

/-- Settles O47: the payload is one code for each byte; the bits are collected by value, are one a byte for a single leaf, and are at most
255 a byte. -/
theorem codeBitTotal : Obligations.CodeBitTotal := by
  unfold Obligations.CodeBitTotal
  intro src hl
  refine ⟨?sum, fun hone => ?one, ?max⟩
  case sum => rw [inputBits, codeBits_length, sum_by_value src (fun b => ((codeOf (codeBook (treeOf src)) b).getD []).length)]
  case one =>
    obtain ⟨v, f, htree⟩ := exists_leaf_of_isSingleLeaf ((treeOf_oneSymbol hl).trans hone)
    rw [inputBits_of_treeOf_leaf hl htree, List.length_replicate]
  case max =>
    rw [inputBits, codeBits_length, Nat.mul_comm]
    have hle := List.sum_le_card_nsmul (src.map fun b => ((codeOf (codeBook (treeOf src)) b).getD []).length) 255
      (List.forall_mem_map.2 fun b _ => inputCode_length_le src b)
    rwa [List.length_map, smul_eq_mul] at hle

end Sys2Proof.Machine
end

section
/-! The bit unpacker (42_bit_packer.md R203–R209). -/

namespace Sys2Proof.Machine

/-! ### The payload bit count -/

theorem unpackBitCount_eq_none_iff {f g ts : Nat} : unpackBitCount f g ts = none ↔ 8 * (f - 4 - ts) < g := by
  rw [unpackBitCount, containerPrefix]
  split
  case isTrue h => exact iff_of_true rfl h
  case isFalse h => exact iff_of_false nofun h

theorem unpackBitCount_eq_some_iff {f g ts n : Nat} : unpackBitCount f g ts = some n ↔ n + g = 8 * (f - 4 - ts) := by
  rw [unpackBitCount, containerPrefix]
  split
  · exact iff_of_false nofun (by omega)
  · rw [Option.some.injEq]
    omega

/-! ### The outcome -/

/-- R205–R207: the outcome is that of the bytes and the cursor the payload decodes to, unless there are payload bits and no tree. -/
theorem unpackTree_eq (root : Option HuffTree) (bits : Bits) (dstMax : Nat) :
    unpackTree root bits dstMax =
      if root = none ∧ bits ≠ [] then .error .corruptTree
      else unpackOutcome dstMax (decodePayload root bits).1 (decodePayload root bits).2 := by
  match root with
  | none =>
    by_cases hbits : bits = []
    · rw [unpackTree, if_pos hbits, if_neg fun h => h.2 hbits]
      rfl
    · rw [unpackTree, if_neg hbits, if_pos ⟨rfl, hbits⟩]
  | some (.leaf v f) => exact (if_neg nofun).symm
  | some (.node f l r) => exact (if_neg nofun).symm

/-- Settles O48: the bit count by its two cases, and the outcome by the checks of `unpackOutcome`. -/
theorem unpackOutcomes : Obligations.UnpackOutcomes := by
  unfold Obligations.UnpackOutcomes
  refine ⟨fun f g ts hf hg hfit => ⟨?refused, fun n hn => ?count⟩, unpackTree_eq, fun v f bits => rfl, rfl⟩
  case refused =>
    rw [unpackBitCount_eq_none_iff]
    omega
  case count =>
    rw [unpackBitCount_eq_some_iff] at hn
    exact ⟨hn, by omega⟩

/-- Settles O49: codes take the cursor back to the root one by one, and a proper part of one more leaves it inside that code. -/
theorem unpackFollowsCodes : Obligations.UnpackFollowsCodes := by
  unfold Obligations.UnpackFollowsCodes
  intro f l r codes hcodes
  refine ⟨?whole, fun c d v hpath hc hd => ?cut⟩
  case whole =>
    have hrun := unpackBits_codes codes [] hcodes
    rwa [List.append_nil, unpackBits, List.append_nil] at hrun
  case cut => rw [unpackBits_codes codes c hcodes, unpackBits_cut l r false hpath hd, if_neg hc, List.append_nil]

/-- Settles O52: the bits unpacked are as many as the bit count, and unpacking emits at most one byte for each of them. -/
theorem outputBound : Obligations.OutputBound := by
  unfold Obligations.OutputBound
  intro src degen srcMax dstMax out h hd bits
  obtain ⟨-, -, root, n, hfield, hn, hout⟩ := decompress_ok hd
  obtain ⟨hle, hmax, hleaf⟩ := unpackTree_ok _ _ _ _ hout
  rw [unpackBitCount_eq_some_iff] at hn
  have hn' : n = bits := Nat.eq_sub_of_add_eq hn
  have hlen : ((payloadBits (src.drop (4 + (headerTreeSize h).toNat))).take n).length = bits := by
    rw [List.length_take, payloadBits_length, List.length_drop]
    omega
  rw [hlen] at hle hleaf
  refine ⟨hle, hmax, fun v f hroot => hleaf v f ?_⟩
  exact Option.some.inj (hfield.symm.trans hroot)

/-! ### Padding bits -/

theorem payloadBits_append (xs ys : Bytes) : payloadBits (xs ++ ys) = payloadBits xs ++ payloadBits ys :=
  List.flatMap_append

/-- R61: the first `8 − g` stream bits of a byte are its bits from `g` on. -/
theorem streamBits_take_congr {b b' : Byte} {g : Nat} (h : ∀ k, g ≤ k → b.getLsbD k = b'.getLsbD k) :
    (streamBits b).take (8 - g) = (streamBits b').take (8 - g) := by
  rw [streamBits, streamBits, ← List.map_take, ← List.map_take]
  refine List.map_congr_left fun k hk => h (7 - k) ?_
  rw [List.take_range, List.mem_range] at hk
  omega

/-- R203, R208: the payload bits of a container stop short of the last byte's `g` padding bits. -/
theorem payloadBits_take_congr (front : Bytes) {b b' : Byte} {g n : Nat} (hn : n + g = 8 * (front.length + 1))
    (h : ∀ k, g ≤ k → b.getLsbD k = b'.getLsbD k) :
    (payloadBits (front ++ [b])).take n = (payloadBits (front ++ [b'])).take n := by
  have hlast : n - (payloadBits front).length = 8 - g := by
    rw [payloadBits_length]
    omega
  have hone (c : Byte) : payloadBits [c] = streamBits c := List.append_nil _
  rw [payloadBits_append, payloadBits_append, List.take_append, List.take_append, hone, hone, hlast, streamBits_take_congr h]

/-- R233: the decoding rests on the length, the tree field and the payload bits. -/
theorem decodeBody_congr {src src' : Bytes} {h : BitVec 16} (hlen : src.length = src'.length)
    (hfield : (src.drop 4).take (headerTreeSize h).toNat = (src'.drop 4).take (headerTreeSize h).toNat)
    (hbits : ∀ n, unpackBitCount src.length (headerGarbage h).toNat (headerTreeSize h).toNat = some n →
      (payloadBits (src.drop (4 + (headerTreeSize h).toNat))).take n = (payloadBits (src'.drop (4 + (headerTreeSize h).toNat))).take n)
    (degen : Bool) (dstMax : Nat) : decodeBody src h degen dstMax = decodeBody src' h degen dstMax := by
  simp only [decodeBody, containerPrefix, hfield, ← hlen]
  cases hn : unpackBitCount src.length (headerGarbage h).toNat (headerTreeSize h).toNat with
  | none => rfl
  | some n => simp only [hbits n hn]

/-- Settles O50: the two containers have the same length, header and tree field, and the payload bits taken are the same. -/
theorem garbageBitsIgnored : Obligations.GarbageBitsIgnored := by
  unfold Obligations.GarbageBitsIgnored
  intro front b b' degen srcMax dstMax h hfit hagree
  have hts : 4 + (headerTreeSize h).toNat ≤ front.length := hfit
  have hheader (c : Byte) : headerOfBytes ((front ++ [c]).getD 2 0#8) ((front ++ [c]).getD 3 0#8) = h := by
    rw [List.getD_append _ _ _ _ (by omega), List.getD_append _ _ _ _ (by omega)]
  have hlen : (front ++ [b]).length = (front ++ [b']).length := by rw [List.length_append, List.length_append]; rfl
  have hbody : decodeBody (front ++ [b]) h degen dstMax = decodeBody (front ++ [b']) h degen dstMax := by
    refine decodeBody_congr hlen ?field (fun n hn => ?bits) degen dstMax
    case field =>
      rw [List.drop_append_of_le_length (by omega), List.drop_append_of_le_length (by omega),
        List.take_append_of_le_length (by rw [List.length_drop]; omega), List.take_append_of_le_length (by rw [List.length_drop]; omega)]
    case bits =>
      rw [unpackBitCount_eq_some_iff, List.length_append, List.length_singleton] at hn
      rw [List.drop_append_of_le_length hts, List.drop_append_of_le_length hts]
      refine payloadBits_take_congr _ (g := (headerGarbage h).toNat) ?_ hagree
      rw [List.length_drop]
      omega
  simp only [decompressBytes, hheader, hlen, hbody]

end Sys2Proof.Machine
end

section
/-! The round trip (42_bit_packer.md R210), on byte strings and on the machine. -/

namespace Sys2Proof.Machine

/-! ### The parts of a container -/

/-- R97: container bytes 2 and 3 give back the header. -/
theorem headerOfBytes_container (src : Bytes) :
    headerOfBytes ((container src).getD 2 0#8) ((container src).getD 3 0#8) = containerHeader src :=
  headerOfBytes_split (containerHeader src)

/-- R93: behind the first four bytes stands the tree stream, and behind that the payload. -/
theorem container_drop_four (src : Bytes) : (container src).drop 4 = serialize (treeOf src) ++ packBytes (inputBits src) := by
  rw [container, List.append_assoc]
  rfl

theorem container_treeField (src : Bytes) :
    ((container src).drop 4).take (serialize (treeOf src)).length = serialize (treeOf src) := by
  rw [container_drop_four, List.take_left]

theorem container_payload (src : Bytes) :
    (container src).drop (4 + (serialize (treeOf src)).length) = packBytes (inputBits src) := by
  rw [← List.drop_drop, container_drop_four, List.drop_left]

/-- R202, R203: the bit count of a container is the number of code bits packed. -/
theorem unpackBitCount_container (src : Bytes) :
    unpackBitCount (container src).length (garbageCount (inputBits src).length) (serialize (treeOf src)).length =
      some (inputBits src).length := by
  rw [unpackBitCount_eq_some_iff, container_length, ← packBytes_bits]
  omega

/-- R201: the payload bits of a container are the code bits. -/
theorem payloadBits_container (src : Bytes) :
    (payloadBits ((container src).drop (4 + (serialize (treeOf src)).length))).take (inputBits src).length = inputBits src := by
  rw [container_payload, payloadBits_packBytes, List.take_left]

/-! ### Decoding a container -/

/-- R102, R205: with the tree as it is parsed back, the code bits of an input decode to the input. -/
theorem decodePayload_inputBits {src : Bytes} (hl : src.length < 2 ^ 32) :
    decodePayload ((treeOf src).map HuffTree.unweighted) (inputBits src) = (src, false) := by
  match htree : treeOf src with
  | none =>
    rw [(treeOf_eq_none hl).1 htree]
    rfl
  | some (.leaf v f) =>
    obtain ⟨hsrc, -⟩ := eq_replicate_of_treeOf_leaf hl htree
    rw [inputBits_of_treeOf_leaf hl htree, Option.map_some, HuffTree.unweighted, decodePayload, List.length_replicate, ← hsrc]
  | some (.node f l r) =>
    refine unpackBits_codeBits (f := 0#32) src fun b hb => ?_
    obtain ⟨c, hcode, hpath⟩ := codeBook_node (treeOf_nodup htree) ((treeOf_mem hl htree b).2 hb)
    exact ⟨c, htree ▸ hcode, (unweighted_leadsTo (.node f l r) c b).2 hpath⟩

/-- R136, R138: without a tree there is no input, and so no code bit. -/
theorem inputBits_of_treeOf_none {src : Bytes} (hl : src.length < 2 ^ 32) (h : treeOf src = none) : inputBits src = [] := by
  rw [(treeOf_eq_none hl).1 h, inputBits_nil]

/-- R207, R210: with room in the sink the code bits of an input unpack to the input. -/
theorem unpackTree_inputBits {src : Bytes} (hl : src.length < 2 ^ 32) {dstMax : Nat} (hroom : src.length ≤ dstMax) :
    unpackTree ((treeOf src).map HuffTree.unweighted) (inputBits src) dstMax = .ok src := by
  have hnone : ¬ ((treeOf src).map HuffTree.unweighted = none ∧ inputBits src ≠ []) := fun h =>
    h.2 (inputBits_of_treeOf_none hl (Option.map_eq_none_iff.1 h.1))
  rw [unpackTree_eq, if_neg hnone, decodePayload_inputBits hl, unpackOutcome, if_neg (Nat.not_lt.2 hroom)]
  rfl

/-- R136: two byte values or more make no single leaf. -/
theorem oneSymbol_eq_false {src : Bytes} (h : 2 ≤ src.dedup.length) : oneSymbol src = false := by
  rw [oneSymbol, beq_eq_false_iff_ne]
  omega

/-- R174, R233, R210: D_TREE and D_UNPACK on a container. -/
theorem decodeBody_container {src : Bytes} (hl : src.length < 2 ^ 32) {degen : Bool} (hdegen : (oneSymbol src && degen) = false)
    {dstMax : Nat} (hroom : src.length ≤ dstMax) :
    decodeBody (container src) (containerHeader src) degen dstMax = .ok (src, containerHeader src) := by
  have hsingle : (isSingleLeaf ((treeOf src).map HuffTree.unweighted) && degen) = false := by
    rwa [isSingleLeaf_unweighted, treeOf_oneSymbol hl]
  simp only [decodeBody, containerPrefix, containerHeader_garbage, containerHeader_treeSize, container_treeField,
    deserializeTree_serialize, hsingle, unpackBitCount_container, payloadBits_container, unpackTree_inputBits hl hroom,
    Bool.false_eq_true, if_false]

/-- R210, R237: DECOMPRESS on a container that fits the source. -/
theorem decompressBytes_container {src : Bytes} (hl : src.length < 2 ^ 32) {degen : Bool} (hdegen : (oneSymbol src && degen) = false)
    {srcMax dstMax : Nat} (hfits : (container src).length ≤ srcMax) (hroom : src.length ≤ dstMax) :
    decompressBytes (container src) degen srcMax dstMax = .ok (src, containerHeader src) := by
  have hlen := container_length src
  simp only [decompressBytes, headerOfBytes_container, containerHeader_treeSize, containerPrefix, decodeBody_container hl hdegen hroom]
  rw [if_neg (Nat.not_lt.2 hfits), if_neg (by omega), if_neg (by omega)]

/-- Settles O53: a compression's output is the container of its input. -/
theorem roundTrip : Obligations.RoundTrip := by
  unfold Obligations.RoundTrip
  intro src degen degen' srcMax dstMax srcMax' dstMax' out h hl hc hpolicy hfits hroom
  obtain ⟨rfl, rfl, -, -⟩ := compress_ok hc
  refine decompressBytes_container hl ?_ hfits hroom
  rcases hpolicy with htwo | rfl
  · rw [oneSymbol_eq_false htwo, Bool.false_and]
  · exact Bool.and_false _

/-! ### On the machine -/

/-- R234, R239: an accepted command, run by the engine alone for its phases, shows the result it owes. -/
theorem engineRun_accept {op : BitVec 4} (hop : op ≠ 0#4) {s : State} (hi : s.Inv) {n : Nat} (hn : (firstPhase op).left ≤ n) :
    ∃ t, engineRun n (accept op (firstPhase op) s) = .next t ∧ KeepsHostSide s t ∧
      ShowsResult (accept op (firstPhase op) s) t (accept op (firstPhase op) s).commandResult := by
  have hphase := accept_phase op (firstPhase op) s
  obtain ⟨t, hrun, -, hkeeps, hshows, -⟩ := engineRun_result n (accept_inv hop hi) (accept_dataInv op s)
    (accept_tainted op (firstPhase op) s) (hphase.trans_ne (firstPhase_ne_idle op)) (hphase.symm ▸ hn)
  exact ⟨t, hrun, (accept_keeps op (firstPhase op) s).trans hkeeps, hshows⟩

/-- R33, R234: acceptance latches the opcode, the length and the policy. -/
theorem accept_latch (op : BitVec 4) (first : Phase) (s : State) :
    (accept op first s).latch = { op := op, srcLen := s.srcLen, degen := s.degen } := by
  rw [accept_frame]

/-- R33, R234: an accepted command's input is SRC[0..SRC_LEN). -/
theorem accept_input (op : BitVec 4) (first : Phase) (s : State) : (accept op first s).input = s.srcBytes s.srcLen.toNat := by
  rw [accept_frame]
  rfl

theorem accept_commandResult_compress (first : Phase) (s : State) :
    (accept 1#4 first s).commandResult =
      compressBytes (s.srcBytes s.srcLen.toNat) s.degen s.params.srcMax.toNat s.params.dstMax.toNat := by
  rw [commandResult_compress (by rw [accept_latch]), accept_input, accept_latch, (accept_keeps 1#4 first s).params]

theorem accept_commandResult_decompress (first : Phase) (s : State) :
    (accept 2#4 first s).commandResult =
      decompressBytes (s.srcBytes s.srcLen.toNat) s.degen s.params.srcMax.toNat s.params.dstMax.toNat := by
  rw [commandResult_decompress (by rw [accept_latch]), accept_input, accept_latch, (accept_keeps 2#4 first s).params]

/-- R26, R239: a completion without ERR shows a success. -/
theorem ShowsResult.ok_of_err {s t : State} {r : Except CmdError (Bytes × BitVec 16)} (hshows : ShowsResult s t r)
    (herr : t.status.err = false) :
    ∃ out h, r = .ok (out, h) ∧ t.dstLen.toNat = out.length ∧ t.hdr = h ∧ t.dstBytes out.length = out := by
  match r with
  | .error e =>
    obtain ⟨herr', -⟩ := hshows.error e rfl
    exact absurd (herr.symm.trans herr') Bool.false_ne_true
  | .ok (out, h) =>
    obtain ⟨-, -, hlen, hhdr, hbytes, -⟩ := hshows.ok out h rfl
    exact ⟨out, h, rfl, hlen, hhdr, hbytes⟩

theorem srcBytes_length (s : State) (n : Nat) : (s.srcBytes n).length = n := by
  rw [State.srcBytes, List.length_map, List.length_range]

/-- Settles O54: both commands show the results of the functions on byte strings, whose round trip is O53. -/
theorem machineRoundTrip : Obligations.MachineRoundTrip := by
  unfold Obligations.MachineRoundTrip
  intro s t u v hs hsIdle hcompress hrun herr hv hvIdle hparams hpolicy hlen hbytes hfits hroom
  obtain rfl : accept 1#4 .cFreq s = t := Host.Outcome.next.inj ((exec_of_idle (i := .compress) rfl (by decide) hsIdle).symm.trans hcompress)
  obtain ⟨u', hrun', -, hshowsU⟩ := engineRun_accept (op := 1#4) (by decide) hs (n := 7) (le_refl 7)
  obtain rfl : u' = u := Host.Outcome.next.inj (hrun'.symm.trans hrun)
  obtain ⟨out, h, hresult, hdstLen, hhdr, hout⟩ := hshowsU.ok_of_err herr
  rw [accept_commandResult_compress] at hresult
  have hsource : v.srcBytes v.srcLen.toNat = out := by rw [hbytes, hdstLen, hout]
  obtain ⟨x, hrunX, -, hshowsX⟩ := engineRun_accept (op := 2#4) (by decide) hv (n := 3) (le_refl 3)
  have hback : decompressBytes out v.degen s.params.srcMax.toNat s.params.dstMax.toNat = .ok (s.srcBytes s.srcLen.toNat, h) := by
    have hsrcLen := srcBytes_length s s.srcLen.toNat
    have hsize : out.length ≤ s.params.srcMax.toNat := hdstLen.symm.trans_le (BitVec.le_def.1 hfits)
    exact roundTrip _ s.degen v.degen _ _ _ _ out h (hsrcLen.trans_lt s.srcLen.isLt) hresult hpolicy.symm hsize
      (hsrcLen.trans_le (BitVec.le_def.1 hroom))
  rw [accept_commandResult_decompress, hsource, hparams, hback] at hshowsX
  obtain ⟨herrX, -, hlenX, hhdrX, hdst, -⟩ := hshowsX.ok _ _ rfl
  rw [srcBytes_length] at hlenX hdst
  exact ⟨_, x, exec_of_idle (i := .decompress) rfl (by decide) hvIdle, hrunX, hshowsX.done, herrX, BitVec.eq_of_toNat_eq hlenX,
    hhdrX.trans hhdr.symm, hdst⟩

end Sys2Proof.Machine
end

section
/-! COMPRESS and DECOMPRESS on the machine (43_container_codec.md R232, R233, R236, R237, R239; 60_exceptions.md R278). The two
theorems on an accepted command stand under `Accepted`: `decompressResult` alone is the law of `commandResult` past the length checks. -/

namespace Sys2Proof.Machine

/-! ### COMPRESS -/

/-- R136, R236: the single-symbol check, on an input a machine can hold, is on the input's byte values. -/
theorem compressBytes_of_lt {src : Bytes} (hl : src.length < 2 ^ 32) (degen : Bool) (srcMax dstMax : Nat) :
    compressBytes src degen srcMax dstMax =
      if srcMax < src.length then .error .sourceUnreadable
      else if oneSymbol src && degen then .error .degenerateAlphabet
      else if dstMax < (container src).length then .error .sinkUnwritable
      else .ok (container src, containerHeader src) := by
  rw [compressBytes, treeOf_oneSymbol hl]

theorem srcBytes_length_lt (s : State) (n : Word) : (s.srcBytes n.toNat).length < 2 ^ 32 := by
  rw [srcBytes_length]
  exact n.isLt

/-- Settles O9: the accepted command, run by the engine alone for its seven phases, shows the result it owes, which is that of
`compressBytes` on SRC[0..SRC_LEN). -/
theorem Accepted.compressResult : Obligations.CompressResult := by
  unfold Obligations.CompressResult
  intro s hi hb
  obtain ⟨u, hrun, hkeeps, hshows⟩ := engineRun_accept (op := 1#4) (by decide) hi (n := 7) (le_refl 7)
  rw [accept_commandResult_compress, compressBytes_of_lt (srcBytes_length_lt s s.srcLen)] at hshows
  exact ⟨_, u, exec_of_idle (i := .compress) rfl (by decide) hb, hrun, hkeeps, hshows⟩

/-! ### DECOMPRESS -/

/-- R174: with the tree field inside the container, the empty tree is what tree size 0 gives. -/
theorem treeField_eq_empty_iff {src : Bytes} {ts : Nat} (hfit : 4 + ts ≤ src.length) :
    deserializeTree ((src.drop 4).take ts) = some none ↔ ts = 0 := by
  rw [deserializeTree_eq_empty_iff, ← List.length_eq_zero_iff, List.length_take, List.length_drop]
  omega

/-- R203: there are as many payload bits as the bit count says. -/
theorem payloadBits_take_length {src : Bytes} {g ts n : Nat} (hn : unpackBitCount src.length g ts = some n) :
    ((payloadBits (src.drop (4 + ts))).take n).length = n := by
  rw [unpackBitCount_eq_some_iff] at hn
  rw [List.length_take, payloadBits_length, List.length_drop]
  omega

/-- R207, R278: the payload's three checks, in their order. -/
theorem unpackTree_checks (root : Option HuffTree) (bits : Bits) (dstMax : Nat) :
    unpackTree root bits dstMax =
      if root = none ∧ 0 < bits.length then .error .corruptTree
      else if dstMax < (decodePayload root bits).1.length then .error .sinkUnwritable
      else if (decodePayload root bits).2 = true then .error .corruptPayload
      else .ok (decodePayload root bits).1 := by
  simp only [unpackTree_eq, unpackOutcome, List.length_pos_iff]

/-- R233, R278: D_TREE and D_UNPACK as their six checks in order. -/
theorem decodeBody_checks {src : Bytes} {h : BitVec 16} (hfit : 4 + (headerTreeSize h).toNat ≤ src.length) (degen : Bool)
    (dstMax : Nat) :
    decodeBody src h degen dstMax =
      let g := (headerGarbage h).toNat
      let ts := (headerTreeSize h).toNat
      let field := deserializeTree ((src.drop 4).take ts)
      let root := field.getD none
      let nbits := 8 * (src.length - 4 - ts) - g
      let decoded := decodePayload root ((payloadBits (src.drop (4 + ts))).take nbits)
      if field = none then .error .corruptTree
      else if isSingleLeaf root && degen then .error .degenerateAlphabet
      else if 8 * (src.length - 4 - ts) < g then .error .corruptPayload
      else if ts = 0 ∧ 0 < nbits then .error .corruptTree
      else if dstMax < decoded.1.length then .error .sinkUnwritable
      else if decoded.2 = true then .error .corruptPayload
      else .ok (decoded.1, h) := by
  have hempty := treeField_eq_empty_iff hfit
  simp only [decodeBody, containerPrefix]
  generalize hg : (headerGarbage h).toNat = g at *
  generalize hts : (headerTreeSize h).toNat = ts at *
  match hfield : deserializeTree ((src.drop 4).take ts) with
  | none => rfl
  | some root =>
    rw [hfield, Option.some.injEq] at hempty
    rw [if_neg nofun, Option.getD_some]
    refine ite_congr rfl (fun _ => rfl) fun _ => ?_
    match hn : unpackBitCount src.length g ts with
    | none => exact (if_pos (unpackBitCount_eq_none_iff.1 hn)).symm
    | some n =>
      have hlen := payloadBits_take_length hn
      rw [unpackBitCount_eq_some_iff] at hn
      obtain rfl : n = 8 * (src.length - 4 - ts) - g := by omega
      rw [if_neg (by omega)]
      simp only [unpackTree_checks, hlen, hempty]
      split_ifs <;> rfl

/-- Settles O10: the accepted command, run by the engine alone for its three phases, shows the result it owes, which is that of
`decompressBytes` on SRC[0..SRC_LEN): three checks on the length, then those of `decodeBody`. -/
theorem Accepted.decompressResult : Obligations.DecompressResult := by
  unfold Obligations.DecompressResult
  intro s hi hb
  obtain ⟨u, hrun, hkeeps, hshows⟩ := engineRun_accept (op := 2#4) (by decide) hi (n := 3) (le_refl 3)
  rw [accept_commandResult_decompress, decompressBytes] at hshows
  refine ⟨_, u, exec_of_idle (i := .decompress) rfl (by decide) hb, hrun, hkeeps, (congrArg (ShowsResult _ u) ?checks).mp hshows⟩
  case checks =>
    exact ite_congr rfl (fun _ => rfl) fun _ => ite_congr rfl (fun _ => rfl) fun _ => ite_congr rfl (fun _ => rfl) fun hfit =>
      decodeBody_checks (Nat.le_of_not_lt hfit) s.degen s.params.dstMax.toNat

/-! ### Completion -/

/-- Settles O11: an undoubted command's engine step that does not leave it going completes it with the result it owes. -/
theorem completionShowsResult : Obligations.CompletionShowsResult := by
  unfold Obligations.CompletionShowsResult
  intro s t hi hd hta hb hstep htb
  have hmove : EngineMove s t := engineMove_of hi hd ((busy_eq_true s).1 hb) hstep
  rcases hmove.result hta with hgoes | ⟨hkeeps, hshows, -, hlatch, -⟩
  · exact absurd ((busy_eq_false t).1 htb) hgoes.busy
  · exact ⟨hshows, hkeeps, hlatch⟩

end Sys2Proof.Machine
end

section
/-! Writes to CMD, and what ends a command (43_container_codec.md R234, R235, R241; 70_reset_and_hazards.md R301). -/

namespace Sys2Proof.Machine

/-! ### Writes to CMD -/

/-- R235: a command word with OP = 0 does nothing, busy or not. -/
theorem hostAccess_nopWord {w : Word} (h : opField w = 0#4) (s : State) : hostAccess (.wreg regCmd w) s = .next s := by
  rw [hostAccess_wreg_regCmd, exec_eq _ (decode_wellFormed w), decode_op, if_pos h]

/-- R304: any other command word sets DROP while a command runs. -/
theorem hostAccess_dropped {w : Word} (h : opField w ≠ 0#4) {s : State} (hb : s.busy = true) :
    hostAccess (.wreg regCmd w) s = .next { s with status := s.status.dropped } := by
  rw [hostAccess_wreg_regCmd, exec_eq _ (decode_wellFormed w), decode_op, if_neg h, startCommand, if_pos hb]

/-- R234: an idle block accepts any other command word. -/
theorem hostAccess_accepted {w : Word} (h : opField w ≠ 0#4) {s : State} (hb : s.busy = false) :
    hostAccess (.wreg regCmd w) s = .next (accept (opField w) (firstPhase (opField w)) s) := by
  rw [hostAccess_wreg_regCmd, exec_of_idle (decode_wellFormed w) (by rwa [decode_op]) hb, decode_op]

/-- Settles O5: the three cases of a write to CMD, acceptance changing what `accept_frame` says. -/
theorem commandAcceptance : Obligations.CommandAcceptance := by
  unfold Obligations.CommandAcceptance
  intro w s
  refine ⟨fun hop => hostAccess_nopWord hop s, fun hop hb => hostAccess_dropped hop hb, fun hop hb => ?_⟩
  exact ⟨_, hostAccess_accepted hop hb, accept_busy (opField w) s, accept_frame (opField w) (firstPhase (opField w)) s⟩

/-- Settles O4: NOP's arm answers the same state, and so does a write of a word that decodes to it. -/
theorem nopHasNoEffect : Obligations.NopHasNoEffect := by
  unfold Obligations.NopHasNoEffect
  exact ⟨fun _ => rfl, fun _ s hop => hostAccess_nopWord hop s⟩

/-! ### What ends a command -/

/-- R33, log 21: no engine step changes the latched operands. -/
theorem EngineMove.latch {s t : State} (hm : EngineMove s t) : t.latch = s.latch := by
  by_cases hta : s.tainted = true
  · cases hm with
    | inDoubt => rfl
    | goes u h | finishes u n out hd h | fails e h => exact absurd (h.symm.trans hta) Bool.false_ne_true
  · rcases hm.result (Bool.eq_false_iff.2 hta) with hgoes | ⟨-, -, -, hlatch, -⟩
    · exact hgoes.latch
    · exact hlatch

/-- R20, R308: while a command runs and it is not the engine's turn, the host has an access to make. -/
theorem host_of_not_engineTurn {s : State} (hb : s.busy = true) (ht : s.engineTurn = false) : ∃ a rest, s.host = a :: rest := by
  refine List.exists_cons_of_ne_nil fun hnil => ?_
  rw [State.engineTurn, hb, hnil] at ht
  cases ht

/-- Settles O19: the engine's step keeps the latch and ends a command only in completion; of the host's accesses only the reset ends
one, and the others keep the phase and the latch. -/
theorem onlyResetCancels : Obligations.OnlyResetCancels := by
  unfold Obligations.OnlyResetCancels
  intro s t hi hd hb hstep
  cases hturn : s.engineTurn with
  | true =>
    rw [step_of_engineTurn hturn] at hstep
    have hidle : s.phase ≠ .idle := (busy_eq_true s).1 hb
    have hmove : EngineMove s t := engineMove_of hi hd hidle hstep
    refine ⟨fun _ => hmove.latch, fun htb => .inl ⟨rfl, ?_⟩⟩
    rcases hmove.left hidle with ⟨-, hdone⟩ | ⟨hbusy, -⟩
    · exact hdone
    · exact absurd ((busy_eq_false t).1 htb) hbusy
  | false =>
    obtain ⟨a, rest, hhost⟩ := host_of_not_engineTurn hb hturn
    rw [step_of_hostTurn hhost hturn] at hstep
    by_cases hrst : a = .rst
    · subst hrst
      obtain rfl : resetSignal (s.takeItem rest) = t := Host.Outcome.next.inj hstep
      exact ⟨fun htb => absurd (resetSignal_phase _) ((busy_eq_true _).1 htb), fun _ => .inr ⟨rfl, rest, hhost⟩⟩
    · obtain ⟨hphase, hlatch, -⟩ := runningCommandUndisturbed a (s.takeItem rest) t hb hrst hstep
      refine ⟨fun _ => hlatch, fun htb => absurd ?_ ((busy_eq_true s).1 hb)⟩
      exact hphase.symm.trans ((busy_eq_false t).1 htb)

end Sys2Proof.Machine
end

section
/-! The container's magic and header on byte strings, and Scenario A (43_container_codec.md R230, R231, R236, R237, R240). -/

namespace Sys2Proof.Machine

/-- R230: the packed header is the garbage count's bits above the tree size's. -/
theorem headerPack_toNat (g : BitVec 3) (ts : BitVec 13) : (headerPack g ts).toNat = g.toNat * 2 ^ 13 + ts.toNat := by
  have hg : g.toNat <<< 13 < 2 ^ 16 := by
    rw [Nat.shiftLeft_eq]
    omega
  rw [headerPack, BitVec.toNat_or, BitVec.toNat_shiftLeft, BitVec.toNat_setWidth_of_le (by decide),
    BitVec.toNat_setWidth_of_le (by decide), Nat.mod_eq_of_lt hg, ← Nat.shiftLeft_add_eq_or_of_lt ts.isLt, Nat.shiftLeft_eq]

/-- R231: the two header bytes unpack to the header's fields. -/
theorem headerUnpack_split (h : BitVec 16) : headerUnpack (headerHigh h) (headerLow h) = (headerGarbage h, headerTreeSize h) := by
  rw [headerUnpack, headerOfBytes_split]

/-- Settles O55: the header's bytes give back the header and the header its fields; the corner values are run. -/
theorem headerBitExactness : Obligations.HeaderBitExactness := by
  unfold Obligations.HeaderBitExactness
  refine ⟨fun g ts => ⟨?unpack, headerPack_toNat g ts⟩, by decide⟩
  case unpack =>
    refine (headerUnpack_split (headerPack g ts)).trans ?_
    rw [headerGarbage_pack, headerTreeSize_pack]

/-- R240: behind container byte 1 nothing of the magic is left, so the decoding is the same. -/
theorem decodeBody_magic (m0 m1 m0' m1' : Byte) (rest : Bytes) (h : BitVec 16) (degen : Bool) (dstMax : Nat) :
    decodeBody (m0 :: m1 :: rest) h degen dstMax = decodeBody (m0' :: m1' :: rest) h degen dstMax := by
  refine decodeBody_congr (src := m0 :: m1 :: rest) (src' := m0' :: m1' :: rest) rfl rfl (fun n _ => ?_) degen dstMax
  rw [← List.drop_drop, ← List.drop_drop]
  rfl

/-- Settles O51: the checks look at the length and at bytes 2 and 3, and the decoding at the bytes from 4 on. -/
theorem magicIgnored : Obligations.MagicIgnored := by
  unfold Obligations.MagicIgnored
  intro m0 m1 m0' m1' rest degen srcMax dstMax
  simp only [decompressBytes, decodeBody_magic m0 m1 m0' m1' rest]
  rfl

/-- Settles O60: COMPRESS is run on the input, and the way back is the round trip (O53). -/
theorem scenarioA : Obligations.ScenarioA := by
  unfold Obligations.ScenarioA
  refine ⟨?compress, roundTrip _ false false 16 16 16 16 _ _ (by decide) ?compress (.inr rfl) (by decide) (by decide)⟩
  case compress => decide +kernel

end Sys2Proof.Machine
end

section
/-! Errors (60_exceptions.md R271, R278, R279, R282): the completion a raised error takes, which error is reported, and the sticky
fault. -/

namespace Sys2Proof.Machine

/-! ### Error completion -/

/-- R270, R279: the engine step of a phase that raises an error is error completion. -/
theorem engineStep_of_raise {s : State} {e : CmdError} (hta : s.tainted = false) (hrun : runPhase s = .error (.raise e)) :
    engineStep s = .next (completeError e s) := by
  rw [engineStep, if_neg (by rw [hta]; decide), hrun]

/-- Settles O12: for each of the six errors `completeError` is the state R279 asks for. -/
theorem errorCompletion : Obligations.ErrorCompletion := by
  unfold Obligations.ErrorCompletion
  intro s e hta hrun
  refine ⟨completeError e s, engineStep_of_raise hta hrun, ?_⟩
  cases e <;> rfl

/-! ### The order of the checks -/

/-- R278: a failing check at the head of the list gives the error, and a passing one leaves it to the rest of the list. -/
theorem errorOf_check {α : Type} {p : Prop} [Decidable p] {b : Bool} {e : CmdError} {r : Except CmdError α}
    {checks : List (Bool × CmdError)} (hb : b = true ↔ p) (hrest : ¬ p → errorOf r = firstError checks) :
    errorOf (if p then .error e else r) = firstError ((b, e) :: checks) := by
  by_cases hp : p
  · rw [if_pos hp, hb.2 hp]
    rfl
  · rw [if_neg hp, hrest hp, Bool.eq_false_iff.2 fun h => hp (hb.1 h)]
    rfl

/-- R236, R278: COMPRESS's three checks; an input that passes the first is one a machine can hold. -/
theorem errorOf_compressBytes (src : Bytes) (degen : Bool) {srcMax : Nat} (dstMax : Nat) (hmax : srcMax < 2 ^ 32) :
    errorOf (compressBytes src degen srcMax dstMax) =
      firstError
        [(decide (srcMax < src.length), .sourceUnreadable),
         (oneSymbol src && degen, .degenerateAlphabet),
         (decide (dstMax < (container src).length), .sinkUnwritable)] := by
  refine errorOf_check decide_eq_true_iff fun hfits => ?_
  rw [treeOf_oneSymbol (lt_of_le_of_lt (Nat.le_of_not_lt hfits) hmax)]
  exact errorOf_check Iff.rfl fun _ => errorOf_check decide_eq_true_iff fun _ => rfl

/-- R233, R278: the six checks of D_TREE and D_UNPACK, on a tree field inside the container. -/
theorem errorOf_decodeBody {src : Bytes} {h : BitVec 16} (hfit : 4 + (headerTreeSize h).toNat ≤ src.length) (degen : Bool)
    (dstMax : Nat) :
    errorOf (decodeBody src h degen dstMax) =
      let g := (headerGarbage h).toNat
      let ts := (headerTreeSize h).toNat
      let root := deserializeTree ((src.drop 4).take ts)
      let nbits := 8 * (src.length - 4 - ts) - g
      let decoded := decodePayload (root.getD none) ((payloadBits (src.drop (4 + ts))).take nbits)
      firstError
        [(root.isNone, .corruptTree),
         (isSingleLeaf (root.getD none) && degen, .degenerateAlphabet),
         (decide (8 * (src.length - 4 - ts) < g), .corruptPayload),
         (decide (ts = 0 ∧ 0 < nbits), .corruptTree),
         (decide (dstMax < decoded.1.length), .sinkUnwritable),
         (decoded.2, .corruptPayload)] := by
  rw [decodeBody_checks hfit]
  exact errorOf_check Option.isNone_iff_eq_none fun _ => errorOf_check Iff.rfl fun _ => errorOf_check decide_eq_true_iff fun _ =>
    errorOf_check decide_eq_true_iff fun _ => errorOf_check decide_eq_true_iff fun _ => errorOf_check Iff.rfl fun _ => rfl

/-- Settles O13: COMPRESS's three checks; DECOMPRESS's three on the length before the six of `decodeBody`; and a reserved opcode's
result. -/
theorem errorPriority : Obligations.ErrorPriority := by
  unfold Obligations.ErrorPriority
  refine ⟨fun src degen srcMax dstMax hmax => errorOf_compressBytes src degen dstMax hmax, fun src degen srcMax dstMax => ?decompress,
    fun s => commandResult_reserved⟩
  case decompress =>
    rw [decompressBytes]
    exact errorOf_check decide_eq_true_iff fun _ => errorOf_check decide_eq_true_iff fun _ =>
      errorOf_check decide_eq_true_iff fun hfit => errorOf_decodeBody (Nat.le_of_not_lt hfit) degen dstMax

/-! ### The sticky fault -/

theorem startCommand_fault (op : BitVec 4) (first : Phase) (s : State) : (startCommand op first s).fault = s.fault := by
  rw [startCommand]
  split
  · rfl
  · rw [accept_frame]

/-- R300: the reset input leaves the sticky fault. -/
theorem resetSignal_fault (s : State) : (resetSignal s).fault = s.fault := by
  rw [resetSignal]
  split <;> rfl

/-- R282, R305: a host access leaves the sticky fault, or is a write of SRC inside its capacity while a command runs, which sets it. -/
theorem HostMove.fault {a : HostItem} {s t : State} (hm : HostMove a s t) :
    t.fault = s.fault ∨ t.fault = true ∧ s.busy = true ∧ ∃ i b, a = .wsrc i b ∧ i < s.params.srcMax.toNat := by
  cases hm with
  | starts w ha hop => exact .inl (startCommand_fault _ _ s)
  | keeps _ hframe hunread hdraws hrst => exact .inl (by rw [hframe])
  | stores i b ha hi =>
    show (s.fault || s.busy) = s.fault ∨ (s.fault || s.busy) = true ∧ _
    cases hb : s.busy with
    | false => exact .inl (Bool.or_false _)
    | true => exact .inr ⟨Bool.or_true _, rfl, i, b, ha, hi⟩
  | resets ha => exact .inl (resetSignal_fault s)

/-- R282, R305: the same of a step of the block. -/
theorem BlockMove.fault {s t : State} (hm : BlockMove s t) :
    t.fault = s.fault ∨
      t.fault = true ∧ s.busy = true ∧ ∃ i b rest, s.host = .wsrc i b :: rest ∧ i < s.params.srcMax.toNat := by
  cases hm with
  | engine _ hturn hm => exact .inl hm.fault
  | host a rest _ hturn hhost hm =>
    rcases hm.fault with hkeep | ⟨hset, hb, i, b, rfl, hi⟩
    · exact .inl hkeep
    · exact .inr ⟨hset, hb, i, b, rest, hhost, hi⟩
  | waits hturn hhost hidle => exact .inl rfl

/-- Settles O18: a step keeps the fault or is a write of SRC that sets it. -/
theorem faultIsSticky : Obligations.FaultIsSticky := by
  unfold Obligations.FaultIsSticky
  intro s t hi hd hstep
  rcases (blockMove_of hi hd hstep).fault with hkeep | ⟨hset, hwrite⟩
  · exact ⟨hkeep.trans, fun hclear ht => absurd ht (by rw [hkeep, hclear]; decide)⟩
  · exact ⟨fun _ => hset, fun _ _ => hwrite⟩

end Sys2Proof.Machine
end

section
/-! That every command ends (43_container_codec.md R241; 70_reset_and_hazards.md R301, R308): with each step of the block fewer phases
are left, or as many phases and fewer host accesses before the engine's next step. -/

namespace Sys2Proof.Machine

/-! ### One step nearer to the end -/

/-- R241, R301: `t` shows the end of the command that runs in `s`: idle, and with DONE unless the host had a reset to make. -/
structure Ended (s t : State) : Prop where
  idle : t.busy = false
  done : HostItem.rst ∉ s.host → t.donePort = true

/-- R308: what is left of a running command, the phases before the host accesses. -/
def State.remaining (s : State) : Nat × Nat :=
  (s.phase.left, s.stall)

/-- R308: the command that runs in `s` still runs in `t`, and less of it is left; the host has been given no reset to make. -/
structure Nearer (s t : State) : Prop where
  busy : t.busy = true
  less : Prod.Lex (· < ·) (· < ·) t.remaining s.remaining
  rst : HostItem.rst ∈ t.host → HostItem.rst ∈ s.host

theorem Ended.of_nearer {s u t : State} (hn : Nearer s u) (he : Ended u t) : Ended s t where
  idle := he.idle
  done := fun hrst => he.done fun hu => hrst (hn.rst hu)

/-- R308: the engine's own step. -/
theorem EngineMove.nearer {s t : State} (hm : EngineMove s t) (hb : s.phase ≠ .idle) : Ended s t ∨ Nearer s t := by
  rcases hm.left hb with ⟨hidle, hdone⟩ | ⟨hbusy, hleft, hhost⟩
  · exact .inl ⟨(busy_eq_false t).2 hidle, fun _ => hdone⟩
  · exact .inr ⟨(busy_eq_true t).2 hbusy, .left _ _ hleft, fun h => hhost ▸ h⟩

/-- R301, R304–R307: a host access to a busy block is the reset, or leaves the phase and the count of accesses and gives the host no
reset to make. -/
theorem HostMove.reset_or_keeps {a : HostItem} {s t : State} (hm : HostMove a s t) (hb : s.busy = true) :
    (a = .rst ∧ t.phase = .idle) ∨
      (t.phase = s.phase ∧ t.stall = s.stall ∧ (HostItem.rst ∈ t.host → HostItem.rst ∈ s.host)) := by
  cases hm with
  | starts w ha hop =>
    rw [startCommand, if_pos hb]
    exact .inr ⟨rfl, rfl, id⟩
  | keeps _ hframe hunread hdraws hrst => exact .inr ⟨by rw [hframe], by rw [hframe], hrst⟩
  | stores i b ha hi => exact .inr ⟨rfl, rfl, id⟩
  | resets ha => exact .inl ⟨ha, resetSignal_phase s⟩

/-- R308: while a command runs, the host has the turn only when accesses are left before the engine's step. -/
theorem stall_pos_of_hostTurn {s : State} (hb : s.busy = true) (ht : s.engineTurn = false) : 0 < s.stall := by
  refine Nat.pos_of_ne_zero fun hzero => ?_
  rw [engineTurn_of_stall hb hzero] at ht
  cases ht

/-- R308: every step of the block on a running command ends it or leaves less of it. -/
theorem BlockMove.nearer {s t : State} (hm : BlockMove s t) (hb : s.busy = true) : Ended s t ∨ Nearer s t := by
  cases hm with
  | engine _ hturn hm => exact hm.nearer (engineTurn_busy hturn)
  | host a rest _ hturn hhost hm =>
    rcases hm.reset_or_keeps hb with ⟨rfl, hidle⟩ | ⟨hphase, hstall, hrst⟩
    · exact .inl ⟨(busy_eq_false t).2 hidle, fun hno => absurd (hhost ▸ List.mem_cons_self) hno⟩
    · have hpos : 0 < s.stall := stall_pos_of_hostTurn hb hturn
      have hphase : t.phase = s.phase := hphase
      have hstall : t.stall = s.stall - 1 := hstall
      refine .inr ⟨?busy, ?less, fun h => hhost ▸ List.mem_cons_of_mem a (hrst h)⟩
      case busy => rwa [busy_eq_true, hphase, ← busy_eq_true]
      case less =>
        rw [State.remaining, State.remaining, hphase]
        exact .right _ (by omega)
  | waits hturn hhost hidle => exact absurd hidle ((busy_eq_true s).1 hb)

/-! ### The run to the end -/

/-- R308: the run that ends a command, by recursion on what is left of it. -/
theorem run_to_end (s : State) (hi : s.Inv) (hd : s.DataInv) (hb : s.busy = true) :
    ∃ n t, Host.Core.run core n s = .next t ∧ Ended s t := by
  obtain ⟨u, hstep, hmove⟩ := step_move hi hd
  rcases hmove.nearer hb with hend | hnearer
  · exact ⟨1, u, run_succ 0 hstep, hend⟩
  · obtain ⟨n, t, hrun, hend⟩ := run_to_end u (hmove.inv hi) (hmove.dataInv hd) hnearer.busy
    exact ⟨n + 1, t, (run_succ n hstep).trans hrun, hend.of_nearer hnearer⟩
termination_by s.remaining
decreasing_by exact hnearer.less

/-- Settles O16: with each step less of the command is left, so some step ends it, and only the host's reset ends it without DONE. -/
theorem commandCompletes : Obligations.CommandCompletes := by
  unfold Obligations.CommandCompletes
  intro s hi hd hb
  obtain ⟨n, t, hrun, hend⟩ := run_to_end s hi hd hb
  exact ⟨n, t, hrun, hend.idle, hend.done⟩

end Sys2Proof.Machine
end

section
/-! Host writes that a running command does not admit: a byte of SRC, and another command (70_reset_and_hazards.md R304, R305). -/

namespace Sys2Proof.Machine

/-! ### SRC writes -/

/-- R282, R305: a host write of SRC on a busy block stores its byte, sets the sticky fault and puts the result in doubt. -/
theorem hostWriteSrc_of_busy {i : Nat} {s : State} (hi : i < s.params.srcMax.toNat) (hb : s.busy = true) (b : Byte) :
    hostWriteSrc i b s = { s with src := Memory.store s.src i b, fault := true, tainted := true } := by
  rw [hostWriteSrc, if_pos hi, hb, Bool.or_true, Bool.or_true]

/-- R305: the engine step of a command in doubt. -/
theorem engineStep_of_tainted {s : State} (hta : s.tainted = true) : engineStep s = .next (completeTainted s) := by
  rw [engineStep, if_pos hta]

/-- Settles O17: the busy branch of the SRC write, what SRC reads as after a store, and the completion of a command in doubt, which
takes one draw for the registers and the next for DST. -/
theorem sourceWriteWhileBusy : Obligations.SourceWriteWhileBusy := by
  unfold Obligations.SourceWriteWhileBusy
  refine ⟨fun s i b hwf hb hi => ?store, fun s hta => ⟨_, engineStep_of_tainted hta, rfl⟩⟩
  case store =>
    refine ⟨_, by rw [hostAccess, hostWriteSrc_of_busy hi hb], rfl, ?_, fun j hj => ?_⟩
    · rw [srcRead_store hwf rfl, if_pos rfl]
    · rw [srcRead_store hwf rfl, if_neg hj]

/-! ### Commands -/

/-- R304: a busy block drops every command but NOP. -/
theorem exec_of_busy {i : Instr} (hwf : i.wellFormed = true) (hnop : i ≠ .nop) {s : State} (hb : s.busy = true) :
    exec i s = .next { s with status := s.status.dropped } := by
  have hop : i.op ≠ 0#4 := fun h => hnop ((op_eq_zero hwf).1 h)
  rw [exec_eq i hwf s, if_neg hop, startCommand, if_pos hb]

/-- R25, R304: DROP is bit 3 of STATUS. -/
theorem statusWord_dropped (b : Bool) (f : Status) : statusWord b f.dropped = statusWord b f ||| 8#32 := by
  rcases f with ⟨d, e, r⟩
  revert b d e r
  decide

/-- Settles O8: NOP's arm answers the same state, and every other command's sets DROP, on which the result owed does not rest. -/
theorem busyCommandIsDropped : Obligations.BusyCommandIsDropped := by
  unfold Obligations.BusyCommandIsDropped
  intro i s hwf hb
  by_cases hnop : i = .nop
  · subst hnop
    exact ⟨s, rfl, rfl, rfl, rfl⟩
  · refine ⟨_, exec_of_busy hwf hnop hb, commandResult_congr rfl rfl rfl, ?_, ?_⟩
    · rw [if_neg hnop]
      exact statusWord_dropped s.busy s.status
    · rw [if_neg hnop]
      rfl

end Sys2Proof.Machine
end

section
/-! The reset input and the state after power-on (00_scope.md R5; 70_reset_and_hazards.md R300–R302). -/

namespace Sys2Proof.Machine

/-! ### The registers -/

/-- R300: the block is idle and every register is at its reset value. -/
structure State.RegsClear (s : State) : Prop where
  phase : s.phase = .idle
  status : s.status = { done := false, err := false, drop := false }
  errcode : s.errcode = 0#4
  srcLen : s.srcLen = 0#32
  dstLen : s.dstLen = 0#32
  hdr : s.hdr = 0#16
  degen : s.degen = false

theorem State.RegsClear.regRead {s : State} (h : s.RegsClear) (r : RegNum) : s.regRead r = 0#32 := by
  have hstatus : statusWord s.busy s.status = 0#32 := by
    rw [(busy_eq_false s).2 h.phase, h.status]
    decide
  have hcfg : (BitVec.ofBool s.degen).setWidth 32 = 0#32 := by
    rw [h.degen]
    decide
  simp only [State.regRead, hstatus, h.errcode, h.srcLen, h.dstLen, h.hdr, hcfg, BitVec.setWidth_zero, ite_self]

theorem reset_regsClear : State.reset.RegsClear := by
  constructor <;> rfl

/-! ### The reset input -/

/-- R302: a reset with no command running leaves DST. -/
theorem resetSignal_of_idle {s : State} (hb : s.busy = false) :
    (resetSignal s).dst = s.dst ∧ (resetSignal s).dstGen = s.dstGen := by
  rw [resetSignal, if_neg (by rw [hb]; decide)]
  exact ⟨rfl, rfl⟩

/-- R301: a reset while a command runs makes DST a draw. -/
theorem resetSignal_of_busy {s : State} (hb : s.busy = true) :
    (resetSignal s).dst = [] ∧ (resetSignal s).dstGen = s.draws := by
  rw [resetSignal, if_pos hb]
  exact ⟨rfl, rfl⟩

theorem resetSignal_regsClear (s : State) : (resetSignal s).RegsClear := by
  rw [resetSignal]
  split <;> exact { reset_regsClear with }

theorem resetSignal_params (s : State) : (resetSignal s).params = s.params := by
  rw [resetSignal]
  split <;> rfl

/-- R302: a reset leaves SRC, a command running or not. -/
theorem resetSignal_src (s : State) : (resetSignal s).src = s.src := by
  rw [resetSignal]
  split <;> rfl

/-- Settles O25: a reset clears the registers, leaves the capacities, SRC and the fault, and its two branches are the two clauses on DST. -/
theorem resetSignal_spec : Obligations.ResetSignal := by
  unfold Obligations.ResetSignal
  intro s
  have hclear : (resetSignal s).RegsClear := resetSignal_regsClear s
  have hdone : (resetSignal s).donePort = false := by
    rw [State.donePort, hclear.status]
  exact ⟨_, rfl, hclear.regRead, hclear.phase, hdone, resetSignal_params s, resetSignal_src s, resetSignal_fault s,
    resetSignal_of_idle, resetSignal_of_busy⟩

/-! ### After power-on -/

/-- R5: a capacity that is one more than a number below 2^32 − 1 is at least 1. -/
theorem one_le_capacity (n : Fin 4294967295) : 1 ≤ (BitVec.ofNat 32 (n.val + 1)).toNat := by
  have hlt := n.isLt
  rw [BitVec.toNat_ofNat, Nat.mod_eq_of_lt (by omega)]
  omega

/-- Settles O26: the reset values, and the capacities as one more than the constants that fix them. -/
theorem powerOnState : Obligations.PowerOnState := by
  unfold Obligations.PowerOnState
  exact ⟨reset_regsClear.regRead, rfl, rfl, Memory.lookup_nil, Memory.lookup_nil, one_le_capacity _, one_le_capacity _⟩

theorem capacity_ne_zero (n : Fin 4294967295) : BitVec.ofNat 32 (n.val + 1) ≠ 0#32 := by
  intro h
  have hle := one_le_capacity n
  rw [h] at hle
  exact absurd hle (by decide)

theorem inv_at_reset : State.reset.Inv where
  params := ⟨capacity_ne_zero _, capacity_ne_zero _⟩
  srcWf := List.Pairwise.nil
  srcBelow := fun _ hc => absurd hc List.not_mem_nil
  dstWf := List.Pairwise.nil
  dstBelow := fun _ hc => absurd hc List.not_mem_nil
  busyNotDone := fun _ => rfl
  notDone := fun _ => ⟨rfl, rfl, rfl, rfl⟩
  errCode := ⟨nofun, fun h => absurd rfl h⟩
  errEmpty := fun _ _ => ⟨rfl, rfl⟩
  codeRange := fun _ => Nat.zero_le _
  drop := nofun
  tainted := nofun
  unread := nofun
  dstGen := Nat.zero_lt_one
  freq := List.length_replicate
  code := List.length_replicate
  op := trivial

/-- Settles O29: the reset values, one by one, and nothing asked of an idle block's internal structures. -/
theorem invariantAtReset : Obligations.InvariantAtReset := by
  unfold Obligations.InvariantAtReset
  exact ⟨inv_at_reset, dataInv_of_idle rfl⟩

end Sys2Proof.Machine
end
